-- ==== Sys2Proof/Word.lean ====
section
/-! DEFINITION. The widths of spec/00_scope.md R7: byte, configuration word, sequence number. -/

namespace Sys2Proof

/-- A byte of the stream, a command code, a checksum: 8 bits (R7). -/
abbrev Byte := BitVec 8

/-- A configuration word, an event counter, SCALE and OFFSET: 32 bits (R7). -/
abbrev Word := BitVec 32

/-- The sequence counter SEQ: 64 bits (R7). -/
abbrev SeqNo := BitVec 64

/-- A word index of the configuration port: `0 <= i < 2^16` (R185). -/
abbrev CfgIndex := BitVec 16

end Sys2Proof
end

