-- ==== Sys2Proof/Config.lean ====
section
/-! DEFINITION. What an instance of the block fixes (spec/00_scope.md R6), the catalog type it needs, and
the free values: opaque constants with no body, of which nothing can be proved. -/

namespace Sys2Proof

/-- KIND of a catalog entry (R48). The fourth value of the two-bit field is reserved and cannot be stored
(R42), so it has no constructor. -/
inductive Kind where
  | nonvalue
  | perChannel
  | batch
deriving DecidableEq, Repr

/-- One entry of the catalog CAT (R48). -/
structure CatEntry where
  known : Bool
  kind : Kind
  sg : Bool
  fwm1 : BitVec 2
  len : Byte
deriving DecidableEq, Repr

/-- `FW = FWM1 + 1`, the width of one raw field in bytes, 1 to 4 (R48). -/
def CatEntry.fw (e : CatEntry) : Nat := e.fwm1.toNat + 1

/-- The entry whose word is `0x00000000`: KNOWN = 0 and every other field 0 (R49, R93). -/
def CatEntry.absent : CatEntry :=
  { known := false, kind := .nonvalue, sg := false, fwm1 := 0, len := 0 }

/-- CAT: 256 entries, one per possible command code (R48). -/
abbrev Catalog := Vector CatEntry 256

/-- The catalog in which no code is known. -/
def Catalog.blank : Catalog := Vector.replicate 256 CatEntry.absent

/-- `CAT[c]` (R48). -/
def Catalog.entry (cat : Catalog) (c : Byte) : CatEntry := cat[c.toNat]'c.isLt

/-- The catalog with `CAT[c]` replaced (R196). -/
def Catalog.put (cat : Catalog) (c : Byte) (e : CatEntry) : Catalog := cat.set c.toNat e c.isLt

/-- Byte order of a multi-byte raw field, the parameter FIELD_ORDER (R63). -/
inductive FieldOrder where
  | little
  | big
deriving DecidableEq, Repr

/-- The parameter CK (R130): one of the named instances (R132 to R134), or any other total function from
byte strings to a byte. The last is a name only: what it computes is `Config.ckOther`, of which nothing is
known. -/
inductive Checksum where
  | sum8
  | xor8
  | crc8 (poly init : Byte)
  | other (n : Nat)
deriving DecidableEq, Repr

namespace Config

/-- FREE VALUE (log 7): the checksum functions that are none of the named instances. -/
opaque ckOther : Nat → List Byte → Byte

/-- FREE VALUE (log 11): the byte that `MemRead` would meet at a payload offset outside the payload, which
the rules never ask for (R14). -/
opaque freeByte : Nat → Byte

/-- FREE VALUE (log 3): with no turn prescribed and both own agents enabled, whether SCAN moves before CONV;
asked afresh at every such choice (R8). -/
opaque tie : Nat → Bool

/-- Default of CRC_POLY (R6, R134). -/
def crcPoly : Byte := 0x07

/-- Default of CRC_INIT (R6, R134). -/
def crcInit : Byte := 0x00

/-- `REFCAT`, the spec's own default of CAT_RESET (R93). -/
def refcat : Catalog :=
  Catalog.blank
    |>.put 0x00 { known := true, kind := .nonvalue, sg := false, fwm1 := 0, len := 3 }
    |>.put 0x01 { known := true, kind := .nonvalue, sg := false, fwm1 := 0, len := 4 }
    |>.put 0x02 { known := true, kind := .perChannel, sg := false, fwm1 := 1, len := 4 }
    |>.put 0x03 { known := true, kind := .perChannel, sg := true, fwm1 := 1, len := 4 }
    |>.put 0x04 { known := true, kind := .nonvalue, sg := false, fwm1 := 0, len := 2 }
    |>.put 0x06 { known := true, kind := .batch, sg := false, fwm1 := 1, len := 12 }
    |>.put 0x07 { known := true, kind := .nonvalue, sg := false, fwm1 := 0, len := 1 }
    |>.put 0x08 { known := true, kind := .nonvalue, sg := false, fwm1 := 0, len := 0 }

end Config

/-- The parameters of one block instance (R6), fixed for its life (R54). BUF_CAP is not listed: it must
equal `LEN_MAX + 2` and is computed. -/
structure Params where
  ck : Checksum
  lenMax : Nat
  nchMax : Nat
  fieldOrder : FieldOrder
  frac : Nat
  frmqDepth : Nat
  smpqDepth : Nat
  catReset : Catalog
deriving DecidableEq, Repr

/-- `BUF_CAP = LEN_MAX + 2` (R6, R21). -/
def Params.bufCap (par : Params) : Nat := par.lenMax + 2

/-- The default column of R6. -/
def Params.default : Params :=
  { ck := .sum8, lenMax := 254, nchMax := 16, fieldOrder := .little, frac := 16,
    frmqDepth := 4, smpqDepth := 16, catReset := Config.refcat }

end Sys2Proof
end

