-- ==== Sys2Proof/Syntax.lean ====
section
/-! DEFINITION. The instructions: the frames of the eight command codes (spec/30_encoding.md R85, R88). -/

namespace Sys2Proof

/-- A frame of one of the eight command codes (R2, R88), one constructor per row of the opcode table. The
operands are the frame's payload bytes in wire order and its checksum byte (R85). -/
inductive Instr where
  | welcome (payload : List Byte) (cksum : Byte)
  | readDeviceId (payload : List Byte) (cksum : Byte)
  | readSensors (payload : List Byte) (cksum : Byte)
  | readValues (payload : List Byte) (cksum : Byte)
  | readConfig (payload : List Byte) (cksum : Byte)
  | readAdcBuffer (payload : List Byte) (cksum : Byte)
  | writeConfigContinuousTx (payload : List Byte) (cksum : Byte)
  | writeConfigUart (payload : List Byte) (cksum : Byte)
deriving DecidableEq, Repr

namespace Instr

/-- The payload bytes of a frame. -/
def payload : Instr → List Byte
  | .welcome p _ => p
  | .readDeviceId p _ => p
  | .readSensors p _ => p
  | .readValues p _ => p
  | .readConfig p _ => p
  | .readAdcBuffer p _ => p
  | .writeConfigContinuousTx p _ => p
  | .writeConfigUart p _ => p

/-- The checksum byte of a frame. -/
def cksum : Instr → Byte
  | .welcome _ k => k
  | .readDeviceId _ k => k
  | .readSensors _ k => k
  | .readValues _ k => k
  | .readConfig _ k => k
  | .readAdcBuffer _ k => k
  | .writeConfigContinuousTx _ k => k
  | .writeConfigUart _ k => k

end Instr

end Sys2Proof
end

