-- ==== Sys2Proof/Decode.lean ====
section
/-! DEFINITION. Decoding the head of the byte stream through the catalog (spec/30_encoding.md R85 to R91), and
the encoder written from the same frame format. The checksum byte is an operand here: whether it is right
is for the frame's meaning to decide (R90: the match is necessary, not sufficient). -/

namespace Sys2Proof

/-- The command code of a frame, its byte 0 (R88, the `match` column of the opcode table). -/
def Instr.code : Instr → Byte
  | .welcome _ _ => 0x00
  | .readDeviceId _ _ => 0x01
  | .readSensors _ _ => 0x02
  | .readValues _ _ => 0x03
  | .readConfig _ _ => 0x04
  | .readAdcBuffer _ _ => 0x06
  | .writeConfigContinuousTx _ _ => 0x07
  | .writeConfigUart _ _ => 0x08

/-- The row of the opcode table that byte 0 selects, applied to the frame's operands; none for a code that
has no row (R88, R90). -/
def Instr.ofCode (c : Byte) (p : List Byte) (ck : Byte) : Option Instr :=
  match c.toNat with
  | 0x00 => some (.welcome p ck)
  | 0x01 => some (.readDeviceId p ck)
  | 0x02 => some (.readSensors p ck)
  | 0x03 => some (.readValues p ck)
  | 0x04 => some (.readConfig p ck)
  | 0x06 => some (.readAdcBuffer p ck)
  | 0x07 => some (.writeConfigContinuousTx p ck)
  | 0x08 => some (.writeConfigUart p ck)
  | _ => none

/-- Why no instruction of the opcode table stands at the head of a byte string. -/
inductive Reject where
  /-- There is no byte (`WAIT_EMPTY`, R113). -/
  | empty
  /-- The code is known but not all of the frame's bytes are there (`WAIT_MORE`, R113). -/
  | incomplete (c : Byte)
  /-- `CAT[c].KNOWN = 0` (`UNKNOWN`, R91, R113). -/
  | unknownCode (c : Byte)
  /-- The candidate is complete, but its code is one the host has added: no row of the opcode table (R156). -/
  | addedCode (c : Byte) (payload : List Byte) (cksum : Byte)
deriving DecidableEq, Repr

/-- The frame at the head of a byte string, with the bytes behind it. The length comes from the code alone,
through the catalog (R87); the code is looked up before the length is looked at (R113). -/
def decode (cat : Catalog) : List Byte → Except Reject (Instr × List Byte)
  | [] => .error .empty
  | c :: rest =>
    let e := cat.entry c
    if e.known then
      let n := e.len.toNat
      match rest.drop n with
      | [] => .error (.incomplete c)
      | ck :: behind =>
        match Instr.ofCode c (rest.take n) ck with
        | some i => .ok (i, behind)
        | none => .error (.addedCode c (rest.take n) ck)
    else .error (.unknownCode c)

/-- The bytes of a frame in arrival order: code, payload, checksum (R62, R85). -/
def encode (i : Instr) : List Byte := i.code :: (i.payload ++ [i.cksum])

/-- The `n` low bytes of a number, the least significant first: how the opcode table numbers the bits of a
row whose words are bytes. -/
def wordBytes : Nat → Nat → List Byte
  | 0, _ => []
  | n + 1, w => BitVec.ofNat 8 w :: wordBytes n (w / 256)

/-- How many bytes the longest frame that any legal catalog describes has: `LEN_MAX + 2` with the largest
LEN_MAX (R6, R86). -/
def longestFrame : Nat := 256

/-- The bytes of the opcode-table word `w` of `nbits` bits, every byte above them 0, up to the longest
frame. -/
def tableBytes (nbits w : Nat) : List Byte :=
  wordBytes ((nbits + 7) / 8) (w % 2 ^ nbits) ++ List.replicate (longestFrame - (nbits + 7) / 8) 0

/-- The instruction the decoder reads from an opcode-table word, under the default catalog `REFCAT` (R93). -/
def decodeTableWord (nbits w : Nat) : Option Instr :=
  match decode Config.refcat (tableBytes nbits w) with
  | .ok (i, _) => some i
  | .error _ => none

end Sys2Proof
end

