-- ==== Sys2Proof/Machine/Checksum.lean ====
section
/-! DEFINITION. The checksum functions of spec/41_checksum.md and the sender's side of a frame (R139). -/

namespace Sys2Proof.Machine

open Sys2Proof

/-- `SUM8` (R132): the sum of the bytes modulo 256, in its step form. -/
def sum8 (s : List Byte) : Byte := s.foldl (fun a b => a + b) 0

/-- `XOR8` (R133): the exclusive-or of the bytes, in its step form. -/
def xor8 (s : List Byte) : Byte := s.foldl (fun a b => a ^^^ b) 0

/-- One of the eight rounds of R134. -/
def crcBit (poly a : Byte) : Byte := if a.getLsbD 7 then (a <<< 1) ^^^ poly else a <<< 1

/-- What R134 does with the accumulator for one byte: eight rounds, most-significant bit first. -/
def crcByte (poly a b : Byte) : Byte := (crcBit poly)^[8] (a ^^^ b)

/-- `CRC8` (R134). -/
def crc8 (poly init : Byte) (s : List Byte) : Byte := s.foldl (crcByte poly) init

/-- The checksum function the parameter CK names (R130). -/
def ckFn : Checksum → List Byte → Byte
  | .sum8 => sum8
  | .xor8 => xor8
  | .crc8 poly init => crc8 poly init
  | .other n => Config.ckOther n

/-- `frame(c, p) = [c] ++ p ++ [CK([c] ++ p)]`, the bytes a sender must send (R139). -/
def senderFrame (ck : Checksum) (c : Byte) (p : List Byte) : List Byte := c :: (p ++ [ckFn ck (c :: p)])

end Sys2Proof.Machine
end

