-- ==== Sys2Proof/Machine/ScanOutcome.lean ====
section
/-! DEFINITION. The scan outcome (spec/40_frame_sync.md R113), as the spec's pseudocode writes it: it is what
STATUS.IDLE, the lock and the enabling of SCAN are computed from. -/

namespace Sys2Proof.Machine

open Sys2Proof

/-- The values of `scan_outcome` (R113). -/
inductive ScanOutcome where
  | waitEmpty
  | waitMore
  | unknown (c : Byte)
  | badck (c : Byte)
  | frame (c : Byte) (payload : List Byte)
deriving DecidableEq, Repr

/-- `scan_outcome(BUF, CAT)` (R113), tests in the order given there. -/
def scanOutcome (ck : Checksum) (cat : Catalog) (buf : List Byte) : ScanOutcome :=
  match buf with
  | [] => .waitEmpty
  | c :: _ =>
    if (cat.entry c).known = false then .unknown c
    else
      let n := (cat.entry c).len.toNat
      let t := n + 2
      if buf.length < t then .waitMore
      else if buf[t - 1]? = some (ckFn ck (buf.take (t - 1))) then .frame c ((buf.drop 1).take n)
      else .badck c

/-- The outcomes on which the scan waits for bytes (R119). -/
def ScanOutcome.waiting : ScanOutcome → Bool
  | .waitEmpty => true
  | .waitMore => true
  | .unknown _ => false
  | .badck _ => false
  | .frame _ _ => false

end Sys2Proof.Machine
end

