-- ==== Sys2Proof/Machine/State.lean ====
section
/-! DEFINITION. The state of spec/10_state.md (structure Block), the parameters it is run under, and the
environment side of the ports (structure Env, the model's own); the state after reset (R55). -/

namespace Sys2Proof.Machine

open Sys2Proof

/-- CTRL.ROUTE (R28). The reserved value 3 cannot be stored (R42, R189), so it has no constructor. -/
inductive Route where
  | bypass
  | split
  | all
deriving DecidableEq, Repr

/-- CTRL.POLICY (R29). -/
inductive Policy where
  | dropOldest
  | block
deriving DecidableEq, Repr

/-- The sticky flags, STATUS bits 8 to 12 (R31). -/
structure Sticky where
  corrupt : Bool
  unknown : Bool
  decErr : Bool
  smpDrop : Bool
  cfgErr : Bool
deriving DecidableEq, Repr

/-- One entry of the descriptor table LUT (R44 to R47). -/
structure LutEntry where
  valid : Bool
  qty : BitVec 2
  scale : Word
  offset : Word
deriving DecidableEq, Repr

/-- The entry of a channel the host has not loaded: every field 0 (R55). -/
def LutEntry.zero : LutEntry := { valid := false, qty := 0, scale := 0, offset := 0 }

/-- LUT (R44). The largest legal NCH_MAX is 16 (R6); entries from NCH_MAX on are absent: no operation reaches
them (log 12). -/
abbrev Lut := Vector LutEntry 16

/-- The converter's frame register CF when it is not `none`: `(code, payload, k)` (R23). -/
structure ConvFrame where
  code : Byte
  payload : List Byte
  k : Nat
deriving DecidableEq, Repr

/-- A frame record `(code, payload)` of FRMQ (R24, R96). -/
structure FrameRec where
  code : Byte
  payload : List Byte
deriving DecidableEq, Repr

/-- The cause of a DecodeError (R98, R218). -/
inductive Cause where
  | notValue
  | length
  | noDescriptor
deriving DecidableEq, Repr

/-- A record of SMPQ less its sequence number: a sample record (R97) or an error record (R98). -/
inductive RecordBody where
  | smp (code : Byte) (k nch : Nat) (v : List Int)
  | err (cause : Cause) (code : Byte) (len : Nat)
deriving DecidableEq, Repr

/-- A record of SMPQ (R25): its `seq` and the rest. -/
structure Record where
  seq : SeqNo
  body : RecordBody
deriving DecidableEq, Repr

/-- Every state element the spec gives the block (R20 to R50). -/
structure Block where
  /-- BUF (R21) -/
  buf : List Byte
  /-- POS (R22) -/
  pos : Word
  /-- CF (R23) -/
  cf : Option ConvFrame
  /-- FRMQ (R24) -/
  frmq : List FrameRec
  /-- SMPQ (R25) -/
  smpq : List Record
  /-- SEQ (R26) -/
  seq : SeqNo
  /-- CTRL.RUN (R27) -/
  run : Bool
  /-- CTRL.ROUTE (R28) -/
  route : Route
  /-- CTRL.POLICY (R29) -/
  policy : Policy
  /-- STATUS bits 12:8 (R31) -/
  sticky : Sticky
  /-- NCH, bits 4:0 (R33) -/
  nch : BitVec 5
  /-- CORRUPT_CNT (R35) -/
  corruptCnt : Word
  /-- UNKNOWN_CNT (R36) -/
  unknownCnt : Word
  /-- DECERR_CNT (R37) -/
  decerrCnt : Word
  /-- DROP_CNT (R39) -/
  dropCnt : Word
  /-- FRAME_CNT (R38) -/
  frameCnt : Word
  /-- LUT (R44) -/
  lut : Lut
  /-- CAT (R48) -/
  cat : Catalog
deriving DecidableEq, Repr

/-- The agents whose transitions the state undergoes (R9). -/
inductive Agent where
  | src
  | scan
  | conv
  | host
  | sink
deriving DecidableEq, Repr

/-- The transitions of the HOST agent (R9). -/
inductive HostOp where
  | cfgRead (i : CfgIndex)
  | cfgWrite (i : CfgIndex) (w : Word)
  | frmPop
  | reset
deriving DecidableEq, Repr

/-- The MODEL's own fields (log 2, 3, 5): what the environment still offers at the ports, the order in which
the agents move, and what the ports have delivered. -/
structure Env where
  /-- whose turn comes next, first to last (R8: which transition fires next is not determined) -/
  turns : List Agent
  /-- how many open choices between SCAN and CONV `Config.tie` has settled -/
  ties : Nat
  /-- the bytes the source still offers at port RX (R112) -/
  src : List Byte
  /-- the host's operations still to come at ports CFG, FRM and RST -/
  ops : List HostOp
  /-- the words CFG_READ has returned, oldest first (R185) -/
  words : List Word
  /-- the frame records FRM_POP has returned, oldest first (R205) -/
  frames : List FrameRec
  /-- the records SMP_POP has returned, oldest first (R206) -/
  records : List Record
deriving DecidableEq, Repr

/-- The machine: the parameters of the instance (no transition changes them, R54; log 6), the block, and the
environment. -/
structure State where
  par : Params
  blk : Block
  env : Env
deriving DecidableEq, Repr

/-- The faults that stop the machine: none. No event stops the block (R215), it never traps and never stops
(R66); the spec's error events are state changes, see `raise`. With no constructor nobody raises one: safe,
nothing is cut short (log 24). -/
inductive Fault where
deriving DecidableEq, Repr

/-- The refusals of the model. -/
inductive Refusal where
  /-- raised by `exec` for an instruction that has no meaning yet: safe (the run ends and nothing is claimed);
  no arm raises it, since every instruction has its meaning -/
  | notModelled (mnemonic : String)
deriving DecidableEq, Repr

/-- The reset value of every state element (R55, R245). -/
def Block.reset (par : Params) : Block :=
  { buf := [], pos := 0, cf := none, frmq := [], smpq := [], seq := 0,
    run := false, route := .bypass, policy := .dropOldest,
    sticky := { corrupt := false, unknown := false, decErr := false, smpDrop := false, cfgErr := false },
    nch := 1,
    corruptCnt := 0, unknownCnt := 0, decerrCnt := 0, dropCnt := 0, frameCnt := 0,
    lut := Vector.replicate 16 LutEntry.zero,
    cat := par.catReset }

/-- DESIGN CHOICE (log 21): an environment that offers nothing and prescribes no order. -/
def Env.silent : Env :=
  { turns := [], ties := 0, src := [], ops := [], words := [], frames := [], records := [] }

/-- A block instance with the parameters `par`, right after reset (R55, R246). -/
def State.boot (par : Params) : State := { par := par, blk := Block.reset par, env := Env.silent }

/-- The machine right after reset, with the default parameters of R6. -/
def State.reset : State := State.boot Params.default

/-- The same machine with another block state. -/
def State.setBlk (s : State) (b : Block) : State := { s with blk := b }

/-- The same machine with another environment. -/
def State.setEnv (s : State) (e : Env) : State := { s with env := e }

end Sys2Proof.Machine
end

