-- ==== Sys2Proof/Machine/Flags.lean ====
section
/-! DEFINITION. Every flag of the block: the sticky flags (spec/10_state.md R31), the computed STATUS bits (R32),
the conditions `rx_ready` (R111) and `unlocked` (R187), and the CTRL and STATUS words. -/

namespace Sys2Proof.Machine

open Sys2Proof

/-- The scan outcome of a block state. -/
def Block.outcome (par : Params) (b : Block) : ScanOutcome := scanOutcome par.ck b.cat b.buf

/-- `rx_ready = (CTRL.RUN = 1) and (|BUF| < BUF_CAP)` (R111). -/
def Block.rxReady (par : Params) (b : Block) : Bool := b.run && decide (b.buf.length < par.bufCap)

/-- IDLE (R32, R187). -/
def Block.idle (par : Params) (b : Block) : Bool := b.cf.isNone && (b.outcome par).waiting

/-- `unlocked := (CTRL.RUN = 0) and IDLE` (R187). -/
def Block.unlocked (par : Params) (b : Block) : Bool := !b.run && b.idle par

/-- The two bits of CTRL.ROUTE (R28). -/
def Route.bits : Route → BitVec 2
  | .bypass => 0
  | .split => 1
  | .all => 2

/-- The route a two-bit field asks for; none for the reserved value 3 (R28, R189). -/
def Route.ofBits (r : BitVec 2) : Option Route :=
  if r = 0 then some .bypass else if r = 1 then some .split else if r = 2 then some .all else none

/-- The bit of CTRL.POLICY (R29). -/
def Policy.bit : Policy → Bool
  | .dropOldest => false
  | .block => true

/-- The policy a bit asks for (R29). -/
def Policy.ofBit (p : Bool) : Policy := if p then .block else .dropOldest

/-- The CTRL word as read: FLUSH and the reserved bits read 0 (R27 to R30, R185). -/
def Block.ctrlWord (b : Block) : Word :=
  (0#28 ++ (BitVec.ofBool b.policy.bit ++ (b.route.bits ++ BitVec.ofBool b.run)) : BitVec 32)

/-- The sticky flags as STATUS bits 12:8 (R31). -/
def Sticky.bits (f : Sticky) : BitVec 5 :=
  BitVec.ofBool f.cfgErr ++ (BitVec.ofBool f.smpDrop ++ (BitVec.ofBool f.decErr ++
    (BitVec.ofBool f.unknown ++ BitVec.ofBool f.corrupt)))

/-- STATUS bits 4:0, computed at the instant of the read (R32). -/
def Block.statusLow (par : Params) (b : Block) : BitVec 5 :=
  BitVec.ofBool (b.rxReady par) ++ (BitVec.ofBool b.cf.isSome ++ (BitVec.ofBool (!b.smpq.isEmpty) ++
    (BitVec.ofBool (!b.frmq.isEmpty) ++ BitVec.ofBool (b.idle par))))

/-- The STATUS word as read (R31, R32, R185). -/
def Block.statusWord (par : Params) (b : Block) : Word :=
  (0#19 ++ (b.sticky.bits ++ (0#3 ++ b.statusLow par)) : BitVec 32)

/-- The sticky flags after the host writes `w` to STATUS: a flag whose bit is 1 is cleared (R192). -/
def Sticky.clearBy (f : Sticky) (w : Word) : Sticky :=
  { corrupt := f.corrupt && !w.getLsbD 8
    unknown := f.unknown && !w.getLsbD 9
    decErr := f.decErr && !w.getLsbD 10
    smpDrop := f.smpDrop && !w.getLsbD 11
    cfgErr := f.cfgErr && !w.getLsbD 12 }

end Sys2Proof.Machine
end

