-- ==== Sys2Proof/Machine/Ops.lean ====
section
/-! DEFINITION. The named operations on the block that the transitions share: the scan position (R114), the sample
queue (R178), the error events (spec/60_exceptions.md R226 to R230), the flush (R191), routing (R116), and the
two cases of SCAN (R115, R117). -/

namespace Sys2Proof.Machine

open Sys2Proof

/-- `advance(m)`: `m` bytes leave the head of BUF and POS moves by `m` (R114). -/
def Block.advance (m : Nat) (b : Block) : Block :=
  { b with buf := b.buf.drop m, pos := b.pos + BitVec.ofNat 32 m }

/-- Entry `SampleDrop` (R229): the oldest record goes, the counter and the flag say so. -/
def Block.dropOldest (b : Block) : Block :=
  { b with
    smpq := b.smpq.drop 1
    dropCnt := b.dropCnt + 1
    sticky := { b.sticky with smpDrop := true } }

/-- `smp_push(rec)` (R178): the record takes the number SEQ; a full queue loses its oldest record first. -/
def Block.smpPush (par : Params) (r : RecordBody) (b : Block) : Block :=
  let b' := if b.smpq.length = par.smpqDepth then b.dropOldest else b
  { b' with smpq := b'.smpq ++ [{ seq := b.seq, body := r }], seq := b.seq + 1 }

/-- The number that the `cause` field of an error record holds (R98, R218). 0 and 4 and above never occur. -/
def Cause.code : Cause → Nat
  | .notValue => 1
  | .length => 2
  | .noDescriptor => 3

/-- The error events (R216), with what the pseudocode's `raise E(info)` carries. -/
inductive Event where
  | unknownCommand (c : Byte)
  | framingError (c : Byte)
  | decodeError (cause : Cause) (c : Byte) (n : Nat)
  | sampleDrop
  | configRefused
deriving DecidableEq, Repr

/-- `raise E(info)`: the entry rule of the event (R226 to R230). This is the block's whole exception model:
nothing is saved, no mode changes, control goes nowhere (R222), and there is no return (R223): recovery is
the `advance(1)` or `CF <- none` of the transition that raises. -/
def Block.raise (par : Params) (e : Event) (b : Block) : Block :=
  match e with
  | .unknownCommand _ =>
    { b with unknownCnt := b.unknownCnt + 1, sticky := { b.sticky with unknown := true } }
  | .framingError _ =>
    { b with corruptCnt := b.corruptCnt + 1, sticky := { b.sticky with corrupt := true } }
  | .decodeError cause c n =>
    { Block.smpPush par (.err cause c n)
        { b with decerrCnt := b.decerrCnt + 1, sticky := { b.sticky with decErr := true } } with
      cf := none }
  | .sampleDrop => b.dropOldest
  | .configRefused => { b with sticky := { b.sticky with cfgErr := true } }

/-- `flush()` (R191). -/
def Block.flush (b : Block) : Block :=
  { b with
    pos := b.pos + BitVec.ofNat 32 b.buf.length
    buf := [], cf := none, frmq := [], smpq := [] }

/-- Where a validated frame can go (R116). -/
inductive Dest where
  | frmq
  | conv
deriving DecidableEq, Repr

/-- `dest(c)` (R116). -/
def Block.dest (b : Block) (c : Byte) : Dest :=
  match b.route with
  | .bypass => .frmq
  | .split => if (b.cat.entry c).kind = .nonvalue then .frmq else .conv
  | .all => .conv

/-- `room(FRMQ)` and `room(CONV)` (R116). -/
def Block.room (par : Params) (b : Block) : Dest → Bool
  | .frmq => decide (b.frmq.length < par.frmqDepth)
  | .conv => b.cf.isNone

/-- SCAN, reject case: the event of the outcome, then one byte is discarded (R115). -/
def Block.reject (par : Params) (e : Event) (b : Block) : Block := (b.raise par e).advance 1

/-- The destination of a validated frame receives it (R117). -/
def Block.deliver (d : Dest) (c : Byte) (p : List Byte) (b : Block) : Block :=
  match d with
  | .frmq => { b with frmq := b.frmq ++ [{ code := c, payload := p }] }
  | .conv => { b with cf := some { code := c, payload := p, k := 0 } }

/-- The effect of SCAN, accept case (R117), in a state where it is enabled. -/
def Block.accept (c : Byte) (p : List Byte) (b : Block) : Block :=
  Block.deliver (b.dest c) c p
    { Block.advance (p.length + 2) b with frameCnt := b.frameCnt + 1 }

/-- The frame `(c, p, ck)` is the candidate at the head of BUF: its code is known, its payload has the
catalog's length, and its bytes stand there (R113). -/
def Block.isCandidate (b : Block) (c : Byte) (p : List Byte) (ck : Byte) : Bool :=
  (b.cat.entry c).known && p.length == (b.cat.entry c).len.toNat && (c :: (p ++ [ck])).isPrefixOf b.buf

/-- SCAN for a complete candidate of a known code (R115, R117, R118): a wrong checksum byte rejects the head
byte whatever the destination; a right one accepts the frame if the destination has room and otherwise
leaves it where it is. -/
def Block.settle (par : Params) (c : Byte) (p : List Byte) (ck : Byte) (b : Block) : Block :=
  if ckFn par.ck (c :: p) = ck then
    if b.room par (b.dest c) then b.accept c p else b
  else b.reject par (.framingError c)

/-- The effect of the frame `(c, p, ck)` on the block (R145): the SCAN transition in which it is the candidate.
Where it does not stand at the head of BUF there is no such transition and nothing changes (log 8). -/
def Block.scanFrame (par : Params) (c : Byte) (p : List Byte) (ck : Byte) (b : Block) : Block :=
  if b.isCandidate c p ck then b.settle par c p ck else b

/-- A frame's effect on the machine: the block changes, the parameters and the environment do not. -/
def State.scanFrame (c : Byte) (p : List Byte) (ck : Byte) (s : State) : State :=
  s.setBlk (s.blk.scanFrame s.par c p ck)

end Sys2Proof.Machine
end

