-- ==== Sys2Proof/Machine/ConfigPort.lean ====
section
/-! DEFINITION. The configuration port: the index map (spec/10_state.md R41), CFG_READ and CFG_WRITE
(spec/44_host_ops.md R185 to R203). -/

namespace Sys2Proof.Machine

open Sys2Proof

/-- What stands at a word index (R41). -/
inductive CfgReg where
  | ctrl
  | status
  | nch
  | level
  | corruptCnt
  | unknownCnt
  | decerrCnt
  | dropCnt
  | frameCnt
  | pos
  | lutScale (c : Fin 16)
  | lutOffset (c : Fin 16)
  | lutMeta (c : Fin 16)
  | cat (code : Byte)
  | unmapped
deriving DecidableEq, Repr

/-- The word of a LUT entry that offset `f` of its four indices names (R41). -/
def lutReg (c : Fin 16) (f : Nat) : CfgReg :=
  match f with
  | 0 => .lutScale c
  | 1 => .lutOffset c
  | 2 => .lutMeta c
  | _ => .unmapped

/-- The index map (R41). The LUT words of entries from NCH_MAX on are unmapped. -/
def cfgReg (nchMax : Nat) (i : CfgIndex) : CfgReg :=
  match i.toNat with
  | 0x000 => .ctrl
  | 0x001 => .status
  | 0x002 => .nch
  | 0x003 => .level
  | 0x004 => .corruptCnt
  | 0x005 => .unknownCnt
  | 0x006 => .decerrCnt
  | 0x007 => .dropCnt
  | 0x008 => .frameCnt
  | 0x009 => .pos
  | n =>
    if 0x040 ≤ n ∧ n < 0x080 then
      if (n - 0x040) / 4 < nchMax then lutReg (Fin.ofNat 16 ((n - 0x040) / 4)) ((n - 0x040) % 4)
      else .unmapped
    else if 0x100 ≤ n ∧ n < 0x200 then .cat (BitVec.ofNat 8 (n - 0x100))
    else .unmapped

/-- The two bits of KIND (R48). -/
def kindBits : Kind → BitVec 2
  | .nonvalue => 0
  | .perChannel => 1
  | .batch => 2

/-- The KIND a two-bit field asks for; none for the reserved value 3 (R48, R196). -/
def kindOfBits (k : BitVec 2) : Option Kind :=
  if k = 0 then some .nonvalue else if k = 1 then some .perChannel else if k = 2 then some .batch else none

/-- CAT[code] as a word (R49, R185). -/
def catWord (e : CatEntry) : Word :=
  (BitVec.ofBool e.known ++ (0#13 ++ (kindBits e.kind ++ (0#3 ++ (BitVec.ofBool e.sg ++ (0#2 ++
    (e.fwm1 ++ e.len)))))) : BitVec 32)

/-- The entry a word asks for; none where its KIND is reserved or its LEN above LEN_MAX (R49, R196). -/
def catOfWord (lenMax : Nat) (w : Word) : Option CatEntry :=
  match kindOfBits (w.extractLsb' 16 2) with
  | none => none
  | some kind =>
    if (w.extractLsb' 0 8).toNat ≤ lenMax then
      some { known := w.getLsbD 31, kind := kind, sg := w.getLsbD 12, fwm1 := w.extractLsb' 8 2,
             len := w.extractLsb' 0 8 }
    else none

/-- LUT_META[c] as a word (R47, R185). -/
def metaWord (d : LutEntry) : Word := (0#29 ++ (d.qty ++ BitVec.ofBool d.valid) : BitVec 32)

/-- The LEVEL word (R34, R185). -/
def Block.levelWord (b : Block) : Word :=
  (BitVec.ofNat 8 b.smpq.length ++ (BitVec.ofNat 8 b.frmq.length ++ (0#7 ++
    BitVec.ofNat 9 b.buf.length)) : BitVec 32)

/-- `CFG_READ(i)`: the word returned (R185). It changes no state. -/
def Block.cfgRead (par : Params) (i : CfgIndex) (b : Block) : Word :=
  match cfgReg par.nchMax i with
  | .ctrl => b.ctrlWord
  | .status => b.statusWord par
  | .nch => b.nch.setWidth 32
  | .level => b.levelWord
  | .corruptCnt => b.corruptCnt
  | .unknownCnt => b.unknownCnt
  | .decerrCnt => b.decerrCnt
  | .dropCnt => b.dropCnt
  | .frameCnt => b.frameCnt
  | .pos => b.pos
  | .lutScale c => b.lut[c].scale
  | .lutOffset c => b.lut[c].offset
  | .lutMeta c => metaWord b.lut[c]
  | .cat code => catWord (b.cat.entry code)
  | .unmapped => 0

/-- A refused write: CFG_ERR and nothing else (R186, R230). -/
def Block.refuse (par : Params) (b : Block) : Block := b.raise par .configRefused

/-- The ROUTE and POLICY part of a CTRL write (R188, R189). -/
def Block.writeRoute (par : Params) (w : Word) (b : Block) : Block :=
  let nr := w.extractLsb' 1 2
  let np := w.getLsbD 3
  if nr ≠ b.route.bits ∨ np ≠ b.policy.bit then
    match Route.ofBits nr with
    | some r => if b.unlocked par then { b with route := r, policy := Policy.ofBit np } else b.refuse par
    | none => b.refuse par
  else b

/-- The CTRL write: its three parts in the order of R188. The lock is judged before RUN changes. -/
def Block.writeCtrl (par : Params) (w : Word) (b : Block) : Block :=
  let b' := { b.writeRoute par w with run := w.getLsbD 0 }
  if w.getLsbD 4 then b'.flush else b'

/-- The NCH write (R193). -/
def Block.writeNch (par : Params) (w : Word) (b : Block) : Block :=
  let n := w.extractLsb' 0 5
  if b.unlocked par ∧ 1 ≤ n.toNat ∧ n.toNat ≤ par.nchMax then { b with nch := n } else b.refuse par

/-- A LUT write that changes entry `c` by `f` (R195). -/
def Block.writeLut (par : Params) (c : Fin 16) (f : LutEntry → LutEntry) (b : Block) : Block :=
  if b.unlocked par then { b with lut := b.lut.set c.val (f b.lut[c]) c.isLt } else b.refuse par

/-- The CAT write (R196). -/
def Block.writeCat (par : Params) (code : Byte) (w : Word) (b : Block) : Block :=
  match catOfWord par.lenMax w with
  | some e => if b.unlocked par then { b with cat := b.cat.put code e } else b.refuse par
  | none => b.refuse par

/-- `CFG_WRITE(i, w)` (R186): always enabled; accepted with the effect of its rule, or refused (R203 for the
read-only and the unmapped words). -/
def Block.cfgWrite (par : Params) (i : CfgIndex) (w : Word) (b : Block) : Block :=
  match cfgReg par.nchMax i with
  | .ctrl => b.writeCtrl par w
  | .status => { b with sticky := b.sticky.clearBy w }
  | .nch => b.writeNch par w
  | .lutScale c => b.writeLut par c fun d => { d with scale := w }
  | .lutOffset c => b.writeLut par c fun d => { d with offset := w }
  | .lutMeta c =>
    b.writeLut par c fun d => { d with valid := w.getLsbD 0, qty := w.extractLsb' 1 2 }
  | .cat code => b.writeCat par code w
  | .level => b.refuse par
  | .corruptCnt => b.refuse par
  | .unknownCnt => b.refuse par
  | .decerrCnt => b.refuse par
  | .dropCnt => b.refuse par
  | .frameCnt => b.refuse par
  | .pos => b.refuse par
  | .unmapped => b.refuse par

end Sys2Proof.Machine
end

