-- ==== Sys2Proof/Machine/Operands.lean ====
section
/-! DEFINITION. The operands of a conversion: raw fields of a payload (spec/20_memory.md R63, spec/30_encoding.md
R94, R95, spec/43_converter.md R162) and descriptor entries. -/

namespace Sys2Proof.Machine

open Sys2Proof

/-- `p[off]`; outside the payload, where the rules never read (R14), a free value (log 11). -/
def payloadByte (p : List Byte) (off : Nat) : Byte :=
  match p[off]? with
  | some b => b
  | none => Config.freeByte off

/-- The unsigned number whose base-256 digits these bytes are, the least significant first. -/
def littleNat : List Byte → Nat
  | [] => 0
  | b :: bs => b.toNat + 256 * littleNat bs

/-- The bytes `p[off..off+n)` (R14). -/
def payloadBytes (p : List Byte) (off n : Nat) : List Byte :=
  (List.range n).map fun i => payloadByte p (off + i)

/-- `MemRead(p, off, n)` (R14, R63). -/
def memRead (order : FieldOrder) (p : List Byte) (off n : Nat) : Nat :=
  match order with
  | .little => littleNat (payloadBytes p off n)
  | .big => littleNat (payloadBytes p off n).reverse

/-- `sext_N(v)`: `v` if `v < 2^(N-1)`, else `v - 2^N` (R12). -/
def sext (bits v : Nat) : Int := if v < 2 ^ (bits - 1) then (v : Int) else (v : Int) - 2 ^ bits

/-- The integer a raw field stands for under an entry's encoding (R95). -/
def fieldInt (e : CatEntry) (u : Nat) : Int := if e.sg then sext (8 * e.fw) u else (u : Int)

/-- `raw(p, e, k, j)`: channel `j` of sample `k` (R162). -/
def raw (order : FieldOrder) (nch : Nat) (e : CatEntry) (p : List Byte) (k j : Nat) : Int :=
  fieldInt e (memRead order p ((k * nch + j) * e.fw) e.fw)

/-- `LUT[j]`; beyond the table there is no entry, and none is valid. -/
def lutAt (lut : Lut) (j : Nat) : LutEntry := if h : j < 16 then lut[j] else LutEntry.zero

/-- `r * S + O`, exact (R165, R167). -/
def scaled (r : Int) (d : LutEntry) : Int := r * d.scale.toInt + d.offset.toInt

/-- `v[0 .. NCH-1]` of sample `k` (R176). -/
def sampleValues (order : FieldOrder) (nch : Nat) (lut : Lut) (e : CatEntry) (p : List Byte) (k : Nat) :
    List Int :=
  (List.range nch).map fun j => scaled (raw order nch e p k j) (lutAt lut j)

end Sys2Proof.Machine
end

