-- ==== Sys2Proof/Machine/Converter.lean ====
section
/-! DEFINITION. The CONV transition (spec/43_converter.md R172 to R177). -/

namespace Sys2Proof.Machine

open Sys2Proof

/-- CONV is enabled (R172). -/
def Block.convReady (par : Params) (b : Block) : Bool :=
  b.cf.isSome && (decide (b.smpq.length < par.smpqDepth) || decide (b.policy = .dropOldest))

/-- `g = NCH * FW`: the bytes of one sample under an entry (R172). -/
def Block.sampleBytes (b : Block) (e : CatEntry) : Nat := b.nch.toNat * e.fw

/-- The length condition of R174 for a payload of `n` bytes and samples of `g` bytes. -/
def badLength (kind : Kind) (n g : Nat) : Bool :=
  match kind with
  | .nonvalue => false
  | .perChannel => decide (n ≠ g)
  | .batch => decide (n = 0) || decide (n % g ≠ 0)

/-- Some descriptor among `LUT[0 .. NCH-1]` is not valid (R175). -/
def Block.lacksDescriptor (b : Block) : Bool :=
  (List.range b.nch.toNat).any fun j => !(lutAt b.lut j).valid

/-- The cause for which the frame in CF cannot be converted: tested at `k = 0` only, in the order of R173 to
R175 (R172, R220). -/
def Block.convCause (b : Block) (f : ConvFrame) : Option Cause :=
  let e := b.cat.entry f.code
  if f.k ≠ 0 then none
  else if e.kind = .nonvalue then some .notValue
  else if badLength e.kind f.payload.length (b.sampleBytes e) then some .length
  else if b.lacksDescriptor then some .noDescriptor
  else none

/-- The sample record that the frame in CF yields at its index `k` (R176). -/
def Block.sampleBody (par : Params) (b : Block) (f : ConvFrame) : RecordBody :=
  .smp f.code f.k b.nch.toNat
    (sampleValues par.fieldOrder b.nch.toNat b.lut (b.cat.entry f.code) f.payload f.k)

/-- What CF holds after sample `k`: none after the last one, else the next index (R176). -/
def Block.nextFrame (b : Block) (f : ConvFrame) : Option ConvFrame :=
  if f.k + 1 = f.payload.length / b.sampleBytes (b.cat.entry f.code) then none
  else some { f with k := f.k + 1 }

/-- The effect of CONV on the block when CF holds `f` (R172 to R176). -/
def Block.convert (par : Params) (f : ConvFrame) (b : Block) : Block :=
  match b.convCause f with
  | some cause => b.raise par (.decodeError cause f.code f.payload.length)
  | none => { b.smpPush par (b.sampleBody par f) with cf := b.nextFrame f }

/-- The CONV transition in a state where it is enabled (R172). -/
def Block.conv (par : Params) (b : Block) : Block :=
  match b.cf with
  | none => b
  | some f => b.convert par f

end Sys2Proof.Machine
end

