-- ==== Sys2Proof/Machine/NonValue.lean ====
section
/-! DEFINITION. The five codes whose payload the block does not interpret (spec/42_commands.md R146). What follows
an accept step that routed the frame to the converter is the CONV agent's (R118, R173). -/

namespace Sys2Proof.Machine

open Sys2Proof

/-- `Welcome`, code `0x00` (R147). -/
def execWelcome (p : List Byte) (ck : Byte) (s : State) : Host.Outcome State Fault Refusal :=
  .next (s.scanFrame 0x00 p ck)

/-- `ReadDeviceId`, code `0x01` (R148). -/
def execReadDeviceId (p : List Byte) (ck : Byte) (s : State) : Host.Outcome State Fault Refusal :=
  .next (s.scanFrame 0x01 p ck)

/-- `ReadConfig`, code `0x04` (R151). -/
def execReadConfig (p : List Byte) (ck : Byte) (s : State) : Host.Outcome State Fault Refusal :=
  .next (s.scanFrame 0x04 p ck)

/-- `WriteConfigContinuousTx`, code `0x07`: the device's acknowledgement (R153). -/
def execWriteConfigContinuousTx (p : List Byte) (ck : Byte) (s : State) :
    Host.Outcome State Fault Refusal :=
  .next (s.scanFrame 0x07 p ck)

/-- `WriteConfigUart`, code `0x08`: the device's acknowledgement (R154). -/
def execWriteConfigUart (p : List Byte) (ck : Byte) (s : State) : Host.Outcome State Fault Refusal :=
  .next (s.scanFrame 0x08 p ck)

end Sys2Proof.Machine
end

