-- ==== Sys2Proof/Machine/ValueBearing.lean ====
section
/-! DEFINITION. The three value-bearing codes (spec/42_commands.md R149, R150, R152; KIND in R50). The frame is
accepted here; its samples are produced by CONV transitions (R118, R172 to R177), see Machine/Converter.lean. -/

namespace Sys2Proof.Machine

open Sys2Proof

/-- `ReadSensors`, code `0x02` (R149). -/
def execReadSensors (p : List Byte) (ck : Byte) (s : State) : Host.Outcome State Fault Refusal :=
  .next (s.scanFrame 0x02 p ck)

/-- `ReadValues`, code `0x03` (R150). -/
def execReadValues (p : List Byte) (ck : Byte) (s : State) : Host.Outcome State Fault Refusal :=
  .next (s.scanFrame 0x03 p ck)

/-- `ReadAdcBuffer`, code `0x06` (R152). -/
def execReadAdcBuffer (p : List Byte) (ck : Byte) (s : State) : Host.Outcome State Fault Refusal :=
  .next (s.scanFrame 0x06 p ck)

end Sys2Proof.Machine
end

