-- ==== Sys2Proof/Machine/Dispatch.lean ====
section
/-! DEFINITION. One arm per command code (spec/30_encoding.md R88). -/

namespace Sys2Proof.Machine

def exec (i : Instr) (s : State) : Host.Outcome State Fault Refusal :=
  match i with
  | .welcome p ck => Sys2Proof.Machine.execWelcome p ck s
  | .readDeviceId p ck => Sys2Proof.Machine.execReadDeviceId p ck s
  | .readSensors p ck => Sys2Proof.Machine.execReadSensors p ck s
  | .readValues p ck => Sys2Proof.Machine.execReadValues p ck s
  | .readConfig p ck => Sys2Proof.Machine.execReadConfig p ck s
  | .readAdcBuffer p ck => Sys2Proof.Machine.execReadAdcBuffer p ck s
  | .writeConfigContinuousTx p ck => Sys2Proof.Machine.execWriteConfigContinuousTx p ck s
  | .writeConfigUart p ck => Sys2Proof.Machine.execWriteConfigUart p ck s

end Sys2Proof.Machine
end

