-- ==== Sys2Proof/Machine/Agents.lean ====
section
/-! DEFINITION. The transitions of the five agents (spec/00_scope.md R9): when each is enabled, what it does, and
what an agent does at its turn. -/

namespace Sys2Proof.Machine

open Sys2Proof

/-- The transitions of the block (R9), with their arguments. -/
inductive Transition where
  | rx (b : Byte)
  | scan
  | conv
  | host (op : HostOp)
  | smpPop
deriving DecidableEq, Repr

/-- SCAN is enabled (R118). -/
def Block.scanReady (par : Params) (b : Block) : Bool :=
  match b.outcome par with
  | .waitEmpty => false
  | .waitMore => false
  | .unknown _ => true
  | .badck _ => true
  | .frame c _ => b.room par (b.dest c)

/-- Whether a transition is enabled (R110, R118, R172, R185, R186, R205, R206, R245). -/
def enabled (t : Transition) (s : State) : Bool :=
  match t with
  | .rx _ => s.blk.rxReady s.par
  | .scan => s.blk.scanReady s.par
  | .conv => s.blk.convReady s.par
  | .host (.cfgRead _) => true
  | .host (.cfgWrite _ _) => true
  | .host .frmPop => !s.blk.frmq.isEmpty
  | .host .reset => true
  | .smpPop => !s.blk.smpq.isEmpty

/-- `RX(b)` (R110). -/
def fireRx (x : Byte) (s : State) : State := s.setBlk { s.blk with buf := s.blk.buf ++ [x] }

/-- The instruction at the head of BUF, with the bytes behind it: the block's fetch (R14, R90). -/
def fetch (s : State) : Except Reject (Instr × List Byte) := decode s.blk.cat s.blk.buf

/-- SCAN (R113 to R118): the head of BUF is decoded through CAT. A complete candidate of a code of the opcode
table is executed; one of a code the host has added has the same effect (R156, log 10); an unknown head
byte is discarded (R115, R155); otherwise the scan waits (R119). -/
def fireScan (s : State) : Host.Outcome State Fault Refusal :=
  match fetch s with
  | .ok (i, _) => exec i s
  | .error (.addedCode c p ck) => .next (s.scanFrame c p ck)
  | .error (.unknownCode c) => .next (s.setBlk (s.blk.reject s.par (.unknownCommand c)))
  | .error .empty => .next s
  | .error (.incomplete _) => .next s

/-- `FRM_POP`: the head of FRMQ leaves it and is returned at port FRM (R205). -/
def fireFrmPop (s : State) : State :=
  match s.blk.frmq with
  | [] => s
  | r :: rest =>
    { s with blk := { s.blk with frmq := rest }, env := { s.env with frames := s.env.frames ++ [r] } }

/-- `SMP_POP`: the head of SMPQ leaves it and is returned at port SMP (R206). -/
def fireSmpPop (s : State) : State :=
  match s.blk.smpq with
  | [] => s
  | r :: rest =>
    { s with blk := { s.blk with smpq := rest }, env := { s.env with records := s.env.records ++ [r] } }

/-- A host operation: CFG_READ (R185), CFG_WRITE (R186), FRM_POP (R205), RESET (R245). -/
def fireHost (op : HostOp) (s : State) : State :=
  match op with
  | .cfgRead i => s.setEnv { s.env with words := s.env.words ++ [s.blk.cfgRead s.par i] }
  | .cfgWrite i w => s.setBlk (s.blk.cfgWrite s.par i w)
  | .frmPop => fireFrmPop s
  | .reset => s.setBlk (Block.reset s.par)

/-- The effect of a transition in a state where it is enabled (R9). -/
def fire (t : Transition) (s : State) : Host.Outcome State Fault Refusal :=
  match t with
  | .rx x => .next (fireRx x s)
  | .scan => fireScan s
  | .conv => .next (s.setBlk (s.blk.conv s.par))
  | .host op => .next (fireHost op s)
  | .smpPop => .next (fireSmpPop s)

/-- The transition an agent would perform at its turn, and the machine with the input it would take from the
environment taken; none where the environment offers it no input. -/
def offer (a : Agent) (s : State) : Option (Transition × State) :=
  match a with
  | .src =>
    match s.env.src with
    | [] => none
    | x :: rest => some (.rx x, s.setEnv { s.env with src := rest })
  | .scan => some (.scan, s)
  | .conv => some (.conv, s)
  | .host =>
    match s.env.ops with
    | [] => none
    | op :: rest => some (.host op, s.setEnv { s.env with ops := rest })
  | .sink => some (.smpPop, s)

/-- An agent's turn: its transition if that is enabled. If not, the turn passes with nothing done: the source
keeps its byte (R111), the host and the sink wait (R234; log 4). -/
def turn (a : Agent) (s : State) : Host.Outcome State Fault Refusal :=
  match offer a s with
  | none => .next s
  | some (t, s') => if enabled t s then fire t s' else .next s

/-- With no turn prescribed the environment is silent and the block's own agents move while they are enabled
(R10). Which of SCAN and CONV moves where both can is left open by R8: a free value (log 3). -/
def ownTurn (s : State) : Host.Outcome State Fault Refusal :=
  if enabled .scan s && enabled .conv s then
    let s' := s.setEnv { s.env with ties := s.env.ties + 1 }
    if Config.tie s.env.ties then fire .scan s' else fire .conv s'
  else if enabled .scan s then fire .scan s
  else if enabled .conv s then fire .conv s
  else .next s

/-- The bytes that make the opcode-table word `w` of `nbits` bits the head of BUF under a catalog: those of one
frame of its code, or the code alone where the catalog does not know it. -/
def fetchBytes (cat : Catalog) (nbits w : Nat) : List Byte :=
  let bytes := tableBytes nbits w
  match bytes with
  | [] => []
  | c :: _ => if (cat.entry c).known then bytes.take ((cat.entry c).len.toNat + 2) else [c]

end Sys2Proof.Machine
end

