-- ==== Sys2Proof/Machine/Step.lean ====
section
/-! DEFINITION. One step of the machine: one transition of one agent (spec/00_scope.md R8; log 2). -/

namespace Sys2Proof.Machine

open Sys2Proof

/-- One step: the agent whose turn the environment's order prescribes, or, with no turn prescribed, the
block's own agents. -/
def step (s : State) : Host.Outcome State Fault Refusal :=
  match s.env.turns with
  | [] => ownTurn s
  | a :: rest => turn a (s.setEnv { s.env with turns := rest })

/-- The machine with one frame, the opcode-table word `w` with zero bytes above it, as the contents of BUF, so
that the very next step runs it (log 17). A SCAN turn is prescribed where the next step would otherwise not
be sure to be SCAN's. -/
def State.withFetchWord (s : State) (nbits w : Nat) : State :=
  { s with
    blk := { s.blk with buf := fetchBytes s.blk.cat nbits w }
    env := { s.env with
      turns := if s.env.turns.isEmpty && !s.blk.convReady s.par then [] else .scan :: s.env.turns } }

end Sys2Proof.Machine
end

