-- ==== Sys2Proof/Machine/Fairness.lean ====
section
/-! DEFINITION. Weak fairness (spec/00_scope.md R10), over infinite runs in which the environment keeps acting
(log 18). -/

namespace Sys2Proof.Machine

open Sys2Proof

/-- The transition that `step` fires, if it fires one: that of the agent whose turn it is or, with no turn
prescribed, the block's own (log 2, 3). -/
def pick (s : State) : Option Transition :=
  match s.env.turns with
  | [] =>
    if enabled .scan s && enabled .conv s then
      if Config.tie s.env.ties then some .scan else some .conv
    else if enabled .scan s then some .scan
    else if enabled .conv s then some .conv
    else none
  | a :: _ =>
    match offer a s with
    | none => none
    | some (t, _) => if enabled t s then some t else none

/-- What the environment may choose anew before every step of an infinite run: the order of the agents (R8), the
bytes it offers (R112) and the host's operations. What the ports have delivered stays. -/
def Env.replans (e e' : Env) : Prop := e' = { e with turns := e'.turns, src := e'.src, ops := e'.ops }

/-- An infinite run `ρ` in which the environment keeps acting; `τ n` is the transition that fires in step `n`. -/
def runForever (ρ : Nat → State) (τ : Nat → Option Transition) : Prop :=
  ∀ n, ∃ e, (ρ n).env.replans e ∧ pick ((ρ n).setEnv e) = τ n ∧ step ((ρ n).setEnv e) = .next (ρ (n + 1))

/-- Weak fairness towards a transition (R10): if from some step on it is enabled without a break, it fires at that
step or later. -/
def weaklyFair (ρ : Nat → State) (τ : Nat → Option Transition) (t : Transition) : Prop :=
  ∀ n, (∀ m, n ≤ m → enabled t (ρ m) = true) → ∃ m, n ≤ m ∧ τ m = some t

/-- The infinite runs the block admits (R10): those weakly fair towards SCAN and towards CONV. -/
def fairRun (ρ : Nat → State) (τ : Nat → Option Transition) : Prop :=
  runForever ρ τ ∧ weaklyFair ρ τ .scan ∧ weaklyFair ρ τ .conv

end Sys2Proof.Machine
end

