-- ==== Sys2Proof/WellFormed.lean ====
section
/-! DEFINITION. Which instructions, catalogs and parameters are legal (spec/00_scope.md R6, spec/10_state.md R42,
R48 to R50, spec/30_encoding.md R85). -/

namespace Sys2Proof

/-- A frame that the catalog describes: its code is known and its payload has the catalog's length (R85,
R87). -/
def Instr.wellFormed (cat : Catalog) (i : Instr) : Bool :=
  (cat.entry i.code).known && i.payload.length == (cat.entry i.code).len.toNat

/-- No entry holds a LEN above LEN_MAX (R42, R48); the reserved KIND has no constructor. -/
abbrev Catalog.lenLegal (cat : Catalog) (lenMax : Nat) : Prop :=
  ∀ c : Byte, (cat.entry c).len.toNat ≤ lenMax

/-- What CAT_RESET must hold for the eight codes: known, with the KIND that D0 gives each (R50). -/
abbrev Catalog.resetLegal (cat : Catalog) : Prop :=
  ((cat.entry 0x00).known = true ∧ (cat.entry 0x00).kind = .nonvalue) ∧
  ((cat.entry 0x01).known = true ∧ (cat.entry 0x01).kind = .nonvalue) ∧
  ((cat.entry 0x02).known = true ∧ (cat.entry 0x02).kind = .perChannel) ∧
  ((cat.entry 0x03).known = true ∧ (cat.entry 0x03).kind = .perChannel) ∧
  ((cat.entry 0x04).known = true ∧ (cat.entry 0x04).kind = .nonvalue) ∧
  ((cat.entry 0x06).known = true ∧ (cat.entry 0x06).kind = .batch) ∧
  ((cat.entry 0x07).known = true ∧ (cat.entry 0x07).kind = .nonvalue) ∧
  ((cat.entry 0x08).known = true ∧ (cat.entry 0x08).kind = .nonvalue)

/-- The legal values of the parameters (R6). -/
abbrev Params.legal (par : Params) : Prop :=
  par.lenMax ≤ 254 ∧ (1 ≤ par.nchMax ∧ par.nchMax ≤ 16) ∧ par.frac ≤ 31 ∧
  (1 ≤ par.frmqDepth ∧ par.frmqDepth ≤ 255) ∧ (1 ≤ par.smpqDepth ∧ par.smpqDepth ≤ 255) ∧
  par.catReset.lenLegal par.lenMax ∧ par.catReset.resetLegal

end Sys2Proof
end

