-- ==== Sys2Proof/Safety.lean ====
section
/-! DEFINITION. The terms claims are made in: the invariants of spec/10_state.md R53, the scan as a pure function on
byte strings (spec/20_memory.md R73), and which inputs leave the configuration alone. -/

namespace Sys2Proof.Machine

open Sys2Proof

/-- R53 (b): what CF may hold. -/
abbrev Block.cfLegal (b : Block) (f : ConvFrame) : Prop :=
  (b.cat.entry f.code).known = true ∧ f.payload.length = (b.cat.entry f.code).len.toNat ∧
  (f.k = 0 ∨ ((b.cat.entry f.code).kind ≠ .nonvalue ∧
    f.k < f.payload.length / b.sampleBytes (b.cat.entry f.code)))

/-- R53 of a block run under legal parameters (R6). ROUTE and KIND hold no reserved value by their types. -/
structure Inv (s : State) : Prop where
  /-- the parameters are legal (R6) -/
  par : s.par.legal
  /-- R53 (a) -/
  buf : s.blk.buf.length ≤ s.par.bufCap
  frmq : s.blk.frmq.length ≤ s.par.frmqDepth
  smpq : s.blk.smpq.length ≤ s.par.smpqDepth
  /-- R53 (b) -/
  cf : ∀ f, s.blk.cf = some f → s.blk.cfLegal f
  /-- R53 (c) -/
  nch : 1 ≤ s.blk.nch.toNat ∧ s.blk.nch.toNat ≤ s.par.nchMax
  cat : s.blk.cat.lenLegal s.par.lenMax
  /-- R53 (d) -/
  frames : ∀ r ∈ s.blk.frmq, r.payload.length ≤ s.par.lenMax

/-- The records of SMPQ carry consecutive sequence numbers, the last one the number before SEQ (R71 (d), R178).
Their order is the order of the numbers, up to the wrap of SEQ (R26). -/
def Block.seqConsecutive (b : Block) : Prop :=
  ∀ j (h : j < b.smpq.length), b.smpq[j].seq + BitVec.ofNat 64 (b.smpq.length - j) = b.seq

/-- A signed 64-bit number (R7, R97). -/
def int64 (v : Int) : Prop := -2 ^ 63 ≤ v ∧ v < 2 ^ 63

/-- A sample record holds `nch` values, `nch` in 1..NCH_MAX, each a signed 64-bit number (R97). -/
def RecordBody.legal (nchMax : Nat) : RecordBody → Prop
  | .smp _ _ nch v => 1 ≤ nch ∧ nch ≤ nchMax ∧ v.length = nch ∧ ∀ x ∈ v, int64 x
  | .err _ _ _ => True

/-- How many bytes a scan decision consumes (R114, R115, R117). -/
def ScanOutcome.consumes : ScanOutcome → Nat
  | .waitEmpty => 0
  | .waitMore => 0
  | .unknown _ => 1
  | .badck _ => 1
  | .frame _ p => p.length + 2

/-- The scan steps on a byte string that nothing interrupts, each with its stream offset, and the bytes left
over when the scan waits; at most `fuel` steps (R73). -/
def scanSteps (ck : Checksum) (cat : Catalog) : Nat → Word → List Byte → List (Word × ScanOutcome) × List Byte
  | 0, _, bytes => ([], bytes)
  | fuel + 1, pos, bytes =>
    let o := scanOutcome ck cat bytes
    if o.waiting then ([], bytes)
    else
      let r := scanSteps ck cat fuel (pos + BitVec.ofNat 32 o.consumes) (bytes.drop o.consumes)
      ((pos, o) :: r.1, r.2)

/-- All scan steps on a byte string: each consumes a byte at least, so its length is fuel enough. -/
def scanAll (ck : Checksum) (cat : Catalog) (pos : Word) (bytes : List Byte) :
    List (Word × ScanOutcome) × List Byte :=
  scanSteps ck cat bytes.length pos bytes

/-- The scan steps still to come on the bytes in BUF and those the source still offers, whatever the order in
which the agents move. -/
def State.scanAhead (s : State) : List (Word × ScanOutcome) × List Byte :=
  scanAll s.par.ck s.blk.cat s.blk.pos (s.blk.buf ++ s.env.src)

/-- The frames among scan steps, in order (R117). -/
def framesOf (steps : List (Word × ScanOutcome)) : List FrameRec :=
  steps.filterMap fun e =>
    match e.2 with
    | .frame c p => some { code := c, payload := p }
    | _ => none

/-- How many of some scan steps rejected an unknown code (R115). -/
def unknownsOf (steps : List (Word × ScanOutcome)) : Nat :=
  (steps.filter fun e => match e.2 with | .unknown _ => true | _ => false).length

/-- How many of some scan steps rejected a wrong checksum (R115). -/
def badcksOf (steps : List (Word × ScanOutcome)) : Nat :=
  (steps.filter fun e => match e.2 with | .badck _ => true | _ => false).length

/-- A host operation that can change no state of the block but FRMQ: CFG_READ or FRM_POP (R185, R205). -/
def HostOp.harmless : HostOp → Bool
  | .cfgRead _ => true
  | .cfgWrite _ _ => false
  | .frmPop => true
  | .reset => false

/-- A run of `n` steps from `s` that ends in `s'`. -/
def runsTo (n : Nat) (s s' : State) : Prop := Sys2Proof.core.run n s = .next s'

/-- The route of a validated frame leads to FRMQ (R116, R28). -/
abbrev Block.routesToFrmq (b : Block) (c : Byte) : Prop :=
  b.route = .bypass ∨ (b.route = .split ∧ (b.cat.entry c).kind = .nonvalue)

/-- The route of a validated frame leads to the converter (R116, R28). -/
abbrev Block.routesToConv (b : Block) (c : Byte) : Prop :=
  b.route = .all ∨ (b.route = .split ∧ (b.cat.entry c).kind ≠ .nonvalue)

/-- The frame `i` stands at the head of BUF, `behind` follows it, and the catalog describes it (R85, R131). -/
structure AtHead (s : State) (i : Instr) (behind : List Byte) : Prop where
  bytes : s.blk.buf = encode i ++ behind
  described : i.wellFormed s.blk.cat = true

/-- `r * SCALE + OFFSET` for every channel of sample `k`, written out (R162, R167, R176). -/
def State.values (s : State) (c : Byte) (p : List Byte) (k : Nat) : List Int :=
  (List.range s.blk.nch.toNat).map fun j =>
    raw s.par.fieldOrder s.blk.nch.toNat (s.blk.cat.entry c) p k j * (lutAt s.blk.lut j).scale.toInt +
      (lutAt s.blk.lut j).offset.toInt

/-- Every descriptor that a conversion needs is valid (R175). -/
abbrev Block.descriptorsValid (b : Block) : Prop := ∀ j < b.nch.toNat, (lutAt b.lut j).valid = true

/-- A stream of valid frames, each behind a gap of other bytes, and a tail (R123). -/
def gapStream (ck : Checksum) : List (List Byte × FrameRec) → List Byte → List Byte
  | [], tail => tail
  | (gap, f) :: rest, tail => gap ++ (senderFrame ck f.code f.payload ++ gapStream ck rest tail)

/-- No byte of a gap begins a candidate that passes or that is incomplete in the stream (R123). -/
def cleanGap (ck : Checksum) (cat : Catalog) : List Byte → List Byte → Prop
  | [], _ => True
  | b :: gap, behind =>
    (∃ c, scanOutcome ck cat (b :: (gap ++ behind)) = .unknown c ∨
      scanOutcome ck cat (b :: (gap ++ behind)) = .badck c) ∧ cleanGap ck cat gap behind

/-- The frame record `f` is one that the catalog describes (R85). -/
abbrev FrameRec.described (cat : Catalog) (f : FrameRec) : Prop :=
  (cat.entry f.code).known = true ∧ f.payload.length = (cat.entry f.code).len.toNat

/-- Every frame of the stream is described by the catalog and every gap is clean (R123). -/
def cleanStream (ck : Checksum) (cat : Catalog) : List (List Byte × FrameRec) → List Byte → Prop
  | [], _ => True
  | (gap, f) :: rest, tail =>
    f.described cat ∧ cleanGap ck cat gap (senderFrame ck f.code f.payload ++ gapStream ck rest tail) ∧
      cleanStream ck cat rest tail

/-- The index of a word of the descriptor table (R41). -/
abbrev lutIndex (par : Params) (n : Nat) : Prop :=
  0x040 ≤ n ∧ n < 0x080 ∧ (n - 0x040) / 4 < par.nchMax ∧ (n - 0x040) % 4 < 3

/-- The index of a catalog word (R41). -/
abbrev catIndex (n : Nat) : Prop := 0x100 ≤ n ∧ n < 0x200

/-- The index of a read-only word (R41, R203). -/
abbrev readOnlyIndex (n : Nat) : Prop := 3 ≤ n ∧ n ≤ 9

/-- An index at which nothing stands (R41). -/
abbrev unmappedIndex (par : Params) (n : Nat) : Prop := 9 < n ∧ ¬ lutIndex par n ∧ ¬ catIndex n

/-- The writes that are refused, as the summary of R204 lists them. -/
def refusedWrite (par : Params) (b : Block) (i : CfgIndex) (w : Word) : Prop :=
  (i.toNat = 0 ∧ (w.extractLsb' 1 2 ≠ b.route.bits ∨ w.getLsbD 3 ≠ b.policy.bit) ∧
    (b.unlocked par = false ∨ w.extractLsb' 1 2 = 3)) ∨
  (i.toNat = 2 ∧ (b.unlocked par = false ∨ (w.extractLsb' 0 5).toNat = 0 ∨
    par.nchMax < (w.extractLsb' 0 5).toNat)) ∨
  (lutIndex par i.toNat ∧ b.unlocked par = false) ∨
  (catIndex i.toNat ∧ (b.unlocked par = false ∨ w.extractLsb' 16 2 = 3 ∨
    par.lenMax < (w.extractLsb' 0 8).toNat)) ∨
  readOnlyIndex i.toNat ∨ unmappedIndex par i.toNat

end Sys2Proof.Machine
end

