-- ==== Sys2Proof/Certificates/Slice0/Obligations.lean ====
section
/-! DEFINITION. The statements for the provers. -/

open Sys2Proof Sys2Proof.Machine

/-! ## Encoding -/

/-- Decoding an encoded well-formed frame gives it back with the bytes behind it, under every catalog
(30_encoding.md R85, R87, R90). -/
def Obligations.DecodeOfEncodeIsTheFrame : Prop :=
  ∀ (cat : Catalog) (i : Instr) (behind : List Byte),
    i.wellFormed cat = true → decode cat (encode i ++ behind) = .ok (i, behind)

/-- What the decoder answers is well-formed and its bytes are exactly the bytes read: no byte is dropped or
made up (30_encoding.md R85, R87, R90). -/
def Obligations.DecodedFrameIsTheBytesRead : Prop :=
  ∀ (cat : Catalog) (bytes : List Byte) (i : Instr) (behind : List Byte),
    decode cat bytes = .ok (i, behind) → i.wellFormed cat = true ∧ bytes = encode i ++ behind

/-- The frames of 42_commands.md R147 to R154, byte by byte, decode to the instructions they stand for, and a
code outside the eight does not. -/
def Obligations.WorkedFramesDecode : Prop :=
  decode Config.refcat [0x00, 0x50, 0x4D, 0x44, 0xE1] = .ok (.welcome [0x50, 0x4D, 0x44] 0xE1, []) ∧
  decode Config.refcat [0x01, 0xDE, 0xAD, 0xBE, 0xEF, 0x39] =
    .ok (.readDeviceId [0xDE, 0xAD, 0xBE, 0xEF] 0x39, []) ∧
  decode Config.refcat [0x02, 0xE8, 0x03, 0xD0, 0x07, 0xC4] =
    .ok (.readSensors [0xE8, 0x03, 0xD0, 0x07] 0xC4, []) ∧
  decode Config.refcat [0x03, 0x0A, 0x00, 0x14, 0x00, 0x21] =
    .ok (.readValues [0x0A, 0x00, 0x14, 0x00] 0x21, []) ∧
  decode Config.refcat [0x04, 0x12, 0x34, 0x4A] = .ok (.readConfig [0x12, 0x34] 0x4A, []) ∧
  decode Config.refcat [0x06, 1, 0, 2, 0, 3, 0, 4, 0, 5, 0, 6, 0, 0x1B] =
    .ok (.readAdcBuffer [1, 0, 2, 0, 3, 0, 4, 0, 5, 0, 6, 0] 0x1B, []) ∧
  decode Config.refcat [0x07, 0x01, 0x08] = .ok (.writeConfigContinuousTx [0x01] 0x08, []) ∧
  decode Config.refcat [0x08, 0x08] = .ok (.writeConfigUart [] 0x08, []) ∧
  decode Config.refcat [0x05, 0x08] = .error (.unknownCode 0x05)

/-- The default CAT_RESET (30_encoding.md R93): the eight words of the table, 0 for every other code, and what
they carry with two channels: one sample of two 16-bit fields in `0x02` and `0x03`, three samples in `0x06`. -/
def Obligations.ReferenceCatalogWords : Prop :=
  Params.default.catReset = Config.refcat ∧
  (∀ c : Byte, catWord (Config.refcat.entry c) =
    if c = 0x00 then 0x80000003 else if c = 0x01 then 0x80000004
    else if c = 0x02 then 0x80010104 else if c = 0x03 then 0x80011104
    else if c = 0x04 then 0x80000002 else if c = 0x06 then 0x8002010C
    else if c = 0x07 then 0x80000001 else if c = 0x08 then 0x80000000
    else 0x00000000) ∧
  (∀ c : Byte, c = 0x02 ∨ c = 0x03 →
    8 * (Config.refcat.entry c).fw = 16 ∧ (Config.refcat.entry c).len.toNat = 2 * (Config.refcat.entry c).fw) ∧
  (Config.refcat.entry 0x06).len.toNat = 3 * (2 * (Config.refcat.entry 0x06).fw)

/-! ## The step -/

/-- A step runs the frame at the head of BUF. With a SCAN turn prescribed it does exactly what exec does once
the turn is taken from the order; with no turn prescribed it does so unless CONV can move: then SCAN or CONV
moves as the free value `Config.tie` says if both can, and CONV if SCAN cannot (log 2, 3). -/
def Obligations.StepRunsTheFrameAtTheHead : Prop :=
  ∀ (s : State) (i : Instr) (behind : List Byte), decode s.blk.cat s.blk.buf = .ok (i, behind) →
    i.wellFormed s.blk.cat = true →
    (∀ rest, s.env.turns = .scan :: rest →
      step s = exec i (s.setEnv { s.env with turns := rest })) ∧
    (s.env.turns = [] → s.blk.convReady s.par = false → step s = exec i s) ∧
    (s.env.turns = [] → s.blk.convReady s.par = true →
      step s =
        if s.blk.scanReady s.par then
          if Config.tie s.env.ties then exec i (s.setEnv { s.env with ties := s.env.ties + 1 })
          else fire .conv (s.setEnv { s.env with ties := s.env.ties + 1 })
        else fire .conv s)

/-- Every enabled transition of every agent can be the next one (00_scope.md R8): some environment, with the
same past outputs, makes the step fire it (by its order of turns, the model's choice: log 2). -/
def Obligations.EveryEnabledTransitionCanBeNext : Prop :=
  ∀ (s : State) (t : Transition), enabled t s = true →
    ∃ e : Env, e.words = s.env.words ∧ e.frames = s.env.frames ∧ e.records = s.env.records ∧
      step (s.setEnv e) = fire t s

/-- An agent whose transition is not enabled leaves everything as it is at its turn: the source keeps its byte
and the host its operation (the model's choice of what a turn then is: log 4). -/
def Obligations.DisabledTurnPasses : Prop :=
  ∀ (s : State) (a : Agent) (rest : List Agent) (t : Transition) (s' : State),
    s.env.turns = a :: rest → offer a s = some (t, s') → enabled t s = false →
    step s = .next (s.setEnv { s.env with turns := rest })

/-- Every step has a next state, and the parameters of the instance stay what they are (60_exceptions.md
section 1, 10_state.md R54; log 24). -/
def Obligations.MachineNeverStops : Prop :=
  ∀ s : State, ∃ s', step s = .next s' ∧ s'.par = s.par

/-! ## What a frame does (42_commands.md R145 to R154), for each of the eight codes -/

/-- A valid frame routed to FRMQ is consumed whole and its record appended (R117, R145), for each of the eight
codes. -/
def Obligations.ValidFrameEntersTheFrameQueue : Prop :=
  ∀ (s : State) (i : Instr) (behind : List Byte), AtHead s i behind →
    ckFn s.par.ck (i.code :: i.payload) = i.cksum → s.blk.routesToFrmq i.code →
    s.blk.frmq.length < s.par.frmqDepth →
    exec i s = .next { s with blk := { s.blk with
      buf := behind
      pos := s.blk.pos + BitVec.ofNat 32 (i.payload.length + 2)
      frameCnt := s.blk.frameCnt + 1
      frmq := s.blk.frmq ++ [{ code := i.code, payload := i.payload }] } }

/-- A valid frame routed to the converter is consumed whole and held in CF with index 0 (R117, R145), for each
of the eight codes. -/
def Obligations.ValidFrameEntersTheConverter : Prop :=
  ∀ (s : State) (i : Instr) (behind : List Byte), AtHead s i behind →
    ckFn s.par.ck (i.code :: i.payload) = i.cksum → s.blk.routesToConv i.code → s.blk.cf = none →
    exec i s = .next { s with blk := { s.blk with
      buf := behind
      pos := s.blk.pos + BitVec.ofNat 32 (i.payload.length + 2)
      frameCnt := s.blk.frameCnt + 1
      cf := some { code := i.code, payload := i.payload, k := 0 } } }

/-- A frame whose checksum byte is wrong loses its first byte and costs one count and the sticky flag, whatever
the route and the room (R115, R120, R227), for each of the eight codes. -/
def Obligations.DamagedFrameLosesItsHeadByte : Prop :=
  ∀ (s : State) (i : Instr) (behind : List Byte), AtHead s i behind →
    ckFn s.par.ck (i.code :: i.payload) ≠ i.cksum →
    exec i s = .next { s with blk := { s.blk with
      buf := i.payload ++ [i.cksum] ++ behind
      pos := s.blk.pos + 1
      corruptCnt := s.blk.corruptCnt + 1
      sticky := { s.blk.sticky with corrupt := true } } }

/-- A valid frame whose destination has no room waits at the head of BUF: nothing changes (R117, R118;
log 9). -/
def Obligations.ValidFrameWaitsForRoom : Prop :=
  ∀ (s : State) (i : Instr) (behind : List Byte), AtHead s i behind →
    ckFn s.par.ck (i.code :: i.payload) = i.cksum →
    (s.blk.routesToFrmq i.code ∧ s.par.frmqDepth ≤ s.blk.frmq.length) ∨
      (s.blk.routesToConv i.code ∧ s.blk.cf ≠ none) →
    exec i s = .next s

/-- Whatever stands in the state (log 8), a frame changes neither the configuration, nor the sample queue and SEQ, nor a
counter or flag other than those of frames and checksum failures, nor the environment (R145, R231). -/
def Obligations.FrameChangesNoConfiguration : Prop :=
  ∀ (i : Instr) (s t : State), exec i s = .next t →
    t.par = s.par ∧ t.env = s.env ∧ t.blk.run = s.blk.run ∧ t.blk.route = s.blk.route ∧
    t.blk.policy = s.blk.policy ∧ t.blk.nch = s.blk.nch ∧ t.blk.lut = s.blk.lut ∧ t.blk.cat = s.blk.cat ∧
    t.blk.smpq = s.blk.smpq ∧ t.blk.seq = s.blk.seq ∧ t.blk.unknownCnt = s.blk.unknownCnt ∧
    t.blk.decerrCnt = s.blk.decerrCnt ∧ t.blk.dropCnt = s.blk.dropCnt ∧
    t.blk.sticky.unknown = s.blk.sticky.unknown ∧ t.blk.sticky.decErr = s.blk.sticky.decErr ∧
    t.blk.sticky.smpDrop = s.blk.sticky.smpDrop ∧ t.blk.sticky.cfgErr = s.blk.sticky.cfgErr

/-- `Welcome`, `ReadDeviceId`, `ReadConfig` and the two write acknowledgements under ROUTE = ALL: the accept
step, then one CONV transition that makes an error record with cause NOT_VALUE (R147, R148, R151, R153, R154,
R173). -/
def Obligations.NonValueFrameUnderAllYieldsAnErrorRecord : Prop :=
  ∀ (s : State) (i : Instr) (p : List Byte) (ck : Byte) (behind : List Byte),
    (i = .welcome p ck ∨ i = .readDeviceId p ck ∨ i = .readConfig p ck ∨
      i = .writeConfigContinuousTx p ck ∨ i = .writeConfigUart p ck) →
    AtHead s i behind → ckFn s.par.ck (i.code :: p) = ck → (s.blk.cat.entry i.code).kind = .nonvalue →
    s.blk.route = .all → s.blk.cf = none → s.blk.smpq.length < s.par.smpqDepth →
    ∃ t, exec i s = .next t ∧ enabled .conv t = true ∧
      fire .conv t = .next { s with blk := { s.blk with
        buf := behind
        pos := s.blk.pos + BitVec.ofNat 32 (p.length + 2)
        frameCnt := s.blk.frameCnt + 1
        decerrCnt := s.blk.decerrCnt + 1
        sticky := { s.blk.sticky with decErr := true }
        seq := s.blk.seq + 1
        smpq := s.blk.smpq ++ [{ seq := s.blk.seq, body := .err .notValue i.code p.length }] } }

/-- `ReadSensors` and `ReadValues` under SPLIT and ALL with the descriptors loaded: the accept step, then one
CONV transition that makes one sample record with `v[j] = r_j * SCALE_j + OFFSET_j` (R149, R150, R176). -/
def Obligations.PerChannelFrameYieldsOneSample : Prop :=
  ∀ (s : State) (i : Instr) (p : List Byte) (ck : Byte) (behind : List Byte),
    (i = .readSensors p ck ∨ i = .readValues p ck) →
    AtHead s i behind → ckFn s.par.ck (i.code :: p) = ck → (s.blk.cat.entry i.code).kind = .perChannel →
    (s.blk.route = .split ∨ s.blk.route = .all) → s.blk.cf = none → s.blk.smpq.length < s.par.smpqDepth →
    1 ≤ s.blk.nch.toNat → p.length = s.blk.nch.toNat * (s.blk.cat.entry i.code).fw →
    s.blk.descriptorsValid →
    ∃ t, exec i s = .next t ∧ enabled .conv t = true ∧
      fire .conv t = .next { s with blk := { s.blk with
        buf := behind
        pos := s.blk.pos + BitVec.ofNat 32 (p.length + 2)
        frameCnt := s.blk.frameCnt + 1
        seq := s.blk.seq + 1
        smpq := s.blk.smpq ++
          [{ seq := s.blk.seq, body := .smp i.code 0 s.blk.nch.toNat (s.values i.code p 0) }] } }

/-- `ReadAdcBuffer` under SPLIT and ALL with the descriptors loaded: the accept step, then `K` CONV turns that
make `K = LEN / (NCH * FW)` sample records with indices 0 to K-1 and consecutive sequence numbers, in this
order (R152, R176, R177). -/
def Obligations.BatchFrameYieldsItsSamplesInOrder : Prop :=
  ∀ (s : State) (p : List Byte) (ck : Byte) (behind : List Byte) (K : Nat) (rest : List Agent),
    AtHead s (.readAdcBuffer p ck) behind → ckFn s.par.ck (0x06 :: p) = ck →
    (s.blk.cat.entry 0x06).kind = .batch → (s.blk.route = .split ∨ s.blk.route = .all) → s.blk.cf = none →
    1 ≤ s.blk.nch.toNat → 1 ≤ K → p.length = K * (s.blk.nch.toNat * (s.blk.cat.entry 0x06).fw) →
    s.blk.descriptorsValid → s.blk.smpq.length + K ≤ s.par.smpqDepth →
    s.env.turns = List.replicate K .conv ++ rest →
    ∃ t, exec (.readAdcBuffer p ck) s = .next t ∧
      runsTo K t { s with
        blk := { s.blk with
          buf := behind
          pos := s.blk.pos + BitVec.ofNat 32 (p.length + 2)
          frameCnt := s.blk.frameCnt + 1
          seq := s.blk.seq + BitVec.ofNat 64 K
          smpq := s.blk.smpq ++ (List.range K).map fun k =>
            { seq := s.blk.seq + BitVec.ofNat 64 k, body := .smp 0x06 k s.blk.nch.toNat (s.values 0x06 p k) } }
        env := { s.env with turns := rest } }

/-! ## The scan -/

/-- The SCAN transition, which runs by decoding, is the one that R115 and R117 define by the scan outcome: when it
is enabled, and what it does: nothing while it waits, the event and one byte for UNKNOWN and BADCK, the whole
frame for FRAME with room. -/
def Obligations.ScanFollowsTheOutcome : Prop :=
  ∀ s : State,
    (enabled .scan s = true ↔
      (∃ c, scanOutcome s.par.ck s.blk.cat s.blk.buf = .unknown c) ∨
      (∃ c, scanOutcome s.par.ck s.blk.cat s.blk.buf = .badck c) ∨
      (∃ c p, scanOutcome s.par.ck s.blk.cat s.blk.buf = .frame c p ∧
        ((s.blk.routesToFrmq c ∧ s.blk.frmq.length < s.par.frmqDepth) ∨
          (s.blk.routesToConv c ∧ s.blk.cf = none)))) ∧
    fire .scan s = .next (
    match scanOutcome s.par.ck s.blk.cat s.blk.buf with
    | .waitEmpty => s
    | .waitMore => s
    | .unknown _ => { s with blk := { s.blk with
        buf := s.blk.buf.drop 1
        pos := s.blk.pos + 1
        unknownCnt := s.blk.unknownCnt + 1
        sticky := { s.blk.sticky with unknown := true } } }
    | .badck _ => { s with blk := { s.blk with
        buf := s.blk.buf.drop 1
        pos := s.blk.pos + 1
        corruptCnt := s.blk.corruptCnt + 1
        sticky := { s.blk.sticky with corrupt := true } } }
    | .frame c p =>
      if s.blk.route = .bypass ∨ (s.blk.route = .split ∧ (s.blk.cat.entry c).kind = .nonvalue) then
        if s.blk.frmq.length < s.par.frmqDepth then
          { s with blk := { s.blk with
            buf := s.blk.buf.drop (p.length + 2)
            pos := s.blk.pos + BitVec.ofNat 32 (p.length + 2)
            frameCnt := s.blk.frameCnt + 1
            frmq := s.blk.frmq ++ [{ code := c, payload := p }] } }
        else s
      else if s.blk.cf = none then
          { s with blk := { s.blk with
            buf := s.blk.buf.drop (p.length + 2)
            pos := s.blk.pos + BitVec.ofNat 32 (p.length + 2)
            frameCnt := s.blk.frameCnt + 1
            cf := some { code := c, payload := p, k := 0 } } }
        else s)

/-- Once the scan need not wait, bytes that arrive later change nothing of its decision: the reason R73 gives
for scan determinism. -/
def Obligations.LaterBytesChangeNoDecision : Prop :=
  ∀ (ck : Checksum) (cat : Catalog) (bytes later : List Byte),
    (scanOutcome ck cat bytes).waiting = false →
    scanOutcome ck cat (bytes ++ later) = scanOutcome ck cat bytes

/-- No deadlock inside the scan (R121): a full BUF is never an incomplete candidate, so SCAN is enabled unless a
validated frame has no room; then FRM_POP is enabled, or the converter holds a frame and CONV waits for
nothing but, under BLOCK, room in SMPQ. -/
def Obligations.FullBufferIsNeverIncomplete : Prop :=
  ∀ s : State, Inv s → s.blk.buf.length = s.par.bufCap →
    (s.blk.outcome s.par).waiting = false ∧
    (enabled .scan s = true ∨
      ∃ c p, s.blk.outcome s.par = .frame c p ∧
        ((s.blk.routesToFrmq c ∧ s.blk.frmq.length = s.par.frmqDepth ∧ enabled (.host .frmPop) s = true) ∨
         (s.blk.routesToConv c ∧ s.blk.cf ≠ none ∧
           (enabled .conv s = true ∨ (s.blk.policy = .block ∧ s.blk.smpq.length = s.par.smpqDepth)))))

/-- A byte string that is a sequence of valid frames is scanned into exactly these frames, in order, with no
reject step and nothing left over (R122), whatever the checksum function and the catalog. So over every run in
which these bytes are all that BUF holds and the source offers, and in which the host only reads and pops, the
block counts exactly these frames, neither CORRUPT_CNT nor UNKNOWN_CNT moves (DECERR_CNT may: R122 speaks of the
scan), and BUF ends empty. -/
def Obligations.InSyncStreamYieldsItsFrames : Prop :=
  (∀ (ck : Checksum) (cat : Catalog) (pos : Word) (fs : List FrameRec),
    (∀ f ∈ fs, f.described cat) →
    (scanAll ck cat pos (fs.flatMap fun f => senderFrame ck f.code f.payload)).1.map Prod.snd =
      fs.map (fun f => ScanOutcome.frame f.code f.payload) ∧
    (scanAll ck cat pos (fs.flatMap fun f => senderFrame ck f.code f.payload)).2 = []) ∧
  (∀ (n : Nat) (s s' : State) (fs : List FrameRec), (∀ f ∈ fs, f.described s.blk.cat) →
    s.blk.buf ++ s.env.src = fs.flatMap (fun f => senderFrame s.par.ck f.code f.payload) →
    runsTo n s s' → (∀ op ∈ s.env.ops, op.harmless = true) →
    s'.env.src = [] → (s'.blk.outcome s'.par).waiting = true →
    s'.blk.buf = [] ∧ s'.blk.frameCnt = s.blk.frameCnt + BitVec.ofNat 32 fs.length ∧
    s'.blk.corruptCnt = s.blk.corruptCnt ∧ s'.blk.unknownCnt = s.blk.unknownCnt)

/-- Resynchronisation (R123): where no byte of a gap begins a candidate that passes or is incomplete, the scan
emits exactly the frames of the stream, in order, rejects every gap byte by one step, and goes on with the
tail. -/
def Obligations.CleanGapsResynchronise : Prop :=
  ∀ (ck : Checksum) (cat : Catalog) (pos : Word) (items : List (List Byte × FrameRec)) (tail : List Byte),
    cleanStream ck cat items tail →
    ∃ (steps : List (Word × ScanOutcome)) (pos' : Word),
      scanAll ck cat pos (gapStream ck items tail) =
        (steps ++ (scanAll ck cat pos' tail).1, (scanAll ck cat pos' tail).2) ∧
      framesOf steps = items.map Prod.snd ∧
      unknownsOf steps + badcksOf steps = (items.map fun it => it.1.length).sum

/-- Scan determinism (R73): over any run in which the host neither writes nor resets, once every byte offered
has been taken and the scan waits, BUF and the increments of POS and of the three scan counters are those of
the pure scan of the bytes: however the agents were interleaved. -/
def Obligations.ScanIsIndependentOfInterleaving : Prop :=
  ∀ (n : Nat) (s s' : State), runsTo n s s' → (∀ op ∈ s.env.ops, op.harmless = true) →
    s'.env.src = [] → (s'.blk.outcome s'.par).waiting = true →
    s'.blk.buf = s.scanAhead.2 ∧
    s'.blk.pos = s.blk.pos +
      BitVec.ofNat 32 (s.blk.buf.length + s.env.src.length - s.scanAhead.2.length) ∧
    s'.blk.corruptCnt = s.blk.corruptCnt + BitVec.ofNat 32 (badcksOf s.scanAhead.1) ∧
    s'.blk.unknownCnt = s.blk.unknownCnt + BitVec.ofNat 32 (unknownsOf s.scanAhead.1) ∧
    s'.blk.frameCnt = s.blk.frameCnt + BitVec.ofNat 32 (framesOf s.scanAhead.1).length

/-- Polling (R71 (a) to (c), ROUTE = BYPASS): over such a run the frames the host has popped and those still
queued are exactly the validated frames of the stream, in stream order, behind the earlier ones. -/
def Obligations.PolledFramesKeepStreamOrder : Prop :=
  ∀ (n : Nat) (s s' : State), runsTo n s s' → (∀ op ∈ s.env.ops, op.harmless = true) →
    s.blk.route = .bypass → s'.env.src = [] → (s'.blk.outcome s'.par).waiting = true →
    s'.env.frames ++ s'.blk.frmq = s.env.frames ++ s.blk.frmq ++ framesOf s.scanAhead.1

/-! ## The checksum -/

/-- The frame a sender must send is a valid frame at the head of any byte string (R131, R139). -/
def Obligations.SenderFrameIsValid : Prop :=
  ∀ (ck : Checksum) (cat : Catalog) (c : Byte) (p behind : List Byte),
    (cat.entry c).known = true → p.length = (cat.entry c).len.toNat →
    scanOutcome ck cat (senderFrame ck c p ++ behind) = .frame c p

/-- The worked vectors of R140, row by row: bytes, SUM8, XOR8, CRC8 with the default parameters. -/
def Obligations.ChecksumVectorTable : Prop :=
  ∀ row ∈ ([([], 0x00, 0x00, 0x00), ([0x00], 0x00, 0x00, 0x00), ([0x01], 0x01, 0x01, 0x07),
      ([0xFF], 0xFF, 0xFF, 0xF3), ([0xFF, 0x01], 0x00, 0xFE, 0xD0), ([0x80, 0x80], 0x00, 0x00, 0x3F),
      ([0x08], 0x08, 0x08, 0x38), ([0x07, 0x01], 0x08, 0x06, 0x6C), ([0x04, 0x12, 0x34], 0x4A, 0x22, 0x5A),
      ([0x03, 0x0A, 0x00, 0x14, 0x00], 0x21, 0x1D, 0x39), ([0x01, 0xDE, 0xAD, 0xBE, 0xEF], 0x39, 0x23, 0xA8),
      ([0x31, 0x32, 0x33, 0x34, 0x35, 0x36, 0x37, 0x38, 0x39], 0xDD, 0x31, 0xF4)] :
      List (List Byte × Byte × Byte × Byte)),
    ckFn .sum8 row.1 = row.2.1 ∧ ckFn .xor8 row.1 = row.2.2.1 ∧
      ckFn (.crc8 Config.crcPoly Config.crcInit) row.1 = row.2.2.2

/-- Under SUM8, XOR8 and CRC8 with the default polynomial, whatever CRC_INIT is, a valid frame of which exactly one
byte, of the payload or the checksum byte, is replaced by another value fails (R136). -/
def Obligations.SingleByteErrorIsDetected : Prop :=
  ∀ ck : Checksum, (ck = .sum8 ∨ ck = .xor8 ∨ ∃ init, ck = .crc8 Config.crcPoly init) →
    ∀ (cat : Catalog) (c x y : Byte) (before after behind p : List Byte), x ≠ y →
      (before ++ x :: after).length = (cat.entry c).len.toNat + 1 →
      scanOutcome ck cat (c :: (before ++ x :: after ++ behind)) = .frame c p →
      scanOutcome ck cat (c :: (before ++ y :: after ++ behind)) = .badck c

/-- SUM8 and XOR8 accept any reordering of the bytes they cover (R137, R132, R133). -/
def Obligations.SumAndXorIgnoreOrder : Prop :=
  ∀ s t : List Byte, s.Perm t → ckFn .sum8 s = ckFn .sum8 t ∧ ckFn .xor8 s = ckFn .xor8 t

/-- Degenerate valid frames (R138): under the three instances with their defaults a run of `n + 2` zeros is a valid
frame of a known code `0x00` of length `n`; under SUM8 and XOR8 two equal bytes are a valid frame of a known
code of length 0; under CRC8 such a code is its own checksum for exactly `0x00` and `0xFD`, and
`WriteConfigUart` is `08 38`. -/
def Obligations.DegenerateChecksums : Prop :=
  (∀ (ck : Checksum) (cat : Catalog) (behind : List Byte),
    (ck = .sum8 ∨ ck = .xor8 ∨ ck = .crc8 Config.crcPoly Config.crcInit) → (cat.entry 0x00).known = true →
    scanOutcome ck cat (List.replicate ((cat.entry 0x00).len.toNat + 2) 0 ++ behind) =
      .frame 0x00 (List.replicate (cat.entry 0x00).len.toNat 0)) ∧
  (∀ (ck : Checksum) (cat : Catalog) (c : Byte) (behind : List Byte), (ck = .sum8 ∨ ck = .xor8) →
    (cat.entry c).known = true → (cat.entry c).len = 0 → scanOutcome ck cat (c :: c :: behind) = .frame c []) ∧
  (∀ c : Byte, ckFn (.crc8 Config.crcPoly Config.crcInit) [c] = c ↔ c = 0x00 ∨ c = 0xFD) ∧
  senderFrame .sum8 0x08 [] = [0x08, 0x08] ∧ senderFrame .xor8 0x08 [] = [0x08, 0x08] ∧
  senderFrame (.crc8 Config.crcPoly Config.crcInit) 0x08 [] = [0x08, 0x38]

/-! ## The converter -/

/-- `MemRead` in both byte orders, wherever the rules may call it (R14, R63); the order is LITTLE by default, is
fixed for an instance, and does not matter for one byte. -/
def Obligations.MemReadAssemblesBytes : Prop :=
  (∀ (p : List Byte) (off n : Nat), off + n ≤ p.length →
    memRead .little p off n = ∑ j ∈ Finset.range n, 256 ^ j * (p.getD (off + j) 0).toNat ∧
    memRead .big p off n = ∑ j ∈ Finset.range n, 256 ^ (n - 1 - j) * (p.getD (off + j) 0).toNat) ∧
  (∀ (p : List Byte) (off : Nat), memRead .little p off 1 = memRead .big p off 1) ∧
  Params.default.fieldOrder = .little ∧
  (∀ s s' : State, step s = .next s' → s'.par.fieldOrder = s.par.fieldOrder)

/-- The integer of a raw field (R95, R162): the field's bits, at offset `(k * NCH + j) * FW` and FW bytes wide, read
as unsigned (SG = 0) or as two's complement (SG = 1), so in `-2^31 .. 2^32 - 1`; and the converter reads only
inside the payload. -/
def Obligations.RawFieldIsExtended : Prop :=
  (∀ (order : FieldOrder) (nch : Nat) (e : CatEntry) (p : List Byte) (k j : Nat),
    raw order nch e p k j =
      (if e.sg then (BitVec.ofNat (8 * e.fw) (memRead order p ((k * nch + j) * e.fw) e.fw)).toInt
      else ((BitVec.ofNat (8 * e.fw) (memRead order p ((k * nch + j) * e.fw) e.fw)).toNat : Int)) ∧
    -2 ^ 31 ≤ raw order nch e p k j ∧ raw order nch e p k j ≤ 2 ^ 32 - 1) ∧
  (∀ (s : State) (f : ConvFrame), Inv s → s.blk.cf = some f → s.blk.convCause f = none →
    ∀ j < s.blk.nch.toNat,
      (f.k * s.blk.nch.toNat + j) * (s.blk.cat.entry f.code).fw + (s.blk.cat.entry f.code).fw ≤ f.payload.length)

/-- No conversion result leaves the range of R168, so each fits a signed 64-bit word. -/
def Obligations.ConversionFitsSixtyFourBits : Prop :=
  ∀ (order : FieldOrder) (nch : Nat) (lut : Lut) (e : CatEntry) (p : List Byte) (k : Nat),
    ∀ v ∈ sampleValues order nch lut e p k,
      -2 ^ 63 ≤ v ∧ v ≤ 2 ^ 63 - 2 ^ 32 ∧ (BitVec.ofInt 64 v).toInt = v

/-- The table of extreme operands (R180): FW = 4, one channel; the last column is the result as a 64-bit word. -/
def Obligations.ExtremeOperandTable : Prop :=
  ∀ row ∈ ([(false, [0xFF, 0xFF, 0xFF, 0xFF], 4294967295, 0x80000000, 0x80000000, -9223372036854775808,
        0x8000000000000000),
      (false, [0xFF, 0xFF, 0xFF, 0xFF], 4294967295, 0x7FFFFFFF, 0x7FFFFFFF, 9223372032559808512,
        0x7FFFFFFF00000000),
      (true, [0x00, 0x00, 0x00, 0x80], -2147483648, 0x80000000, 0x7FFFFFFF, 4611686020574871551,
        0x400000007FFFFFFF),
      (true, [0xFF, 0xFF, 0xFF, 0xFF], -1, 0x00010000, 0x00000000, -65536, 0xFFFFFFFFFFFF0000),
      (false, [0x00, 0x00, 0x00, 0x00], 0, 0x7FFFFFFF, 0x80000000, -2147483648, 0xFFFFFFFF80000000)] :
      List (Bool × List Byte × Int × Word × Word × Int × BitVec 64)),
    ∀ e : CatEntry, e.kind = .perChannel → e.fwm1 = 3 → e.sg = row.1 →
      raw .little 1 e row.2.1 0 0 = row.2.2.1 ∧
      sampleValues .little 1
        (Vector.replicate 16 { valid := true, qty := 0, scale := row.2.2.2.1, offset := row.2.2.2.2.1 })
        e row.2.1 0 = [row.2.2.2.2.2.1] ∧
      BitVec.ofInt 64 row.2.2.2.2.2.1 = row.2.2.2.2.2.2

/-- What CONV does at index 0 for the three causes of DecodeError, in their order (R173, R174, R175, R220, R228): the
counter, the flag, one error record with the number of the cause in its cause field (R98, R218) pushed, CF emptied;
nothing is converted. No cause has another number than 1, 2 or 3 (R218). -/
def Obligations.ConvertErrorCauses : Prop :=
  (∀ cause : Cause, 1 ≤ cause.code ∧ cause.code ≤ 3) ∧
  ∀ (s : State) (f : ConvFrame) (cause : Cause), s.blk.cf = some f → f.k = 0 → enabled .conv s = true →
    (cause.code = 1 ∧ (s.blk.cat.entry f.code).kind = .nonvalue) ∨
    (cause.code = 2 ∧
      (((s.blk.cat.entry f.code).kind = .perChannel ∧
          f.payload.length ≠ s.blk.nch.toNat * (s.blk.cat.entry f.code).fw) ∨
       ((s.blk.cat.entry f.code).kind = .batch ∧
          (f.payload.length = 0 ∨ f.payload.length % (s.blk.nch.toNat * (s.blk.cat.entry f.code).fw) ≠ 0)))) ∨
    (cause.code = 3 ∧
      (((s.blk.cat.entry f.code).kind = .perChannel ∧
          f.payload.length = s.blk.nch.toNat * (s.blk.cat.entry f.code).fw) ∨
       ((s.blk.cat.entry f.code).kind = .batch ∧ f.payload.length ≠ 0 ∧
          f.payload.length % (s.blk.nch.toNat * (s.blk.cat.entry f.code).fw) = 0)) ∧
      ∃ j < s.blk.nch.toNat, (lutAt s.blk.lut j).valid = false) →
    fire .conv s = .next { s with blk :=
      { Block.smpPush s.par (.err cause f.code f.payload.length)
          { s.blk with
            decerrCnt := s.blk.decerrCnt + 1
            sticky := { s.blk.sticky with decErr := true } } with
        cf := none } }

/-- When CONV is enabled: CF is not empty and SMPQ has room or may drop (R172). -/
def Obligations.ConvertWaitsOnlyForRoom : Prop :=
  ∀ s : State, enabled .conv s = true ↔
    s.blk.cf ≠ none ∧ (s.blk.smpq.length < s.par.smpqDepth ∨ s.blk.policy = .dropOldest)

/-- The sample case of CONV (R176, R172), at any index: at index 0 the frame is value-bearing, its length matches
and the descriptors are loaded; later nothing is tested. One sample record is pushed, and CF goes to the next
index, or is emptied after the last. -/
def Obligations.ConvertPushesOneSample : Prop :=
  ∀ (s : State) (f : ConvFrame), s.blk.cf = some f → enabled .conv s = true →
    (f.k = 0 →
      (((s.blk.cat.entry f.code).kind = .perChannel ∧
          f.payload.length = s.blk.nch.toNat * (s.blk.cat.entry f.code).fw) ∨
       ((s.blk.cat.entry f.code).kind = .batch ∧ f.payload.length ≠ 0 ∧
          f.payload.length % (s.blk.nch.toNat * (s.blk.cat.entry f.code).fw) = 0)) ∧
      s.blk.descriptorsValid) →
    fire .conv s = .next { s with blk :=
      { Block.smpPush s.par (.smp f.code f.k s.blk.nch.toNat (s.values f.code f.payload f.k)) s.blk with
        cf := if f.k + 1 = f.payload.length / (s.blk.nch.toNat * (s.blk.cat.entry f.code).fw) then none
          else some { f with k := f.k + 1 } } }

/-- `smp_push` (R178, R229): the record takes the number SEQ, SEQ moves on, and a full queue loses its oldest
record first, which DROP_CNT and STATUS.SMP_DROP record; CONV pushes on a full queue only under DROP_OLDEST. -/
def Obligations.PushNumbersAndDropsOldest : Prop :=
  (∀ (par : Params) (r : RecordBody) (b : Block),
    b.smpPush par r =
      if b.smpq.length = par.smpqDepth then
        { b with
          smpq := b.smpq.drop 1 ++ [{ seq := b.seq, body := r }]
          seq := b.seq + 1
          dropCnt := b.dropCnt + 1
          sticky := { b.sticky with smpDrop := true } }
      else { b with smpq := b.smpq ++ [{ seq := b.seq, body := r }], seq := b.seq + 1 }) ∧
  (∀ s : State, enabled .conv s = true → s.blk.smpq.length = s.par.smpqDepth → s.blk.policy = .dropOldest)

/-! ## Host and sink -/

/-- `RX(b)` (R110, R111): enabled while RUN = 1 and BUF is not full; the byte goes to the tail of BUF and nothing
else of the block changes. -/
def Obligations.ByteIntakeAppends : Prop :=
  ∀ (s : State) (x : Byte),
    (enabled (.rx x) s = true ↔ s.blk.run = true ∧ s.blk.buf.length < s.par.bufCap) ∧
    fire (.rx x) s = .next { s with blk := { s.blk with buf := s.blk.buf ++ [x] } }

/-- `FRM_POP` and `SMP_POP` (R205, R206): enabled while their queue is not empty; the head leaves the queue and is
returned; nothing else changes. -/
def Obligations.PopsReturnTheHead : Prop :=
  (∀ s : State, (enabled (.host .frmPop) s = true ↔ s.blk.frmq ≠ []) ∧
    (enabled .smpPop s = true ↔ s.blk.smpq ≠ [])) ∧
  (∀ (s : State) (r : FrameRec) (rest : List FrameRec), s.blk.frmq = r :: rest →
    fire (.host .frmPop) s =
      .next { s with blk := { s.blk with frmq := rest }, env := { s.env with frames := s.env.frames ++ [r] } }) ∧
  (∀ (s : State) (r : Record) (rest : List Record), s.blk.smpq = r :: rest →
    fire .smpPop s =
      .next { s with blk := { s.blk with smpq := rest }, env := { s.env with records := s.env.records ++ [r] } })

/-- `CFG_READ` (R185, R69): never stalled, changes nothing of the block, and returns the word of the table, here
field by field. -/
def Obligations.ConfigReadWords : Prop :=
  ∀ s : State, s.blk.buf.length < 512 → s.blk.frmq.length < 256 → s.blk.smpq.length < 256 → s.par.nchMax ≤ 16 →
    (∀ i, enabled (.host (.cfgRead i)) s = true ∧
      fire (.host (.cfgRead i)) s =
        .next { s with env := { s.env with words := s.env.words ++ [s.blk.cfgRead s.par i] } }) ∧
    (s.blk.cfgRead s.par 0x000).toNat =
      s.blk.run.toNat + 2 * (match s.blk.route with | .bypass => 0 | .split => 1 | .all => 2) +
        8 * (match s.blk.policy with | .dropOldest => 0 | .block => 1) ∧
    (s.blk.cfgRead s.par 0x001).toNat =
      (s.blk.idle s.par).toNat + 2 * (decide (0 < s.blk.frmq.length)).toNat +
        4 * (decide (0 < s.blk.smpq.length)).toNat + 8 * (decide (s.blk.cf ≠ none)).toNat +
        16 * (s.blk.rxReady s.par).toNat + 256 * s.blk.sticky.corrupt.toNat +
        512 * s.blk.sticky.unknown.toNat + 1024 * s.blk.sticky.decErr.toNat +
        2048 * s.blk.sticky.smpDrop.toNat + 4096 * s.blk.sticky.cfgErr.toNat ∧
    (s.blk.cfgRead s.par 0x002).toNat = s.blk.nch.toNat ∧
    (s.blk.cfgRead s.par 0x003).toNat =
      s.blk.buf.length + 2 ^ 16 * s.blk.frmq.length + 2 ^ 24 * s.blk.smpq.length ∧
    s.blk.cfgRead s.par 0x004 = s.blk.corruptCnt ∧ s.blk.cfgRead s.par 0x005 = s.blk.unknownCnt ∧
    s.blk.cfgRead s.par 0x006 = s.blk.decerrCnt ∧ s.blk.cfgRead s.par 0x007 = s.blk.dropCnt ∧
    s.blk.cfgRead s.par 0x008 = s.blk.frameCnt ∧ s.blk.cfgRead s.par 0x009 = s.blk.pos ∧
    (∀ c : Fin 16, c.val < s.par.nchMax →
      s.blk.cfgRead s.par (BitVec.ofNat 16 (0x040 + 4 * c.val)) = s.blk.lut[c].scale ∧
      s.blk.cfgRead s.par (BitVec.ofNat 16 (0x040 + 4 * c.val + 1)) = s.blk.lut[c].offset ∧
      (s.blk.cfgRead s.par (BitVec.ofNat 16 (0x040 + 4 * c.val + 2))).toNat =
        s.blk.lut[c].valid.toNat + 2 * s.blk.lut[c].qty.toNat) ∧
    (∀ code : Byte,
      (s.blk.cfgRead s.par (BitVec.ofNat 16 (0x100 + code.toNat))).toNat =
        2 ^ 31 * (s.blk.cat.entry code).known.toNat +
        2 ^ 16 * (match (s.blk.cat.entry code).kind with | .nonvalue => 0 | .perChannel => 1 | .batch => 2) +
        2 ^ 12 * (s.blk.cat.entry code).sg.toNat + 2 ^ 8 * (s.blk.cat.entry code).fwm1.toNat +
        (s.blk.cat.entry code).len.toNat) ∧
    (∀ i : CfgIndex, unmappedIndex s.par i.toNat → s.blk.cfgRead s.par i = 0)

/-- A write to a read-only or unmapped word stores nothing and sets CFG_ERR (R203). -/
def Obligations.ReadOnlyAndUnmappedWritesAreRefused : Prop :=
  ∀ (s : State) (i : CfgIndex) (w : Word), (readOnlyIndex i.toNat ∨ unmappedIndex s.par i.toNat) →
    fire (.host (.cfgWrite i w)) s =
      .next { s with blk := { s.blk with sticky := { s.blk.sticky with cfgErr := true } } }

/-- The CTRL write without FLUSH (R188, R189, R190): RUN is always taken; a change of ROUTE or POLICY is taken
whole when unlocked and not reserved, and otherwise refused whole; repeating both is never refused. -/
def Obligations.ControlWriteInThreeParts : Prop :=
  ∀ (s : State) (w : Word), w.getLsbD 4 = false →
    ((w.extractLsb' 1 2 = s.blk.route.bits ∧ w.getLsbD 3 = s.blk.policy.bit) →
      fire (.host (.cfgWrite 0x000 w)) s = .next { s with blk := { s.blk with run := w.getLsbD 0 } }) ∧
    (∀ r : Route, (w.extractLsb' 1 2 ≠ s.blk.route.bits ∨ w.getLsbD 3 ≠ s.blk.policy.bit) →
      w.extractLsb' 1 2 = r.bits → s.blk.unlocked s.par = true →
      fire (.host (.cfgWrite 0x000 w)) s = .next { s with blk := { s.blk with
        run := w.getLsbD 0
        route := r
        policy := if w.getLsbD 3 then .block else .dropOldest } }) ∧
    ((w.extractLsb' 1 2 ≠ s.blk.route.bits ∨ w.getLsbD 3 ≠ s.blk.policy.bit) →
      (s.blk.unlocked s.par = false ∨ w.extractLsb' 1 2 = 3) →
      fire (.host (.cfgWrite 0x000 w)) s = .next { s with blk := { s.blk with
        run := w.getLsbD 0
        sticky := { s.blk.sticky with cfgErr := true } } })

/-- The CTRL write with FLUSH (R188, R191, R30): what the same write does without it, then the bytes, the frame
in CF and both queues are discarded and POS moves past the bytes; everything else is kept, and IDLE is 1. -/
def Obligations.FlushDiscardsWhatIsInside : Prop :=
  ∀ (s t : State) (w : Word), w.getLsbD 4 = true →
    fire (.host (.cfgWrite 0x000 (w &&& 0xFFFFFFEF))) s = .next t →
    ∃ u, fire (.host (.cfgWrite 0x000 w)) s = .next u ∧
      u = { t with blk := { t.blk with
        pos := s.blk.pos + BitVec.ofNat 32 s.blk.buf.length
        buf := []
        cf := none
        frmq := []
        smpq := [] } } ∧
      t.blk.seq = s.blk.seq ∧ u.blk.idle u.par = true

/-- The STATUS write (R192): the flags whose bits are 1 are cleared, all else stays, nothing is refused. -/
def Obligations.StatusWriteClearsNamedFlags : Prop :=
  ∀ (s : State) (w : Word), ∃ t, fire (.host (.cfgWrite 0x001 w)) s = .next t ∧
    t = { s with blk := { s.blk with sticky := t.blk.sticky } } ∧
    t.blk.cfgRead s.par 0x001 = s.blk.cfgRead s.par 0x001 &&& ~~~(w &&& 0x00001F00)

/-- The NCH write (R193). -/
def Obligations.ChannelCountWrite : Prop :=
  ∀ (s : State) (w : Word),
    fire (.host (.cfgWrite 0x002 w)) s =
      if s.blk.unlocked s.par = true ∧ 1 ≤ (w.extractLsb' 0 5).toNat ∧ (w.extractLsb' 0 5).toNat ≤ s.par.nchMax then
        .next { s with blk := { s.blk with nch := w.extractLsb' 0 5 } }
      else .next { s with blk := { s.blk with sticky := { s.blk.sticky with cfgErr := true } } }

/-- The three LUT writes of an entry (R195): unlocked, the word is stored (reserved bits of META ignored), reads
back, and no other entry and no other word of the entry changes; locked, the write is refused. -/
def Obligations.DescriptorWriteReadsBack : Prop :=
  ∀ (s : State) (c : Fin 16) (w : Word), c.val < s.par.nchMax → ∀ (f : Fin 3), ∃ t,
    fire (.host (.cfgWrite (BitVec.ofNat 16 (0x040 + 4 * c.val + f.val)) w)) s = .next t ∧
    (s.blk.unlocked s.par = true →
      t = { s with blk := { s.blk with lut := t.blk.lut } } ∧
      (∀ d : Fin 16, d ≠ c → t.blk.lut[d] = s.blk.lut[d]) ∧
      t.blk.lut[c] =
        (match f.val with
        | 0 => { s.blk.lut[c] with scale := w }
        | 1 => { s.blk.lut[c] with offset := w }
        | _ => { s.blk.lut[c] with valid := w.getLsbD 0, qty := w.extractLsb' 1 2 }) ∧
      t.blk.cfgRead s.par (BitVec.ofNat 16 (0x040 + 4 * c.val + f.val)) =
        if f.val = 2 then w &&& 7 else w) ∧
    (s.blk.unlocked s.par = false →
      t = { s with blk := { s.blk with sticky := { s.blk.sticky with cfgErr := true } } })

/-- The CAT write (R196): unlocked and legal, every field of the entry is stored, no other entry changes, and the
word reads back less its reserved bits; otherwise the write is refused. -/
def Obligations.CatalogWriteReadsBack : Prop :=
  ∀ (s : State) (code : Byte) (w : Word), ∃ t,
    fire (.host (.cfgWrite (BitVec.ofNat 16 (0x100 + code.toNat)) w)) s = .next t ∧
    (s.blk.unlocked s.par = true ∧ w.extractLsb' 16 2 ≠ 3 ∧ (w.extractLsb' 0 8).toNat ≤ s.par.lenMax →
      t = { s with blk := { s.blk with cat := t.blk.cat } } ∧
      (∀ d : Byte, d ≠ code → t.blk.cat.entry d = s.blk.cat.entry d) ∧
      (t.blk.cat.entry code).known = w.getLsbD 31 ∧ (t.blk.cat.entry code).sg = w.getLsbD 12 ∧
      (t.blk.cat.entry code).fwm1 = w.extractLsb' 8 2 ∧ (t.blk.cat.entry code).len = w.extractLsb' 0 8 ∧
      t.blk.cfgRead s.par (BitVec.ofNat 16 (0x100 + code.toNat)) = w &&& 0x800313FF) ∧
    (¬ (s.blk.unlocked s.par = true ∧ w.extractLsb' 16 2 ≠ 3 ∧ (w.extractLsb' 0 8).toNat ≤ s.par.lenMax) →
      t = { s with blk := { s.blk with sticky := { s.blk.sticky with cfgErr := true } } })

/-- CFG_ERR becomes set by exactly the refused writes that R204 lists. -/
def Obligations.OnlyRefusedWritesSetConfigError : Prop :=
  ∀ (t : Transition) (s s' : State), fire t s = .next s' → s.blk.sticky.cfgErr = false →
    (s'.blk.sticky.cfgErr = true ↔ ∃ i w, t = .host (.cfgWrite i w) ∧ refusedWrite s.par s.blk i w)

/-- The lock (R187): while the block is locked, no transition but RESET changes ROUTE, POLICY, NCH, LUT or
CAT. -/
def Obligations.LockedConfigurationStays : Prop :=
  ∀ (t : Transition) (s s' : State), fire t s = .next s' → s.blk.unlocked s.par = false → t ≠ .host .reset →
    s'.blk.route = s.blk.route ∧ s'.blk.policy = s.blk.policy ∧ s'.blk.nch = s.blk.nch ∧
    s'.blk.lut = s.blk.lut ∧ s'.blk.cat = s.blk.cat

/-- No byte, frame, conversion or pop changes the configuration (R145, R231, R234): only CFG_WRITE and RESET
do. -/
def Obligations.OnlyTheHostConfigures : Prop :=
  ∀ (t : Transition) (s s' : State), fire t s = .next s' →
    (∀ i w, t ≠ .host (.cfgWrite i w)) → t ≠ .host .reset →
    s'.blk.run = s.blk.run ∧ s'.blk.route = s.blk.route ∧ s'.blk.policy = s.blk.policy ∧
    s'.blk.nch = s.blk.nch ∧ s'.blk.lut = s.blk.lut ∧ s'.blk.cat = s.blk.cat

/-- While the block is unlocked no transition of SRC, SCAN or CONV is enabled, and a turn of theirs changes
nothing of the block (R187, R75). -/
def Obligations.UnlockedBlockIsQuiet : Prop :=
  ∀ s : State, s.blk.unlocked s.par = true →
    (∀ x, enabled (.rx x) s = false) ∧ enabled .scan s = false ∧ enabled .conv s = false ∧
    (∀ a rest s', (a = .src ∨ a = .scan ∨ a = .conv) → s.env.turns = a :: rest → step s = .next s' →
      s'.blk = s.blk)

/-! ## Flags, counters, reset, invariants -/

/-- The sticky flags (R31): each is set by its event, whatever it was before; once set it stays set through every
transition but RESET and a STATUS write that names it. -/
def Obligations.StickyFlagsStaySet : Prop :=
  ∀ (t : Transition) (s s' : State), enabled t s = true → fire t s = .next s' → t ≠ .host .reset →
    ((t = .scan ∧ ∃ c, s.blk.outcome s.par = .badck c) → s'.blk.sticky.corrupt = true) ∧
    ((t = .scan ∧ ∃ c, s.blk.outcome s.par = .unknown c) → s'.blk.sticky.unknown = true) ∧
    ((t = .conv ∧ ∃ f cause, s.blk.cf = some f ∧ s.blk.convCause f = some cause) →
      s'.blk.sticky.decErr = true) ∧
    ((t = .conv ∧ s.blk.smpq.length = s.par.smpqDepth) → s'.blk.sticky.smpDrop = true) ∧
    ((∃ i w, t = .host (.cfgWrite i w) ∧ refusedWrite s.par s.blk i w) → s'.blk.sticky.cfgErr = true) ∧
    (s.blk.sticky.corrupt = true → s'.blk.sticky.corrupt = true ∨
      ∃ w, t = .host (.cfgWrite 0x001 w) ∧ w.getLsbD 8 = true) ∧
    (s.blk.sticky.unknown = true → s'.blk.sticky.unknown = true ∨
      ∃ w, t = .host (.cfgWrite 0x001 w) ∧ w.getLsbD 9 = true) ∧
    (s.blk.sticky.decErr = true → s'.blk.sticky.decErr = true ∨
      ∃ w, t = .host (.cfgWrite 0x001 w) ∧ w.getLsbD 10 = true) ∧
    (s.blk.sticky.smpDrop = true → s'.blk.sticky.smpDrop = true ∨
      ∃ w, t = .host (.cfgWrite 0x001 w) ∧ w.getLsbD 11 = true) ∧
    (s.blk.sticky.cfgErr = true → s'.blk.sticky.cfgErr = true ∨
      ∃ w, t = .host (.cfgWrite 0x001 w) ∧ w.getLsbD 12 = true)

/-- Each event counter moves by one with its own event and by nothing else but RESET (R35 to R40): CORRUPT_CNT
with BADCK, UNKNOWN_CNT with UNKNOWN, FRAME_CNT with an accept step, DECERR_CNT with a decode error, DROP_CNT
with a drop. -/
def Obligations.EachCounterCountsItsEvent : Prop :=
  ∀ (t : Transition) (s s' : State), enabled t s = true → fire t s = .next s' → t ≠ .host .reset →
    (s'.blk.corruptCnt = s.blk.corruptCnt + 1 ∧ t = .scan ∧ (∃ c, s.blk.outcome s.par = .badck c) ∨
      s'.blk.corruptCnt = s.blk.corruptCnt ∧ ¬ (t = .scan ∧ ∃ c, s.blk.outcome s.par = .badck c)) ∧
    (s'.blk.unknownCnt = s.blk.unknownCnt + 1 ∧ t = .scan ∧ (∃ c, s.blk.outcome s.par = .unknown c) ∨
      s'.blk.unknownCnt = s.blk.unknownCnt ∧ ¬ (t = .scan ∧ ∃ c, s.blk.outcome s.par = .unknown c)) ∧
    (s'.blk.frameCnt = s.blk.frameCnt + 1 ∧ t = .scan ∧ (∃ c p, s.blk.outcome s.par = .frame c p) ∨
      s'.blk.frameCnt = s.blk.frameCnt ∧ ¬ (t = .scan ∧ ∃ c p, s.blk.outcome s.par = .frame c p)) ∧
    (s'.blk.decerrCnt = s.blk.decerrCnt + 1 ∧ t = .conv ∧
        (∃ f cause, s.blk.cf = some f ∧ s.blk.convCause f = some cause) ∨
      s'.blk.decerrCnt = s.blk.decerrCnt ∧
        ¬ (t = .conv ∧ ∃ f cause, s.blk.cf = some f ∧ s.blk.convCause f = some cause)) ∧
    (s'.blk.dropCnt = s.blk.dropCnt + 1 ∧ t = .conv ∧ s.blk.smpq.length = s.par.smpqDepth ∨
      s'.blk.dropCnt = s.blk.dropCnt ∧ ¬ (t = .conv ∧ s.blk.smpq.length = s.par.smpqDepth))

/-- No byte is lost or made up inside: POS plus the bytes in BUF moves by one with each byte taken in and by
nothing else but RESET (R22, R114, R191). -/
def Obligations.BytesAreConserved : Prop :=
  ∀ (t : Transition) (s s' : State), fire t s = .next s' → t ≠ .host .reset →
    ((∃ x, t = .rx x) → s'.blk.pos + BitVec.ofNat 32 s'.blk.buf.length =
      s.blk.pos + BitVec.ofNat 32 s.blk.buf.length + 1) ∧
    ((∀ x, t ≠ .rx x) → s'.blk.pos + BitVec.ofNat 32 s'.blk.buf.length =
      s.blk.pos + BitVec.ofNat 32 s.blk.buf.length)

/-- RESET (R245, R55): always enabled, every state element takes its reset value, and the words read then are
those R55 states. That it leaves the environment's side of the ports as it is, which the rules do not speak of, is
the model's reading (log 23, DEDUCED). -/
def Obligations.ResetSetsEveryElement : Prop :=
  ∀ s : State, enabled (.host .reset) s = true ∧ ∃ t, fire (.host .reset) s = .next t ∧
    t = { s with blk := {
      buf := [], pos := 0, cf := none, frmq := [], smpq := [], seq := 0,
      run := false, route := .bypass, policy := .dropOldest,
      sticky := { corrupt := false, unknown := false, decErr := false, smpDrop := false, cfgErr := false },
      nch := 1, corruptCnt := 0, unknownCnt := 0, decerrCnt := 0, dropCnt := 0, frameCnt := 0,
      lut := Vector.replicate 16 { valid := false, qty := 0, scale := 0, offset := 0 },
      cat := s.par.catReset } } ∧
    t.blk.cfgRead s.par 0x001 = 0x00000001 ∧ t.blk.cfgRead s.par 0x003 = 0

/-- After reset only the configuration port and RESET are enabled (R248). -/
def Obligations.AfterResetOnlyTheHostCanAct : Prop :=
  ∀ (par : Params) (t : Transition), enabled t (State.boot par) = true ↔
    (∃ i, t = .host (.cfgRead i)) ∨ (∃ i w, t = .host (.cfgWrite i w)) ∨ t = .host .reset

/-- The invariants of R53 hold after reset under any legal parameters, and the default parameters are legal
(R6). -/
def Obligations.ResetMeetsTheInvariants : Prop :=
  Params.default.legal ∧ ∀ par : Params, par.legal → Inv (State.boot par)

/-- Every step keeps the invariants of R53, from every state that meets them; so they hold in every state reached
from reset, under any legal parameters and in any environment. -/
def Obligations.EveryStepKeepsTheInvariants : Prop :=
  (∀ s s' : State, Inv s → step s = .next s' → Inv s') ∧
  ∀ (par : Params) (e : Env) (n : Nat) (s : State), par.legal →
    runsTo n ((State.boot par).setEnv e) s → Inv s

/-- Every step keeps the sample queue in order (R71 (d), R178): its records carry consecutive sequence numbers
ending just before SEQ. It holds after reset. -/
def Obligations.SequenceNumbersStayConsecutive : Prop :=
  (∀ par, (State.boot par).blk.seqConsecutive) ∧
  ∀ s s' : State, s.blk.seqConsecutive → step s = .next s' → s'.blk.seqConsecutive

/-- Every step keeps every queued record legal (R97, R168): a sample record holds NCH values, each a signed
64-bit number. -/
def Obligations.QueuedRecordsStayLegal : Prop :=
  ∀ s s' : State, Inv s → (∀ r ∈ s.blk.smpq, r.body.legal s.par.nchMax) → step s = .next s' →
    ∀ r ∈ s'.blk.smpq, r.body.legal s'.par.nchMax

/-- Weak fairness (R10). With the environment silent the block comes to rest within a bounded number of steps, at a
state in which neither SCAN nor CONV is enabled. In every fair infinite run, however the environment keeps acting, an
enabled one of the two fires in the end, unless the host writes a configuration word or resets; and the machine left
to itself makes a fair run from every state that meets the invariants. That runs are states and steps of this form,
the order in which the two move, and that they move when no turn is prescribed, is the model's (log 3, 18). -/
def Obligations.SilentBlockComesToRest : Prop :=
  (∀ s : State, Inv s → s.env.turns = [] →
    ∃ n s', n ≤ 256 * s.blk.buf.length + 256 ∧ runsTo n s s' ∧
      enabled .scan s' = false ∧ enabled .conv s' = false) ∧
  (∀ (ρ : Nat → State) (τ : Nat → Option Transition), fairRun ρ τ →
    ∀ t, t = .scan ∨ t = .conv → ∀ n, enabled t (ρ n) = true →
      ∃ m, n ≤ m ∧ (τ m = some t ∨ (∃ i w, τ m = some (.host (.cfgWrite i w))) ∨ τ m = some (.host .reset))) ∧
  ∀ ρ : Nat → State, Inv (ρ 0) → (∀ n, step (ρ n) = .next (ρ (n + 1))) → fairRun ρ fun n => pick (ρ n)
end

