-- ==== Sys2Proof/Laws/Decode.lean ====
section
/-! SUPPORT. The catalog as a table, and what the decoder and the encoder can do. -/

namespace Sys2Proof

theorem Catalog.entry_put_self (cat : Catalog) (c : Byte) (e : CatEntry) : (cat.put c e).entry c = e := by
  simp [Catalog.put, Catalog.entry]

theorem Catalog.entry_put_of_ne (cat : Catalog) {c d : Byte} (e : CatEntry) (h : c ≠ d) :
    (cat.put c e).entry d = cat.entry d := by
  have hn : c.toNat ≠ d.toNat := fun hh => h (BitVec.eq_of_toNat_eq hh)
  simp [Catalog.put, Catalog.entry, hn]

@[simp] theorem Instr.ofCode_code (i : Instr) : Instr.ofCode i.code i.payload i.cksum = some i := by
  cases i <;> rfl

/-- The row that a code selects has that code and carries the operands it was given. -/
theorem Instr.ofCode_eq_some {c : Byte} {p : List Byte} {ck : Byte} {i : Instr}
    (h : Instr.ofCode c p ck = some i) : i.code = c ∧ i.payload = p ∧ i.cksum = ck := by
  unfold Instr.ofCode at h
  split at h <;> first | contradiction | skip
  all_goals
    rename_i hc
    obtain rfl := Option.some.inj h
    exact ⟨BitVec.eq_of_toNat_eq (by rw [hc]; rfl), rfl, rfl⟩

@[simp] theorem encode_length (i : Instr) : (encode i).length = i.payload.length + 2 := by
  simp [encode]

theorem Instr.wellFormed_iff (cat : Catalog) (i : Instr) :
    i.wellFormed cat = true ↔
      (cat.entry i.code).known = true ∧ i.payload.length = (cat.entry i.code).len.toNat := by
  simp [Instr.wellFormed]

@[simp] theorem decode_nil (cat : Catalog) : decode cat [] = .error .empty := rfl

theorem decode_unknown (cat : Catalog) (c : Byte) (rest : List Byte)
    (h : (cat.entry c).known = false) : decode cat (c :: rest) = .error (.unknownCode c) := by
  simp [decode, h]

theorem decode_incomplete (cat : Catalog) (c : Byte) (rest : List Byte)
    (h : (cat.entry c).known = true) (hl : rest.length ≤ (cat.entry c).len.toNat) :
    decode cat (c :: rest) = .error (.incomplete c) := by
  simp [decode, h, List.drop_of_length_le hl]

/-- A complete candidate of a known code that has a row is that row's instruction. -/
theorem decode_row (cat : Catalog) (c : Byte) (p : List Byte) (ck : Byte) (behind : List Byte) (i : Instr)
    (h : (cat.entry c).known = true) (hl : p.length = (cat.entry c).len.toNat)
    (ho : Instr.ofCode c p ck = some i) : decode cat (c :: (p ++ ck :: behind)) = .ok (i, behind) := by
  have h1 : (p ++ ck :: behind).drop p.length = ck :: behind := by simp
  have h2 : (p ++ ck :: behind).take p.length = p := by simp
  simp only [decode, h, ← hl, h1, h2, ho, if_true]

/-- A complete candidate of a known code without a row. -/
theorem decode_added (cat : Catalog) (c : Byte) (p : List Byte) (ck : Byte) (behind : List Byte)
    (h : (cat.entry c).known = true) (hl : p.length = (cat.entry c).len.toNat)
    (ho : Instr.ofCode c p ck = none) :
    decode cat (c :: (p ++ ck :: behind)) = .error (.addedCode c p ck) := by
  have h1 : (p ++ ck :: behind).drop p.length = ck :: behind := by simp
  have h2 : (p ++ ck :: behind).take p.length = p := by simp
  simp only [decode, h, ← hl, h1, h2, ho, if_true]

/-- The bytes behind a known code are a payload and a checksum byte, or too few. -/
theorem split_at_length (n : Nat) (rest : List Byte) :
    rest.length ≤ n ∨ ∃ p ck behind, rest = p ++ ck :: behind ∧ p.length = n := by
  rcases Nat.lt_or_ge n rest.length with h | h
  · right
    refine ⟨rest.take n, rest[n], rest.drop (n + 1), ?_, by simp; omega⟩
    rw [List.getElem_cons_drop, List.take_append_drop]
  · exact .inl h

/-- Every byte string is decoded in exactly one of these ways. -/
theorem decode_cases (cat : Catalog) (bytes : List Byte) :
    (bytes = [] ∧ decode cat bytes = .error .empty) ∨
    (∃ c rest, bytes = c :: rest ∧ (cat.entry c).known = false ∧
      decode cat bytes = .error (.unknownCode c)) ∨
    (∃ c rest, bytes = c :: rest ∧ (cat.entry c).known = true ∧
      rest.length ≤ (cat.entry c).len.toNat ∧ decode cat bytes = .error (.incomplete c)) ∨
    (∃ c p ck behind, bytes = c :: (p ++ ck :: behind) ∧ (cat.entry c).known = true ∧
      p.length = (cat.entry c).len.toNat ∧
      ((∃ i, Instr.ofCode c p ck = some i ∧ decode cat bytes = .ok (i, behind)) ∨
       (Instr.ofCode c p ck = none ∧ decode cat bytes = .error (.addedCode c p ck)))) := by
  cases bytes with
  | nil => exact .inl ⟨rfl, rfl⟩
  | cons c rest =>
    cases hk : (cat.entry c).known with
    | false => exact .inr (.inl ⟨c, rest, rfl, hk, decode_unknown cat c rest hk⟩)
    | true =>
      rcases split_at_length (cat.entry c).len.toNat rest with hl | ⟨p, ck, behind, rfl, hp⟩
      · exact .inr (.inr (.inl ⟨c, rest, rfl, hk, hl, decode_incomplete cat c rest hk hl⟩))
      · refine .inr (.inr (.inr ⟨c, p, ck, behind, rfl, hk, hp, ?_⟩))
        cases ho : Instr.ofCode c p ck with
        | none => exact .inr ⟨rfl, decode_added cat c p ck behind hk hp ho⟩
        | some i => exact .inl ⟨i, rfl, decode_row cat c p ck behind i hk hp ho⟩

end Sys2Proof
end

