-- ==== Sys2Proof/Laws/Scan.lean ====
section
/-! SUPPORT. The scan outcome (R113), case by case. -/

namespace Sys2Proof.Machine

open Sys2Proof

@[simp] theorem scanOutcome_nil (ck : Checksum) (cat : Catalog) : scanOutcome ck cat [] = .waitEmpty := rfl

theorem scanOutcome_unknown (ck : Checksum) (cat : Catalog) (c : Byte) (rest : List Byte)
    (h : (cat.entry c).known = false) : scanOutcome ck cat (c :: rest) = .unknown c := by
  simp [scanOutcome, h]

theorem scanOutcome_short (ck : Checksum) (cat : Catalog) (c : Byte) (rest : List Byte)
    (h : (cat.entry c).known = true) (hl : rest.length ≤ (cat.entry c).len.toNat) :
    scanOutcome ck cat (c :: rest) = .waitMore := by
  have : (c :: rest).length < (cat.entry c).len.toNat + 2 := by simp; omega
  simp [scanOutcome, h]; omega

/-- A complete candidate: the checksum byte decides, and what lies behind it does not matter (R113). -/
theorem scanOutcome_complete (ck : Checksum) (cat : Catalog) (c : Byte) (p : List Byte) (k : Byte)
    (behind : List Byte) (h : (cat.entry c).known = true) (hl : p.length = (cat.entry c).len.toNat) :
    scanOutcome ck cat (c :: (p ++ k :: behind)) = if ckFn ck (c :: p) = k then .frame c p else .badck c := by
  have hlen : ¬ ((c :: (p ++ k :: behind)).length < p.length + 2) := by simp
  have hget : (c :: (p ++ k :: behind))[p.length + 1]? = some k := by simp
  have htake : (c :: (p ++ k :: behind)).take (p.length + 1) = c :: p := by simp
  have hdrop : ((c :: (p ++ k :: behind)).drop 1).take p.length = p := by simp
  simp only [scanOutcome, h, ← hl, Nat.reduceSubDiff, hlen, hget, htake, hdrop, if_false, Option.some.injEq,
    Bool.true_eq_false]
  by_cases hk : ckFn ck (c :: p) = k
  · simp [hk]
  · rw [if_neg (fun hh => hk hh.symm), if_neg hk]

/-- The scan outcome of every byte string (R113). -/
theorem scanOutcome_cases (ck : Checksum) (cat : Catalog) (bytes : List Byte) :
    (bytes = [] ∧ scanOutcome ck cat bytes = .waitEmpty) ∨
    (∃ c rest, bytes = c :: rest ∧ (cat.entry c).known = false ∧
      scanOutcome ck cat bytes = .unknown c) ∨
    (∃ c rest, bytes = c :: rest ∧ (cat.entry c).known = true ∧
      rest.length ≤ (cat.entry c).len.toNat ∧ scanOutcome ck cat bytes = .waitMore) ∨
    (∃ c p k behind, bytes = c :: (p ++ k :: behind) ∧ (cat.entry c).known = true ∧
      p.length = (cat.entry c).len.toNat ∧
      ((ckFn ck (c :: p) = k ∧ scanOutcome ck cat bytes = .frame c p) ∨
       (ckFn ck (c :: p) ≠ k ∧ scanOutcome ck cat bytes = .badck c))) := by
  cases bytes with
  | nil => exact .inl ⟨rfl, rfl⟩
  | cons c rest =>
    cases hk : (cat.entry c).known with
    | false => exact .inr (.inl ⟨c, rest, rfl, hk, scanOutcome_unknown ck cat c rest hk⟩)
    | true =>
      rcases split_at_length (cat.entry c).len.toNat rest with hl | ⟨p, k, behind, rfl, hp⟩
      · exact .inr (.inr (.inl ⟨c, rest, rfl, hk, hl, scanOutcome_short ck cat c rest hk hl⟩))
      · refine .inr (.inr (.inr ⟨c, p, k, behind, rfl, hk, hp, ?_⟩))
        have hs := scanOutcome_complete ck cat c p k behind hk hp
        by_cases hc : ckFn ck (c :: p) = k
        · exact .inl ⟨hc, by rw [hs, if_pos hc]⟩
        · exact .inr ⟨hc, by rw [hs, if_neg hc]⟩

end Sys2Proof.Machine
end

