-- ==== Sys2Proof/Laws/State.lean ====
section
/-! SUPPORT. One lemma per field per update of the state, so that no proof unfolds a record update. -/

namespace Sys2Proof.Machine

open Sys2Proof

/-! The two updates of the machine -/

@[simp] theorem State.setBlk_blk (s : State) (b : Block) : (s.setBlk b).blk = b := rfl
@[simp] theorem State.setBlk_par (s : State) (b : Block) : (s.setBlk b).par = s.par := rfl
@[simp] theorem State.setBlk_env (s : State) (b : Block) : (s.setBlk b).env = s.env := rfl
@[simp] theorem State.setBlk_self (s : State) : s.setBlk s.blk = s := rfl
@[simp] theorem State.setEnv_blk (s : State) (e : Env) : (s.setEnv e).blk = s.blk := rfl
@[simp] theorem State.setEnv_par (s : State) (e : Env) : (s.setEnv e).par = s.par := rfl
@[simp] theorem State.setEnv_env (s : State) (e : Env) : (s.setEnv e).env = e := rfl
@[simp] theorem State.setEnv_self (s : State) : s.setEnv s.env = s := rfl
@[simp] theorem State.setBlk_setBlk (s : State) (b b' : Block) : (s.setBlk b).setBlk b' = s.setBlk b' := rfl
@[simp] theorem State.setEnv_setEnv (s : State) (e e' : Env) : (s.setEnv e).setEnv e' = s.setEnv e' := rfl
@[simp] theorem State.scanFrame_blk (s : State) (c : Byte) (p : List Byte) (ck : Byte) :
    (s.scanFrame c p ck).blk = s.blk.scanFrame s.par c p ck := rfl
@[simp] theorem State.scanFrame_par (s : State) (c : Byte) (p : List Byte) (ck : Byte) :
    (s.scanFrame c p ck).par = s.par := rfl
@[simp] theorem State.scanFrame_env (s : State) (c : Byte) (p : List Byte) (ck : Byte) :
    (s.scanFrame c p ck).env = s.env := rfl

/-! `advance` (R114) -/

@[simp] theorem Block.advance_buf (m : Nat) (b : Block) :
    (b.advance m).buf = b.buf.drop m := rfl
@[simp] theorem Block.advance_pos (m : Nat) (b : Block) :
    (b.advance m).pos = b.pos + BitVec.ofNat 32 m := rfl
@[simp] theorem Block.advance_cf (m : Nat) (b : Block) :
    (b.advance m).cf = b.cf := rfl
@[simp] theorem Block.advance_frmq (m : Nat) (b : Block) :
    (b.advance m).frmq = b.frmq := rfl
@[simp] theorem Block.advance_smpq (m : Nat) (b : Block) :
    (b.advance m).smpq = b.smpq := rfl
@[simp] theorem Block.advance_seq (m : Nat) (b : Block) :
    (b.advance m).seq = b.seq := rfl
@[simp] theorem Block.advance_run (m : Nat) (b : Block) :
    (b.advance m).run = b.run := rfl
@[simp] theorem Block.advance_route (m : Nat) (b : Block) :
    (b.advance m).route = b.route := rfl
@[simp] theorem Block.advance_policy (m : Nat) (b : Block) :
    (b.advance m).policy = b.policy := rfl
@[simp] theorem Block.advance_sticky (m : Nat) (b : Block) :
    (b.advance m).sticky = b.sticky := rfl
@[simp] theorem Block.advance_nch (m : Nat) (b : Block) :
    (b.advance m).nch = b.nch := rfl
@[simp] theorem Block.advance_corruptCnt (m : Nat) (b : Block) :
    (b.advance m).corruptCnt = b.corruptCnt := rfl
@[simp] theorem Block.advance_unknownCnt (m : Nat) (b : Block) :
    (b.advance m).unknownCnt = b.unknownCnt := rfl
@[simp] theorem Block.advance_decerrCnt (m : Nat) (b : Block) :
    (b.advance m).decerrCnt = b.decerrCnt := rfl
@[simp] theorem Block.advance_dropCnt (m : Nat) (b : Block) :
    (b.advance m).dropCnt = b.dropCnt := rfl
@[simp] theorem Block.advance_frameCnt (m : Nat) (b : Block) :
    (b.advance m).frameCnt = b.frameCnt := rfl
@[simp] theorem Block.advance_lut (m : Nat) (b : Block) :
    (b.advance m).lut = b.lut := rfl
@[simp] theorem Block.advance_cat (m : Nat) (b : Block) :
    (b.advance m).cat = b.cat := rfl

/-! Entry `SampleDrop` (R229) -/

@[simp] theorem Block.dropOldest_buf (b : Block) :
    (b.dropOldest).buf = b.buf := rfl
@[simp] theorem Block.dropOldest_pos (b : Block) :
    (b.dropOldest).pos = b.pos := rfl
@[simp] theorem Block.dropOldest_cf (b : Block) :
    (b.dropOldest).cf = b.cf := rfl
@[simp] theorem Block.dropOldest_frmq (b : Block) :
    (b.dropOldest).frmq = b.frmq := rfl
@[simp] theorem Block.dropOldest_smpq (b : Block) :
    (b.dropOldest).smpq = b.smpq.drop 1 := rfl
@[simp] theorem Block.dropOldest_seq (b : Block) :
    (b.dropOldest).seq = b.seq := rfl
@[simp] theorem Block.dropOldest_run (b : Block) :
    (b.dropOldest).run = b.run := rfl
@[simp] theorem Block.dropOldest_route (b : Block) :
    (b.dropOldest).route = b.route := rfl
@[simp] theorem Block.dropOldest_policy (b : Block) :
    (b.dropOldest).policy = b.policy := rfl
@[simp] theorem Block.dropOldest_sticky (b : Block) :
    (b.dropOldest).sticky = { b.sticky with smpDrop := true } := rfl
@[simp] theorem Block.dropOldest_nch (b : Block) :
    (b.dropOldest).nch = b.nch := rfl
@[simp] theorem Block.dropOldest_corruptCnt (b : Block) :
    (b.dropOldest).corruptCnt = b.corruptCnt := rfl
@[simp] theorem Block.dropOldest_unknownCnt (b : Block) :
    (b.dropOldest).unknownCnt = b.unknownCnt := rfl
@[simp] theorem Block.dropOldest_decerrCnt (b : Block) :
    (b.dropOldest).decerrCnt = b.decerrCnt := rfl
@[simp] theorem Block.dropOldest_dropCnt (b : Block) :
    (b.dropOldest).dropCnt = b.dropCnt + 1 := rfl
@[simp] theorem Block.dropOldest_frameCnt (b : Block) :
    (b.dropOldest).frameCnt = b.frameCnt := rfl
@[simp] theorem Block.dropOldest_lut (b : Block) :
    (b.dropOldest).lut = b.lut := rfl
@[simp] theorem Block.dropOldest_cat (b : Block) :
    (b.dropOldest).cat = b.cat := rfl

/-! `smp_push` (R178): the fields it leaves alone and SEQ; the queue is in Laws/Ops.lean -/

@[simp] theorem Block.smpPush_buf (par : Params) (r : RecordBody) (b : Block) :
    (b.smpPush par r).buf = b.buf := by
  by_cases h : b.smpq.length = par.smpqDepth <;> simp [Block.smpPush, h]
@[simp] theorem Block.smpPush_pos (par : Params) (r : RecordBody) (b : Block) :
    (b.smpPush par r).pos = b.pos := by
  by_cases h : b.smpq.length = par.smpqDepth <;> simp [Block.smpPush, h]
@[simp] theorem Block.smpPush_cf (par : Params) (r : RecordBody) (b : Block) :
    (b.smpPush par r).cf = b.cf := by
  by_cases h : b.smpq.length = par.smpqDepth <;> simp [Block.smpPush, h]
@[simp] theorem Block.smpPush_frmq (par : Params) (r : RecordBody) (b : Block) :
    (b.smpPush par r).frmq = b.frmq := by
  by_cases h : b.smpq.length = par.smpqDepth <;> simp [Block.smpPush, h]
@[simp] theorem Block.smpPush_seq (par : Params) (r : RecordBody) (b : Block) :
    (b.smpPush par r).seq = b.seq + 1 := by
  by_cases h : b.smpq.length = par.smpqDepth <;> simp [Block.smpPush, h]
@[simp] theorem Block.smpPush_run (par : Params) (r : RecordBody) (b : Block) :
    (b.smpPush par r).run = b.run := by
  by_cases h : b.smpq.length = par.smpqDepth <;> simp [Block.smpPush, h]
@[simp] theorem Block.smpPush_route (par : Params) (r : RecordBody) (b : Block) :
    (b.smpPush par r).route = b.route := by
  by_cases h : b.smpq.length = par.smpqDepth <;> simp [Block.smpPush, h]
@[simp] theorem Block.smpPush_policy (par : Params) (r : RecordBody) (b : Block) :
    (b.smpPush par r).policy = b.policy := by
  by_cases h : b.smpq.length = par.smpqDepth <;> simp [Block.smpPush, h]
@[simp] theorem Block.smpPush_nch (par : Params) (r : RecordBody) (b : Block) :
    (b.smpPush par r).nch = b.nch := by
  by_cases h : b.smpq.length = par.smpqDepth <;> simp [Block.smpPush, h]
@[simp] theorem Block.smpPush_corruptCnt (par : Params) (r : RecordBody) (b : Block) :
    (b.smpPush par r).corruptCnt = b.corruptCnt := by
  by_cases h : b.smpq.length = par.smpqDepth <;> simp [Block.smpPush, h]
@[simp] theorem Block.smpPush_unknownCnt (par : Params) (r : RecordBody) (b : Block) :
    (b.smpPush par r).unknownCnt = b.unknownCnt := by
  by_cases h : b.smpq.length = par.smpqDepth <;> simp [Block.smpPush, h]
@[simp] theorem Block.smpPush_decerrCnt (par : Params) (r : RecordBody) (b : Block) :
    (b.smpPush par r).decerrCnt = b.decerrCnt := by
  by_cases h : b.smpq.length = par.smpqDepth <;> simp [Block.smpPush, h]
@[simp] theorem Block.smpPush_frameCnt (par : Params) (r : RecordBody) (b : Block) :
    (b.smpPush par r).frameCnt = b.frameCnt := by
  by_cases h : b.smpq.length = par.smpqDepth <;> simp [Block.smpPush, h]
@[simp] theorem Block.smpPush_lut (par : Params) (r : RecordBody) (b : Block) :
    (b.smpPush par r).lut = b.lut := by
  by_cases h : b.smpq.length = par.smpqDepth <;> simp [Block.smpPush, h]
@[simp] theorem Block.smpPush_cat (par : Params) (r : RecordBody) (b : Block) :
    (b.smpPush par r).cat = b.cat := by
  by_cases h : b.smpq.length = par.smpqDepth <;> simp [Block.smpPush, h]

/-! `flush` (R191) -/

@[simp] theorem Block.flush_buf (b : Block) :
    (b.flush).buf = [] := rfl
@[simp] theorem Block.flush_pos (b : Block) :
    (b.flush).pos = b.pos + BitVec.ofNat 32 b.buf.length := rfl
@[simp] theorem Block.flush_cf (b : Block) :
    (b.flush).cf = none := rfl
@[simp] theorem Block.flush_frmq (b : Block) :
    (b.flush).frmq = [] := rfl
@[simp] theorem Block.flush_smpq (b : Block) :
    (b.flush).smpq = [] := rfl
@[simp] theorem Block.flush_seq (b : Block) :
    (b.flush).seq = b.seq := rfl
@[simp] theorem Block.flush_run (b : Block) :
    (b.flush).run = b.run := rfl
@[simp] theorem Block.flush_route (b : Block) :
    (b.flush).route = b.route := rfl
@[simp] theorem Block.flush_policy (b : Block) :
    (b.flush).policy = b.policy := rfl
@[simp] theorem Block.flush_sticky (b : Block) :
    (b.flush).sticky = b.sticky := rfl
@[simp] theorem Block.flush_nch (b : Block) :
    (b.flush).nch = b.nch := rfl
@[simp] theorem Block.flush_corruptCnt (b : Block) :
    (b.flush).corruptCnt = b.corruptCnt := rfl
@[simp] theorem Block.flush_unknownCnt (b : Block) :
    (b.flush).unknownCnt = b.unknownCnt := rfl
@[simp] theorem Block.flush_decerrCnt (b : Block) :
    (b.flush).decerrCnt = b.decerrCnt := rfl
@[simp] theorem Block.flush_dropCnt (b : Block) :
    (b.flush).dropCnt = b.dropCnt := rfl
@[simp] theorem Block.flush_frameCnt (b : Block) :
    (b.flush).frameCnt = b.frameCnt := rfl
@[simp] theorem Block.flush_lut (b : Block) :
    (b.flush).lut = b.lut := rfl
@[simp] theorem Block.flush_cat (b : Block) :
    (b.flush).cat = b.cat := rfl

/-! Delivery of a validated frame (R117) -/

@[simp] theorem Block.deliver_buf (d : Dest) (c : Byte) (p : List Byte) (b : Block) :
    (b.deliver d c p).buf = b.buf := by
  cases d <;> rfl
@[simp] theorem Block.deliver_pos (d : Dest) (c : Byte) (p : List Byte) (b : Block) :
    (b.deliver d c p).pos = b.pos := by
  cases d <;> rfl
@[simp] theorem Block.deliver_smpq (d : Dest) (c : Byte) (p : List Byte) (b : Block) :
    (b.deliver d c p).smpq = b.smpq := by
  cases d <;> rfl
@[simp] theorem Block.deliver_seq (d : Dest) (c : Byte) (p : List Byte) (b : Block) :
    (b.deliver d c p).seq = b.seq := by
  cases d <;> rfl
@[simp] theorem Block.deliver_run (d : Dest) (c : Byte) (p : List Byte) (b : Block) :
    (b.deliver d c p).run = b.run := by
  cases d <;> rfl
@[simp] theorem Block.deliver_route (d : Dest) (c : Byte) (p : List Byte) (b : Block) :
    (b.deliver d c p).route = b.route := by
  cases d <;> rfl
@[simp] theorem Block.deliver_policy (d : Dest) (c : Byte) (p : List Byte) (b : Block) :
    (b.deliver d c p).policy = b.policy := by
  cases d <;> rfl
@[simp] theorem Block.deliver_sticky (d : Dest) (c : Byte) (p : List Byte) (b : Block) :
    (b.deliver d c p).sticky = b.sticky := by
  cases d <;> rfl
@[simp] theorem Block.deliver_nch (d : Dest) (c : Byte) (p : List Byte) (b : Block) :
    (b.deliver d c p).nch = b.nch := by
  cases d <;> rfl
@[simp] theorem Block.deliver_corruptCnt (d : Dest) (c : Byte) (p : List Byte) (b : Block) :
    (b.deliver d c p).corruptCnt = b.corruptCnt := by
  cases d <;> rfl
@[simp] theorem Block.deliver_unknownCnt (d : Dest) (c : Byte) (p : List Byte) (b : Block) :
    (b.deliver d c p).unknownCnt = b.unknownCnt := by
  cases d <;> rfl
@[simp] theorem Block.deliver_decerrCnt (d : Dest) (c : Byte) (p : List Byte) (b : Block) :
    (b.deliver d c p).decerrCnt = b.decerrCnt := by
  cases d <;> rfl
@[simp] theorem Block.deliver_dropCnt (d : Dest) (c : Byte) (p : List Byte) (b : Block) :
    (b.deliver d c p).dropCnt = b.dropCnt := by
  cases d <;> rfl
@[simp] theorem Block.deliver_frameCnt (d : Dest) (c : Byte) (p : List Byte) (b : Block) :
    (b.deliver d c p).frameCnt = b.frameCnt := by
  cases d <;> rfl
@[simp] theorem Block.deliver_lut (d : Dest) (c : Byte) (p : List Byte) (b : Block) :
    (b.deliver d c p).lut = b.lut := by
  cases d <;> rfl
@[simp] theorem Block.deliver_cat (d : Dest) (c : Byte) (p : List Byte) (b : Block) :
    (b.deliver d c p).cat = b.cat := by
  cases d <;> rfl

/-! The accept step (R117) -/

@[simp] theorem Block.accept_buf (c : Byte) (p : List Byte) (b : Block) :
    (b.accept c p).buf = b.buf.drop (p.length + 2) := by
  simp [Block.accept]
@[simp] theorem Block.accept_pos (c : Byte) (p : List Byte) (b : Block) :
    (b.accept c p).pos = b.pos + BitVec.ofNat 32 (p.length + 2) := by
  simp [Block.accept]
@[simp] theorem Block.accept_smpq (c : Byte) (p : List Byte) (b : Block) :
    (b.accept c p).smpq = b.smpq := by
  simp [Block.accept]
@[simp] theorem Block.accept_seq (c : Byte) (p : List Byte) (b : Block) :
    (b.accept c p).seq = b.seq := by
  simp [Block.accept]
@[simp] theorem Block.accept_run (c : Byte) (p : List Byte) (b : Block) :
    (b.accept c p).run = b.run := by
  simp [Block.accept]
@[simp] theorem Block.accept_route (c : Byte) (p : List Byte) (b : Block) :
    (b.accept c p).route = b.route := by
  simp [Block.accept]
@[simp] theorem Block.accept_policy (c : Byte) (p : List Byte) (b : Block) :
    (b.accept c p).policy = b.policy := by
  simp [Block.accept]
@[simp] theorem Block.accept_sticky (c : Byte) (p : List Byte) (b : Block) :
    (b.accept c p).sticky = b.sticky := by
  simp [Block.accept]
@[simp] theorem Block.accept_nch (c : Byte) (p : List Byte) (b : Block) :
    (b.accept c p).nch = b.nch := by
  simp [Block.accept]
@[simp] theorem Block.accept_corruptCnt (c : Byte) (p : List Byte) (b : Block) :
    (b.accept c p).corruptCnt = b.corruptCnt := by
  simp [Block.accept]
@[simp] theorem Block.accept_unknownCnt (c : Byte) (p : List Byte) (b : Block) :
    (b.accept c p).unknownCnt = b.unknownCnt := by
  simp [Block.accept]
@[simp] theorem Block.accept_decerrCnt (c : Byte) (p : List Byte) (b : Block) :
    (b.accept c p).decerrCnt = b.decerrCnt := by
  simp [Block.accept]
@[simp] theorem Block.accept_dropCnt (c : Byte) (p : List Byte) (b : Block) :
    (b.accept c p).dropCnt = b.dropCnt := by
  simp [Block.accept]
@[simp] theorem Block.accept_frameCnt (c : Byte) (p : List Byte) (b : Block) :
    (b.accept c p).frameCnt = b.frameCnt + 1 := by
  simp [Block.accept]
@[simp] theorem Block.accept_lut (c : Byte) (p : List Byte) (b : Block) :
    (b.accept c p).lut = b.lut := by
  simp [Block.accept]
@[simp] theorem Block.accept_cat (c : Byte) (p : List Byte) (b : Block) :
    (b.accept c p).cat = b.cat := by
  simp [Block.accept]

/-! The fields no error event touches (R231) -/

@[simp] theorem Block.raise_buf (par : Params) (e : Event) (b : Block) :
    (b.raise par e).buf = b.buf := by
  cases e <;> first | rfl | (simp only [Block.raise]; simp)
@[simp] theorem Block.raise_pos (par : Params) (e : Event) (b : Block) :
    (b.raise par e).pos = b.pos := by
  cases e <;> first | rfl | (simp only [Block.raise]; simp)
@[simp] theorem Block.raise_frmq (par : Params) (e : Event) (b : Block) :
    (b.raise par e).frmq = b.frmq := by
  cases e <;> first | rfl | (simp only [Block.raise]; simp)
@[simp] theorem Block.raise_run (par : Params) (e : Event) (b : Block) :
    (b.raise par e).run = b.run := by
  cases e <;> first | rfl | (simp only [Block.raise]; simp)
@[simp] theorem Block.raise_route (par : Params) (e : Event) (b : Block) :
    (b.raise par e).route = b.route := by
  cases e <;> first | rfl | (simp only [Block.raise]; simp)
@[simp] theorem Block.raise_policy (par : Params) (e : Event) (b : Block) :
    (b.raise par e).policy = b.policy := by
  cases e <;> first | rfl | (simp only [Block.raise]; simp)
@[simp] theorem Block.raise_nch (par : Params) (e : Event) (b : Block) :
    (b.raise par e).nch = b.nch := by
  cases e <;> first | rfl | (simp only [Block.raise]; simp)
@[simp] theorem Block.raise_frameCnt (par : Params) (e : Event) (b : Block) :
    (b.raise par e).frameCnt = b.frameCnt := by
  cases e <;> first | rfl | (simp only [Block.raise]; simp)
@[simp] theorem Block.raise_lut (par : Params) (e : Event) (b : Block) :
    (b.raise par e).lut = b.lut := by
  cases e <;> first | rfl | (simp only [Block.raise]; simp)
@[simp] theorem Block.raise_cat (par : Params) (e : Event) (b : Block) :
    (b.raise par e).cat = b.cat := by
  cases e <;> first | rfl | (simp only [Block.raise]; simp)

end Sys2Proof.Machine
end

