-- ==== Sys2Proof/Laws/Ops.lean ====
section
/-! SUPPORT. What each shared operation on the block can do, said once. -/

namespace Sys2Proof.Machine

open Sys2Proof

/-! `smp_push` (R178) -/

theorem Block.smpPush_of_room (par : Params) (r : RecordBody) (b : Block)
    (h : b.smpq.length ≠ par.smpqDepth) :
    b.smpPush par r = { b with smpq := b.smpq ++ [{ seq := b.seq, body := r }], seq := b.seq + 1 } := by
  simp [Block.smpPush, h]

theorem Block.smpPush_of_full (par : Params) (r : RecordBody) (b : Block)
    (h : b.smpq.length = par.smpqDepth) :
    b.smpPush par r =
      { b with
        smpq := b.smpq.drop 1 ++ [{ seq := b.seq, body := r }]
        seq := b.seq + 1
        dropCnt := b.dropCnt + 1
        sticky := { b.sticky with smpDrop := true } } := by
  simp [Block.smpPush, h, Block.dropOldest]

/-- A push never makes the queue longer than its capacity (R25). -/
theorem Block.smpPush_length_le (par : Params) (r : RecordBody) (b : Block) (hd : 1 ≤ par.smpqDepth)
    (h : b.smpq.length ≤ par.smpqDepth) : (b.smpPush par r).smpq.length ≤ par.smpqDepth := by
  by_cases hf : b.smpq.length = par.smpqDepth
  · rw [Block.smpPush_of_full par r b hf]; simp; omega
  · rw [Block.smpPush_of_room par r b hf]; simp; omega

/-! The error events (R226 to R230) -/

@[simp] theorem Cause.code_notValue : Cause.notValue.code = 1 := rfl
@[simp] theorem Cause.code_length : Cause.length.code = 2 := rfl
@[simp] theorem Cause.code_noDescriptor : Cause.noDescriptor.code = 3 := rfl

/-- The cause's number is 1, 2 or 3 (R218). -/
theorem Cause.code_range (c : Cause) : 1 ≤ c.code ∧ c.code ≤ 3 := by cases c <;> decide

/-- The number tells the causes apart. -/
theorem Cause.code_injective {c d : Cause} (h : c.code = d.code) : c = d := by
  cases c <;> cases d <;> first | rfl | exact absurd h (by decide)

theorem Block.raise_unknownCommand (par : Params) (c : Byte) (b : Block) :
    b.raise par (.unknownCommand c) =
      { b with unknownCnt := b.unknownCnt + 1, sticky := { b.sticky with unknown := true } } := rfl

theorem Block.raise_framingError (par : Params) (c : Byte) (b : Block) :
    b.raise par (.framingError c) =
      { b with corruptCnt := b.corruptCnt + 1, sticky := { b.sticky with corrupt := true } } := rfl

theorem Block.raise_configRefused (par : Params) (b : Block) :
    b.raise par .configRefused = { b with sticky := { b.sticky with cfgErr := true } } := rfl

theorem Block.raise_sampleDrop (par : Params) (b : Block) : b.raise par .sampleDrop = b.dropOldest := rfl

theorem Block.raise_decodeError (par : Params) (cause : Cause) (c : Byte) (n : Nat) (b : Block) :
    b.raise par (.decodeError cause c n) =
      { Block.smpPush par (.err cause c n)
          { b with decerrCnt := b.decerrCnt + 1, sticky := { b.sticky with decErr := true } } with
        cf := none } := rfl

/-! The candidate at the head of BUF (R113) and the two cases of SCAN (R115, R117) -/

theorem Block.isCandidate_iff (b : Block) (c : Byte) (p : List Byte) (ck : Byte) :
    b.isCandidate c p ck = true ↔
      (b.cat.entry c).known = true ∧ p.length = (b.cat.entry c).len.toNat ∧
        ∃ behind, b.buf = c :: (p ++ ck :: behind) := by
  simp only [Block.isCandidate, Bool.and_eq_true, beq_iff_eq, List.isPrefixOf_iff_prefix, and_assoc]
  refine and_congr_right fun _ => and_congr_right fun _ => ?_
  constructor
  · rintro ⟨t, ht⟩
    exact ⟨t, by rw [← ht]; simp⟩
  · rintro ⟨t, ht⟩
    exact ⟨t, by rw [ht]; simp⟩

theorem Block.scanFrame_of_candidate (par : Params) (c : Byte) (p : List Byte) (ck : Byte) (b : Block)
    (h : b.isCandidate c p ck = true) : b.scanFrame par c p ck = b.settle par c p ck := by
  simp [Block.scanFrame, h]

theorem Block.scanFrame_of_not_candidate (par : Params) (c : Byte) (p : List Byte) (ck : Byte) (b : Block)
    (h : b.isCandidate c p ck = false) : b.scanFrame par c p ck = b := by
  simp [Block.scanFrame, h]

/-- What a frame's meaning can do to the block: accept it, reject its head byte, or nothing. -/
theorem Block.scanFrame_cases (par : Params) (c : Byte) (p : List Byte) (ck : Byte) (b : Block) :
    (b.isCandidate c p ck = true ∧ ckFn par.ck (c :: p) = ck ∧ b.room par (b.dest c) = true ∧
      b.scanFrame par c p ck = b.accept c p) ∨
    (b.isCandidate c p ck = true ∧ ckFn par.ck (c :: p) ≠ ck ∧
      b.scanFrame par c p ck = b.reject par (.framingError c)) ∨
    ((b.isCandidate c p ck = false ∨ (ckFn par.ck (c :: p) = ck ∧ b.room par (b.dest c) = false)) ∧
      b.scanFrame par c p ck = b) := by
  by_cases hc : b.isCandidate c p ck = true
  · by_cases hk : ckFn par.ck (c :: p) = ck
    · by_cases hr : b.room par (b.dest c) = true
      · exact .inl ⟨hc, hk, hr, by simp [Block.scanFrame, hc, Block.settle, hk, hr]⟩
      · refine .inr (.inr ⟨.inr ⟨hk, by simpa using hr⟩, by simp [Block.scanFrame, hc, Block.settle, hk, hr]⟩)
    · exact .inr (.inl ⟨hc, hk, by simp [Block.scanFrame, hc, Block.settle, hk]⟩)
  · exact .inr (.inr ⟨.inl (by simpa using hc), by simp [Block.scanFrame, hc]⟩)

/-- The scan outcome where a candidate stands at the head. -/
theorem Block.outcome_of_candidate (par : Params) (c : Byte) (p : List Byte) (ck : Byte) (b : Block)
    (h : b.isCandidate c p ck = true) :
    b.outcome par = if ckFn par.ck (c :: p) = ck then .frame c p else .badck c := by
  obtain ⟨hk, hl, behind, hb⟩ := (b.isCandidate_iff c p ck).1 h
  rw [Block.outcome, hb]
  exact scanOutcome_complete par.ck b.cat c p ck behind hk hl

end Sys2Proof.Machine
end

