-- ==== Sys2Proof/Laws/ConfigPort.lean ====
section
/-! SUPPORT. What a configuration write can do to the block, part by part (R186 to R203). -/

namespace Sys2Proof.Machine

open Sys2Proof

theorem Block.refuse_eq (par : Params) (b : Block) :
    b.refuse par = { b with sticky := { b.sticky with cfgErr := true } } := rfl

@[simp] theorem Route.ofBits_bits (r : Route) : Route.ofBits r.bits = some r := by cases r <;> rfl

@[simp] theorem kindOfBits_kindBits (k : Kind) : kindOfBits (kindBits k) = some k := by cases k <;> rfl

@[simp] theorem Policy.ofBit_bit (p : Policy) : Policy.ofBit p.bit = p := by cases p <;> rfl

@[simp] theorem Policy.bit_ofBit (p : Bool) : (Policy.ofBit p).bit = p := by cases p <;> rfl

/-- The ROUTE and POLICY part of a CTRL write changes both fields, or only CFG_ERR, or nothing (R188). -/
theorem Block.writeRoute_cases (par : Params) (w : Word) (b : Block) :
    (∃ r, Route.ofBits (w.extractLsb' 1 2) = some r ∧ b.unlocked par = true ∧
      b.writeRoute par w = { b with route := r, policy := Policy.ofBit (w.getLsbD 3) }) ∨
    b.writeRoute par w = b.refuse par ∨ b.writeRoute par w = b := by
  unfold Block.writeRoute
  dsimp only
  split
  · split
    · rename_i r hr
      split
      · rename_i hu
        exact .inl ⟨r, hr, hu, rfl⟩
      · exact .inr (.inl rfl)
    · exact .inr (.inl rfl)
  · exact .inr (.inr rfl)

/-- An NCH write stores a legal value while unlocked or is refused (R193). -/
theorem Block.writeNch_cases (par : Params) (w : Word) (b : Block) :
    (b.unlocked par = true ∧ 1 ≤ (w.extractLsb' 0 5).toNat ∧ (w.extractLsb' 0 5).toNat ≤ par.nchMax ∧
      b.writeNch par w = { b with nch := w.extractLsb' 0 5 }) ∨
    b.writeNch par w = b.refuse par := by
  unfold Block.writeNch
  dsimp only
  split
  · rename_i h
    exact .inl ⟨h.1, h.2.1, h.2.2, rfl⟩
  · exact .inr rfl

/-- A LUT write changes its entry while unlocked or is refused (R195). -/
theorem Block.writeLut_cases (par : Params) (c : Fin 16) (f : LutEntry → LutEntry) (b : Block) :
    (b.unlocked par = true ∧
      b.writeLut par c f = { b with lut := b.lut.set c.val (f b.lut[c]) c.isLt }) ∨
    b.writeLut par c f = b.refuse par := by
  unfold Block.writeLut
  split
  · rename_i h
    exact .inl ⟨h, rfl⟩
  · exact .inr rfl

/-- A CAT write stores a legal entry while unlocked or is refused (R196). -/
theorem Block.writeCat_cases (par : Params) (code : Byte) (w : Word) (b : Block) :
    (∃ e, catOfWord par.lenMax w = some e ∧ b.unlocked par = true ∧
      b.writeCat par code w = { b with cat := b.cat.put code e }) ∨
    b.writeCat par code w = b.refuse par := by
  unfold Block.writeCat
  split
  · rename_i e he
    split
    · rename_i hu
      exact .inl ⟨e, he, hu, rfl⟩
    · exact .inr rfl
  · exact .inr rfl

/-- An entry that a word asks for has a LEN of at most LEN_MAX (R49). -/
theorem catOfWord_len_le {lenMax : Nat} {w : Word} {e : CatEntry} (h : catOfWord lenMax w = some e) :
    e.len.toNat ≤ lenMax := by
  unfold catOfWord at h
  split at h
  · contradiction
  · split at h
    · rename_i hl
      obtain rfl := Option.some.inj h
      exact hl
    · contradiction

/-- What a configuration write can do to the block, whatever its index (R186). -/
theorem Block.cfgWrite_cases (par : Params) (i : CfgIndex) (w : Word) (b : Block) :
    (cfgReg par.nchMax i = .ctrl ∧ b.cfgWrite par i w = b.writeCtrl par w) ∨
    (cfgReg par.nchMax i = .status ∧ b.cfgWrite par i w = { b with sticky := b.sticky.clearBy w }) ∨
    (b.unlocked par = true ∧
      ((cfgReg par.nchMax i = .nch ∧ 1 ≤ (w.extractLsb' 0 5).toNat ∧
          (w.extractLsb' 0 5).toNat ≤ par.nchMax ∧
          b.cfgWrite par i w = { b with nch := w.extractLsb' 0 5 }) ∨
       (∃ lut, b.cfgWrite par i w = { b with lut := lut }) ∨
       (∃ code e, cfgReg par.nchMax i = .cat code ∧ catOfWord par.lenMax w = some e ∧
          b.cfgWrite par i w = { b with cat := b.cat.put code e }))) ∨
    b.cfgWrite par i w = b.refuse par := by
  unfold Block.cfgWrite
  cases hr : cfgReg par.nchMax i with
  | ctrl => exact .inl ⟨rfl, rfl⟩
  | status => exact .inr (.inl ⟨rfl, rfl⟩)
  | nch =>
    rcases b.writeNch_cases par w with ⟨hu, h1, h2, h⟩ | h
    · exact .inr (.inr (.inl ⟨hu, .inl ⟨rfl, h1, h2, h⟩⟩))
    · exact .inr (.inr (.inr h))
  | lutScale c =>
    rcases b.writeLut_cases par c (fun d => { d with scale := w }) with ⟨hu, h⟩ | h
    · exact .inr (.inr (.inl ⟨hu, .inr (.inl ⟨_, h⟩)⟩))
    · exact .inr (.inr (.inr h))
  | lutOffset c =>
    rcases b.writeLut_cases par c (fun d => { d with offset := w }) with ⟨hu, h⟩ | h
    · exact .inr (.inr (.inl ⟨hu, .inr (.inl ⟨_, h⟩)⟩))
    · exact .inr (.inr (.inr h))
  | lutMeta c =>
    rcases b.writeLut_cases par c (fun d => { d with valid := w.getLsbD 0, qty := w.extractLsb' 1 2 }) with
      ⟨hu, h⟩ | h
    · exact .inr (.inr (.inl ⟨hu, .inr (.inl ⟨_, h⟩)⟩))
    · exact .inr (.inr (.inr h))
  | cat code =>
    rcases b.writeCat_cases par code w with ⟨e, he, hu, h⟩ | h
    · exact .inr (.inr (.inl ⟨hu, .inr (.inr ⟨code, e, rfl, he, h⟩)⟩))
    · exact .inr (.inr (.inr h))
  | level => exact .inr (.inr (.inr rfl))
  | corruptCnt => exact .inr (.inr (.inr rfl))
  | unknownCnt => exact .inr (.inr (.inr rfl))
  | decerrCnt => exact .inr (.inr (.inr rfl))
  | dropCnt => exact .inr (.inr (.inr rfl))
  | frameCnt => exact .inr (.inr (.inr rfl))
  | pos => exact .inr (.inr (.inr rfl))
  | unmapped => exact .inr (.inr (.inr rfl))

end Sys2Proof.Machine
end

