-- ==== Sys2Proof/Laws/Converter.lean ====
section
/-! SUPPORT. What a CONV transition can do (R172 to R176), and the size of a sample. -/

namespace Sys2Proof.Machine

open Sys2Proof

@[simp] theorem payloadBytes_length (p : List Byte) (off n : Nat) : (payloadBytes p off n).length = n := by
  simp [payloadBytes]

@[simp] theorem sampleValues_length (order : FieldOrder) (nch : Nat) (lut : Lut) (e : CatEntry)
    (p : List Byte) (k : Nat) : (sampleValues order nch lut e p k).length = nch := by
  simp [sampleValues]

theorem payloadByte_of_lt (p : List Byte) (off : Nat) (h : off < p.length) : payloadByte p off = p[off] := by
  simp [payloadByte, h]

/-- A number of `n` bytes is below `256 ^ n`. -/
theorem littleNat_lt (bytes : List Byte) : littleNat bytes < 256 ^ bytes.length := by
  induction bytes with
  | nil => simp [littleNat]
  | cons b bs ih =>
    have := b.isLt
    simp only [littleNat, List.length_cons, pow_succ]
    omega

theorem fw_pos (e : CatEntry) : 1 ≤ e.fw := by simp [CatEntry.fw]

theorem fw_le (e : CatEntry) : e.fw ≤ 4 := by
  have := e.fwm1.isLt
  simp only [CatEntry.fw]
  omega

theorem Block.conv_of_none (par : Params) (b : Block) (h : b.cf = none) : b.conv par = b := by
  simp [Block.conv, h]

theorem Block.conv_of_some (par : Params) (b : Block) (f : ConvFrame) (h : b.cf = some f) :
    b.conv par = b.convert par f := by
  simp [Block.conv, h]

/-- A CONV transition raises one decode error or pushes one sample record (R172). -/
theorem Block.convert_cases (par : Params) (f : ConvFrame) (b : Block) :
    (∃ cause, b.convCause f = some cause ∧ f.k = 0 ∧
      b.convert par f = b.raise par (.decodeError cause f.code f.payload.length)) ∨
    (b.convCause f = none ∧
      b.convert par f = { b.smpPush par (b.sampleBody par f) with cf := b.nextFrame f }) := by
  cases hc : b.convCause f with
  | none => exact .inr ⟨rfl, by simp [Block.convert, hc]⟩
  | some cause =>
    refine .inl ⟨cause, rfl, ?_, by simp [Block.convert, hc]⟩
    by_contra hk
    simp [Block.convCause, hk] at hc

end Sys2Proof.Machine
end

