-- ==== Sys2Proof/Laws/Step.lean ====
section
/-! SUPPORT. What exec, a transition, a turn and a step can do, said once. -/

namespace Sys2Proof.Machine

open Sys2Proof

/-- Every arm of exec runs its frame through the scan (R145). -/
theorem exec_eq (i : Instr) (s : State) : exec i s = .next (s.scanFrame i.code i.payload i.cksum) := by
  cases i <;> rfl

theorem step_of_no_turn (s : State) (h : s.env.turns = []) : step s = ownTurn s := by
  simp [step, h]

theorem step_of_turn (s : State) (a : Agent) (rest : List Agent) (h : s.env.turns = a :: rest) :
    step s = turn a (s.setEnv { s.env with turns := rest }) := by
  simp [step, h]

/-- SCAN on a candidate: the same effect whether its code has a row of the opcode table or was added by the
host (R145, R156). -/
theorem fireScan_of_candidate (s : State) (c : Byte) (p : List Byte) (ck : Byte)
    (h : s.blk.isCandidate c p ck = true) : fireScan s = .next (s.scanFrame c p ck) := by
  obtain ⟨hk, hl, behind, hb⟩ := (s.blk.isCandidate_iff c p ck).1 h
  cases ho : Instr.ofCode c p ck with
  | none =>
    simp only [fireScan, fetch, hb, decode_added s.blk.cat c p ck behind hk hl ho]
  | some i =>
    simp only [fireScan, fetch, hb, decode_row s.blk.cat c p ck behind i hk hl ho]
    obtain ⟨rfl, rfl, rfl⟩ := Instr.ofCode_eq_some ho
    exact exec_eq i s

/-- What SCAN can do (R115, R117, R118): discard an unknown head byte, decide a candidate, or nothing. -/
theorem fireScan_cases (s : State) :
    ((s.blk.outcome s.par).waiting = true ∧ fireScan s = .next s) ∨
    (∃ c, s.blk.outcome s.par = .unknown c ∧ s.blk.buf.head? = some c ∧
      fireScan s = .next (s.setBlk (s.blk.reject s.par (.unknownCommand c)))) ∨
    (∃ c p ck, s.blk.isCandidate c p ck = true ∧ fireScan s = .next (s.scanFrame c p ck)) := by
  rcases scanOutcome_cases s.par.ck s.blk.cat s.blk.buf with
    ⟨hb, ho⟩ | ⟨c, rest, hb, hk, ho⟩ | ⟨c, rest, hb, hk, hl, ho⟩ | ⟨c, p, k, behind, hb, hk, hl, _⟩
  · refine .inl ⟨by simp [Block.outcome, ho, ScanOutcome.waiting], ?_⟩
    simp [fireScan, fetch, hb]
  · refine .inr (.inl ⟨c, ho, by simp [hb], ?_⟩)
    simp [fireScan, fetch, hb, decode_unknown s.blk.cat c rest hk]
  · refine .inl ⟨by simp [Block.outcome, ho, ScanOutcome.waiting], ?_⟩
    simp [fireScan, fetch, hb, decode_incomplete s.blk.cat c rest hk hl]
  · have hc : s.blk.isCandidate c p k = true := (s.blk.isCandidate_iff c p k).2 ⟨hk, hl, behind, hb⟩
    exact .inr (.inr ⟨c, p, k, hc, fireScan_of_candidate s c p k hc⟩)

/-- Every transition has a next state, with the parameters it had. -/
theorem fire_next (t : Transition) (s : State) : ∃ s', fire t s = .next s' ∧ s'.par = s.par := by
  cases t with
  | rx x => exact ⟨_, rfl, rfl⟩
  | scan =>
    rcases fireScan_cases s with ⟨_, h⟩ | ⟨c, _, _, h⟩ | ⟨c, p, ck, _, h⟩
    · exact ⟨s, h, rfl⟩
    · exact ⟨_, h, rfl⟩
    · exact ⟨_, h, rfl⟩
  | conv => exact ⟨_, rfl, rfl⟩
  | host op =>
    refine ⟨_, rfl, ?_⟩
    cases op with
    | cfgRead i => rfl
    | cfgWrite i w => rfl
    | frmPop => simp only [fireHost, fireFrmPop]; split <;> rfl
    | reset => rfl
  | smpPop =>
    refine ⟨_, rfl, ?_⟩
    simp only [fireSmpPop]
    split <;> rfl

/-- Whether a transition is enabled depends on the block alone. -/
@[simp] theorem enabled_setEnv (t : Transition) (s : State) (e : Env) : enabled t (s.setEnv e) = enabled t s := by
  cases t with
  | host op => cases op <;> rfl
  | rx x => rfl
  | scan => rfl
  | conv => rfl
  | smpPop => rfl

/-- What an agent's offer takes: nothing of the block, and of the environment only the input it offers. -/
theorem offer_cases {a : Agent} {s : State} {t : Transition} {s' : State} (h : offer a s = some (t, s')) :
    s'.blk = s.blk ∧ s'.par = s.par ∧
    ((a = .src ∧ ∃ x rest, s.env.src = x :: rest ∧ t = .rx x ∧ s'.env = { s.env with src := rest }) ∨
     (a = .scan ∧ t = .scan ∧ s'.env = s.env) ∨ (a = .conv ∧ t = .conv ∧ s'.env = s.env) ∨
     (a = .host ∧ ∃ op rest, s.env.ops = op :: rest ∧ t = .host op ∧ s'.env = { s.env with ops := rest }) ∨
     (a = .sink ∧ t = .smpPop ∧ s'.env = s.env)) := by
  cases a <;> simp only [offer] at h
  · split at h
    · contradiction
    · rename_i x rest hx
      obtain ⟨rfl, rfl⟩ := Prod.mk.inj (Option.some.inj h)
      exact ⟨rfl, rfl, .inl ⟨rfl, x, rest, hx, rfl, rfl⟩⟩
  · obtain ⟨rfl, rfl⟩ := Prod.mk.inj (Option.some.inj h)
    exact ⟨rfl, rfl, .inr (.inl ⟨rfl, rfl, rfl⟩)⟩
  · obtain ⟨rfl, rfl⟩ := Prod.mk.inj (Option.some.inj h)
    exact ⟨rfl, rfl, .inr (.inr (.inl ⟨rfl, rfl, rfl⟩))⟩
  · split at h
    · contradiction
    · rename_i op rest hx
      obtain ⟨rfl, rfl⟩ := Prod.mk.inj (Option.some.inj h)
      exact ⟨rfl, rfl, .inr (.inr (.inr (.inl ⟨rfl, op, rest, hx, rfl, rfl⟩)))⟩
  · obtain ⟨rfl, rfl⟩ := Prod.mk.inj (Option.some.inj h)
    exact ⟨rfl, rfl, .inr (.inr (.inr (.inr ⟨rfl, rfl, rfl⟩)))⟩

/-- What a step can do: the block stands still, or one transition that is enabled happens. The state it happens
in differs from `s` in the environment's order and offered inputs only. -/
theorem step_cases (s : State) :
    (∃ e : Env, step s = .next (s.setEnv e) ∧ e.src = s.env.src ∧ e.ops = s.env.ops ∧ e.words = s.env.words ∧
      e.frames = s.env.frames ∧ e.records = s.env.records) ∨
    (∃ (t : Transition) (e : Env), enabled t s = true ∧ step s = fire t (s.setEnv e) ∧
      e.words = s.env.words ∧ e.frames = s.env.frames ∧ e.records = s.env.records ∧
      ((∃ x, t = .rx x ∧ s.env.src = x :: e.src ∧ e.ops = s.env.ops) ∨
       (∃ op, t = .host op ∧ s.env.ops = op :: e.ops ∧ e.src = s.env.src) ∨
       ((t = .scan ∨ t = .conv ∨ t = .smpPop) ∧ e.src = s.env.src ∧ e.ops = s.env.ops))) := by
  cases ht : s.env.turns with
  | nil =>
    rw [step_of_no_turn s ht]
    unfold ownTurn
    dsimp only
    split
    · rename_i hb
      obtain ⟨h1, h2⟩ := (Bool.and_eq_true _ _).mp hb
      split
      · exact .inr ⟨.scan, _, h1, rfl, rfl, rfl, rfl, .inr (.inr ⟨.inl rfl, rfl, rfl⟩)⟩
      · exact .inr ⟨.conv, _, h2, rfl, rfl, rfl, rfl, .inr (.inr ⟨.inr (.inl rfl), rfl, rfl⟩)⟩
    · split
      · rename_i h1
        exact .inr ⟨.scan, s.env, h1, rfl, rfl, rfl, rfl, .inr (.inr ⟨.inl rfl, rfl, rfl⟩)⟩
      · split
        · rename_i h2
          exact .inr ⟨.conv, s.env, h2, rfl, rfl, rfl, rfl, .inr (.inr ⟨.inr (.inl rfl), rfl, rfl⟩)⟩
        · exact .inl ⟨s.env, rfl, rfl, rfl, rfl, rfl, rfl⟩
  | cons a rest =>
    rw [step_of_turn s a rest ht]
    unfold turn
    split
    · exact .inl ⟨_, rfl, rfl, rfl, rfl, rfl, rfl⟩
    · rename_i t s' ho
      obtain ⟨hb, hp, hc⟩ := offer_cases ho
      have hs' : s' = s.setEnv s'.env := by
        cases s'; cases s; simp_all [State.setEnv]
      split
      · rename_i he
        have he' : enabled t s = true := he
        rcases hc with ⟨-, x, r, hx, rfl, hv⟩ | ⟨-, rfl, hv⟩ | ⟨-, rfl, hv⟩ | ⟨-, op, r, hx, rfl, hv⟩ |
          ⟨-, rfl, hv⟩
        · exact .inr ⟨_, s'.env, he', by rw [← hs'], by rw [hv]; rfl, by rw [hv]; rfl, by rw [hv]; rfl,
            .inl ⟨x, rfl, by rw [hv]; exact hx, by rw [hv]; rfl⟩⟩
        · exact .inr ⟨_, s'.env, he', by rw [← hs'], by rw [hv]; rfl, by rw [hv]; rfl, by rw [hv]; rfl,
            .inr (.inr ⟨.inl rfl, by rw [hv]; rfl, by rw [hv]; rfl⟩)⟩
        · exact .inr ⟨_, s'.env, he', by rw [← hs'], by rw [hv]; rfl, by rw [hv]; rfl, by rw [hv]; rfl,
            .inr (.inr ⟨.inr (.inl rfl), by rw [hv]; rfl, by rw [hv]; rfl⟩)⟩
        · exact .inr ⟨_, s'.env, he', by rw [← hs'], by rw [hv]; rfl, by rw [hv]; rfl, by rw [hv]; rfl,
            .inr (.inl ⟨op, rfl, by rw [hv]; exact hx, by rw [hv]; rfl⟩)⟩
        · exact .inr ⟨_, s'.env, he', by rw [← hs'], by rw [hv]; rfl, by rw [hv]; rfl, by rw [hv]; rfl,
            .inr (.inr ⟨.inr (.inr rfl), by rw [hv]; rfl, by rw [hv]; rfl⟩)⟩
      · exact .inl ⟨_, rfl, rfl, rfl, rfl, rfl, rfl⟩

end Sys2Proof.Machine
end

