-- ==== Sys2Proof/Laws/Fairness.lean ====
section
/-! SUPPORT. What `pick` says of a step. -/

namespace Sys2Proof.Machine

open Sys2Proof

/-- An agent's offer does not depend on the turns still prescribed. -/
theorem offer_setEnv_turns (a : Agent) (s : State) (ts : List Agent) :
    offer a (s.setEnv { s.env with turns := ts }) =
      (offer a s).map fun o => (o.1, o.2.setEnv { o.2.env with turns := ts }) := by
  cases a <;> simp only [offer, State.setEnv_env] <;> first | rfl | (split <;> rfl)

theorem pick_of_turn (s : State) (a : Agent) (rest : List Agent) (h : s.env.turns = a :: rest) :
    pick s = match offer a s with
      | none => none
      | some (t, _) => if enabled t s then some t else none := by
  simp only [pick, h] <;> rfl

/-- `pick` is true of `step`: the transition it names is enabled and is the one that fires, in a state that differs
in the environment only and in no output; where it names none the block stands still. -/
theorem step_of_pick (s : State) :
    ∃ e : Env, (e.words = s.env.words ∧ e.frames = s.env.frames ∧ e.records = s.env.records) ∧
      ((pick s = none ∧ step s = .next (s.setEnv e)) ∨
       ∃ t, pick s = some t ∧ enabled t s = true ∧ step s = fire t (s.setEnv e)) := by
  cases ht : s.env.turns with
  | nil =>
    rw [step_of_no_turn s ht]
    simp only [pick, ht, ownTurn]
    cases hs : enabled .scan s <;> cases hc : enabled .conv s <;> cases hb : Config.tie s.env.ties
    all_goals simp only [Bool.and_true, Bool.and_false, Bool.false_eq_true, if_true, if_false]
    all_goals first
      | exact ⟨s.env, ⟨rfl, rfl, rfl⟩, .inl ⟨trivial, rfl⟩⟩
      | exact ⟨s.env, ⟨rfl, rfl, rfl⟩, .inr ⟨_, rfl, by assumption, rfl⟩⟩
      | exact ⟨{ s.env with turns := [], ties := s.env.ties + 1 }, ⟨rfl, rfl, rfl⟩, .inr ⟨_, rfl, by assumption, rfl⟩⟩
  | cons a rest =>
    rw [step_of_turn s a rest ht, pick_of_turn s a rest ht, turn, offer_setEnv_turns]
    cases ho : offer a s with
    | none => exact ⟨{ s.env with turns := rest }, ⟨rfl, rfl, rfl⟩, .inl ⟨rfl, rfl⟩⟩
    | some o =>
      obtain ⟨t, s'⟩ := o
      obtain ⟨hb, hp, hc⟩ := offer_cases ho
      have hs' : s' = s.setEnv s'.env := by
        rw [State.mk.injEq]
        exact ⟨hp, hb, rfl⟩
      have hw : s'.env.words = s.env.words ∧ s'.env.frames = s.env.frames ∧ s'.env.records = s.env.records := by
        rcases hc with ⟨-, _, _, _, -, h⟩ | ⟨-, -, h⟩ | ⟨-, -, h⟩ | ⟨-, _, _, _, -, h⟩ | ⟨-, -, h⟩ <;> simp [h]
      cases he : enabled t s with
      | false => exact ⟨{ s.env with turns := rest }, ⟨rfl, rfl, rfl⟩, .inl (by simp [he])⟩
      | true =>
        refine ⟨{ s'.env with turns := rest }, hw, .inr ⟨t, by simp [he], he, ?_⟩⟩
        rw [hs']
        simp [he]

end Sys2Proof.Machine
end

