-- ==== Sys2Proof/Laws/PerInstr.lean ====
section
/-! SUPPORT. Statements for every instruction, one lemma per constructor. -/

namespace Sys2Proof.Laws

open Sys2Proof

/-- The shape of a frame (R85, R86): a well-formed instruction's bytes are `LEN + 2`, the first its code and
the last its checksum byte. -/
def FrameShape.Statement (i : Instr) : Prop :=
  ∀ cat : Catalog, i.wellFormed cat = true →
    (encode i).length = (cat.entry i.code).len.toNat + 2 ∧ (encode i).head? = some i.code ∧
      (encode i).getLast? = some i.cksum

theorem FrameShape.of_encode (i : Instr) : FrameShape.Statement i := by
  intro cat h
  have hl := ((Instr.wellFormed_iff cat i).1 h).2
  refine ⟨by rw [encode_length, hl], rfl, ?_⟩
  rw [encode, ← List.cons_append, List.getLast?_concat]

theorem FrameShape.welcome (p : List Byte) (ck : Byte) : FrameShape.Statement (.welcome p ck) := of_encode _
theorem FrameShape.readDeviceId (p : List Byte) (ck : Byte) : FrameShape.Statement (.readDeviceId p ck) :=
  of_encode _
theorem FrameShape.readSensors (p : List Byte) (ck : Byte) : FrameShape.Statement (.readSensors p ck) :=
  of_encode _
theorem FrameShape.readValues (p : List Byte) (ck : Byte) : FrameShape.Statement (.readValues p ck) :=
  of_encode _
theorem FrameShape.readConfig (p : List Byte) (ck : Byte) : FrameShape.Statement (.readConfig p ck) :=
  of_encode _
theorem FrameShape.readAdcBuffer (p : List Byte) (ck : Byte) : FrameShape.Statement (.readAdcBuffer p ck) :=
  of_encode _
theorem FrameShape.writeConfigContinuousTx (p : List Byte) (ck : Byte) :
    FrameShape.Statement (.writeConfigContinuousTx p ck) := of_encode _
theorem FrameShape.writeConfigUart (p : List Byte) (ck : Byte) : FrameShape.Statement (.writeConfigUart p ck) :=
  of_encode _

end Sys2Proof.Laws
end

