-- ==== Sys2Proof/Laws/Run.lean ====
section
/-! SUPPORT. Runs of several steps: `runsTo` by its first step, and induction over a run. -/

namespace Sys2Proof.Machine

open Sys2Proof

theorem runsTo_zero {s s' : State} : runsTo 0 s s' ↔ s' = s := by
  show (Host.Outcome.next s : Host.Outcome State Fault Refusal) = .next s' ↔ _
  rw [Host.Outcome.next.injEq]
  exact eq_comm

theorem core_run_succ (M : Host.Core) (n : Nat) (s t : M.State) (h : M.step s = .next t) :
    M.run (n + 1) s = M.run n t := by
  simp [Host.Core.run, h]

/-- A run of `n + 1` steps is one step and then a run of `n`. -/
theorem runsTo_succ {n : Nat} {s t s' : State} (h : step s = .next t) :
    runsTo (n + 1) s s' ↔ runsTo n t s' := by
  have e : Sys2Proof.core.run (n + 1) s = Sys2Proof.core.run n t := core_run_succ Sys2Proof.core n s t h
  rw [runsTo, e, runsTo]

/-- Every step has a next state. -/
theorem step_next (s : State) : ∃ t, step s = .next t := by
  rcases step_cases s with ⟨e, h, _⟩ | ⟨t, e, _, h, _⟩
  · exact ⟨_, h⟩
  · obtain ⟨s', h1, _⟩ := fire_next t (s.setEnv e)
    exact ⟨s', by rw [h, h1]⟩

/-- What holds of no step, and is carried back over one step, holds of every run. -/
theorem runsTo_induction {P : State → State → Prop} (h0 : ∀ s, P s s)
    (h1 : ∀ s t u, step s = .next t → P t u → P s u) {n : Nat} {s s' : State} (h : runsTo n s s') :
    P s s' := by
  induction n generalizing s with
  | zero => exact runsTo_zero.1 h ▸ h0 s
  | succ n ih =>
    obtain ⟨t, ht⟩ := step_next s
    exact h1 s t s' ht (ih ((runsTo_succ ht).1 h))

end Sys2Proof.Machine
end

