-- ==== Sys2Proof/Tests/Slice0.lean ====
section
/-! SUPPORT. The author's tests. Expected values come from the spec's own examples (30_encoding.md R93,
42_commands.md R147 to R156, 43_converter.md R173 to R178, 44_host_ops.md R185 to R205, 95_test_vectors.md); the
witnesses at the end show states that meet the hypotheses of the statements. -/

namespace Sys2Proof.Tests

open Sys2Proof Sys2Proof.Machine

set_option Elab.async false

/-! ## Well-formedness refuses -/

theorem test_refuses_unknown_code :
    (Instr.welcome [1, 2, 3] 0).wellFormed (Config.refcat.put 0x00 CatEntry.absent) = false := by decide +kernel

theorem test_refuses_short_payload : (Instr.welcome [1, 2] 0).wellFormed Config.refcat = false := by decide +kernel

theorem test_refuses_long_payload : (Instr.writeConfigUart [0] 0).wellFormed Config.refcat = false := by
  decide +kernel

theorem test_accepts_described_frame : (Instr.readConfig [0x12, 0x34] 0x4A).wellFormed Config.refcat = true := by
  decide +kernel

theorem test_refuses_long_entry : ¬ Config.refcat.lenLegal 11 := by decide +kernel

theorem test_refuses_reset_kind :
    ¬ (Config.refcat.put 0x06 { (Config.refcat.entry 0x06) with kind := .perChannel }).resetLegal := by
  decide +kernel

theorem test_refuses_large_lenMax : ¬ { Params.default with lenMax := 255 }.legal := by decide +kernel

theorem test_refuses_no_channel : ¬ { Params.default with nchMax := 0 }.legal := by decide +kernel

theorem test_refuses_large_frac : ¬ { Params.default with frac := 32 }.legal := by decide +kernel

theorem test_refuses_empty_frmq : ¬ { Params.default with frmqDepth := 0 }.legal := by decide +kernel

theorem test_refuses_large_smpq : ¬ { Params.default with smpqDepth := 256 }.legal := by decide +kernel

theorem refcat_lenLegal : Config.refcat.lenLegal 254 := by decide +kernel

theorem refcat_resetLegal : Config.refcat.resetLegal := by decide +kernel

theorem test_default_params_legal : Params.default.legal :=
  ⟨by decide, by decide, by decide, by decide, by decide, refcat_lenLegal, refcat_resetLegal⟩

/-! ## Decoding: one written-out frame per code (R147 to R154), and what is rejected -/

theorem test_decode_welcome :
    decode Config.refcat [0x00, 0x50, 0x4D, 0x44, 0xE1, 0x03] = .ok (.welcome [0x50, 0x4D, 0x44] 0xE1, [0x03]) := rfl

theorem test_decode_readDeviceId :
    decode Config.refcat [0x01, 0xDE, 0xAD, 0xBE, 0xEF, 0x39] =
      .ok (.readDeviceId [0xDE, 0xAD, 0xBE, 0xEF] 0x39, []) := rfl

theorem test_decode_readSensors :
    decode Config.refcat [0x02, 0xE8, 0x03, 0xD0, 0x07, 0xC4] =
      .ok (.readSensors [0xE8, 0x03, 0xD0, 0x07] 0xC4, []) := rfl

theorem test_decode_readValues :
    decode Config.refcat [0x03, 0xF6, 0xFF, 0x14, 0x00, 0x0C] =
      .ok (.readValues [0xF6, 0xFF, 0x14, 0x00] 0x0C, []) := rfl

theorem test_decode_readConfig :
    decode Config.refcat [0x04, 0x12, 0x34, 0x4A] = .ok (.readConfig [0x12, 0x34] 0x4A, []) := rfl

theorem test_decode_readAdcBuffer :
    decode Config.refcat [0x06, 1, 0, 2, 0, 3, 0, 4, 0, 5, 0, 6, 0, 0x1B] =
      .ok (.readAdcBuffer [1, 0, 2, 0, 3, 0, 4, 0, 5, 0, 6, 0] 0x1B, []) := rfl

theorem test_decode_writeConfigContinuousTx :
    decode Config.refcat [0x07, 0x01, 0x08] = .ok (.writeConfigContinuousTx [0x01] 0x08, []) := rfl

theorem test_decode_writeConfigUart : decode Config.refcat [0x08, 0x08] = .ok (.writeConfigUart [] 0x08, []) := rfl

theorem test_decode_unknown : decode Config.refcat [0x05] = .error (.unknownCode 0x05) := rfl

theorem test_decode_incomplete : decode Config.refcat [0x06, 1, 2, 3] = .error (.incomplete 0x06) := rfl

theorem test_decode_added :
    decode (Config.refcat.put 0x09 { known := true, kind := .nonvalue, sg := false, fwm1 := 0, len := 1 })
      [0x09, 0x07, 0x10] = .error (.addedCode 0x09 [0x07] 0x10) := rfl

theorem test_decode_table_word : decodeTableWord 8 0x08 = some (.writeConfigUart [] 0x00) := rfl

/-- The table word of a row is run by the first step after reset (log 17). -/
theorem test_fetch_word_runs :
    step (State.reset.withFetchWord 8 0x00) =
      exec (.welcome [0, 0, 0] 0) (State.reset.withFetchWord 8 0x00) := rfl

/-! ## One step per instruction -/

/-- The running machine with these bytes in BUF. -/
def fed (bytes : List Byte) : State :=
  State.reset.setBlk { State.reset.blk with run := true, buf := bytes }

/-- The same, two channels with scale 1.0 and offset 0 loaded (95_test_vectors.md's setting), on a route. -/
def wired (r : Route) (bytes : List Byte) : State :=
  (fed bytes).setBlk { (fed bytes).blk with
    route := r
    nch := 2
    lut := Vector.replicate 16 { valid := true, qty := 0, scale := 0x00010000, offset := 0 } }

/-- The block after an outcome that has a next state. -/
def after (o : Host.Outcome State Fault Refusal) : Option Block :=
  match o with
  | .next s => some s.blk
  | .fault _ => none
  | .refused _ => none

/-- The parts of a block that a frame can change: BUF, POS, FRAME_CNT, CORRUPT_CNT, FRMQ, CF. -/
def frameView (o : Host.Outcome State Fault Refusal) :
    Option (List Byte × (Word × Word × Word) × (List FrameRec × Option ConvFrame)) :=
  (after o).map fun b => (b.buf, (b.pos, b.frameCnt, b.corruptCnt), (b.frmq, b.cf))

/-- The parts of a block that a conversion can change: CF, SMPQ, SEQ, DECERR_CNT, DROP_CNT, STATUS.DECERR. -/
def convView (o : Host.Outcome State Fault Refusal) :
    Option (Option ConvFrame × List Record × SeqNo × Word × Word × Bool) :=
  (after o).map fun b => (b.cf, b.smpq, b.seq, b.decerrCnt, b.dropCnt, b.sticky.decErr)

theorem test_welcome_bypass :
    frameView (exec (.welcome [0x50, 0x4D, 0x44] 0xE1) (fed [0x00, 0x50, 0x4D, 0x44, 0xE1])) =
      some ([], (5, 1, 0), [⟨0x00, [0x50, 0x4D, 0x44]⟩], none) := by decide +kernel

theorem test_readDeviceId_bypass :
    frameView (exec (.readDeviceId [0xDE, 0xAD, 0xBE, 0xEF] 0x39) (fed [0x01, 0xDE, 0xAD, 0xBE, 0xEF, 0x39, 0x03])) =
      some ([0x03], (6, 1, 0), [⟨0x01, [0xDE, 0xAD, 0xBE, 0xEF]⟩], none) := by decide +kernel

theorem test_readSensors_split :
    frameView (exec (.readSensors [0xE8, 0x03, 0xD0, 0x07] 0xC4)
      (wired .split [0x02, 0xE8, 0x03, 0xD0, 0x07, 0xC4])) =
      some ([], (6, 1, 0), [], some ⟨0x02, [0xE8, 0x03, 0xD0, 0x07], 0⟩) := by decide +kernel

/-- R115's example: one byte goes, nothing is queued. -/
theorem test_readValues_badck :
    frameView (exec (.readValues [0x0A, 0x00, 0x14, 0x00] 0xFF) (fed [0x03, 0x0A, 0x00, 0x14, 0x00, 0xFF])) =
      some ([0x0A, 0x00, 0x14, 0x00, 0xFF], (1, 0, 1), [], none) := by decide +kernel

theorem test_readConfig_split :
    frameView (exec (.readConfig [0x12, 0x34] 0x4A) (wired .split [0x04, 0x12, 0x34, 0x4A])) =
      some ([], (4, 1, 0), [⟨0x04, [0x12, 0x34]⟩], none) := by decide +kernel

theorem test_readAdcBuffer_all :
    frameView (exec (.readAdcBuffer [1, 0, 2, 0, 3, 0, 4, 0, 5, 0, 6, 0] 0x1B)
      (wired .all [0x06, 1, 0, 2, 0, 3, 0, 4, 0, 5, 0, 6, 0, 0x1B])) =
      some ([], (14, 1, 0), [], some ⟨0x06, [1, 0, 2, 0, 3, 0, 4, 0, 5, 0, 6, 0], 0⟩) := by decide +kernel

theorem test_writeConfigContinuousTx_bypass :
    frameView (exec (.writeConfigContinuousTx [0x01] 0x08) (fed [0x07, 0x01, 0x08])) =
      some ([], (3, 1, 0), [⟨0x07, [0x01]⟩], none) := by decide +kernel

theorem test_writeConfigUart_bypass :
    frameView (exec (.writeConfigUart [] 0x08) (fed [0x08, 0x08])) =
      some ([], (2, 1, 0), [⟨0x08, []⟩], none) := by decide +kernel

/-! ## One CONV transition (R173 to R178) -/

/-- The wired machine with a frame in CF. -/
def holding (r : Route) (f : ConvFrame) : State :=
  (wired r []).setBlk { (wired r []).blk with cf := some f }

/-- R149's example. -/
theorem test_convert_readSensors :
    convView (fire .conv (holding .split ⟨0x02, [0xE8, 0x03, 0xD0, 0x07], 0⟩)) =
      some (none, [⟨0, .smp 0x02 0 2 [65536000, 131072000]⟩], 1, 0, 0, false) := by decide +kernel

/-- R150's example with a negative field. -/
theorem test_convert_readValues :
    convView (fire .conv (holding .split ⟨0x03, [0xF6, 0xFF, 0x14, 0x00], 0⟩)) =
      some (none, [⟨0, .smp 0x03 0 2 [-655360, 1310720]⟩], 1, 0, 0, false) := by decide +kernel

/-- R176's example: two different descriptors. -/
theorem test_convert_scale_and_offset :
    sampleValues .little 2
      ((Vector.replicate 16 LutEntry.zero).set 0 ⟨true, 0, 0x00008000, 0xFFFEC000⟩
        |>.set 1 ⟨true, 0, 0x00000042, 0x00010000⟩)
      (Config.refcat.entry 0x03) [0xF6, 0xFF, 0xE8, 0x03] 0 = [-409600, 131536] := by decide +kernel

/-- The second of three samples of a batch: CF goes to the next index (R152, R176). -/
theorem test_convert_batch_middle :
    convView (fire .conv (holding .split ⟨0x06, [1, 0, 2, 0, 3, 0, 4, 0, 5, 0, 6, 0], 1⟩)) =
      some (some ⟨0x06, [1, 0, 2, 0, 3, 0, 4, 0, 5, 0, 6, 0], 2⟩,
        [⟨0, .smp 0x06 1 2 [3 * 65536, 4 * 65536]⟩], 1, 0, 0, false) := by decide +kernel

/-- R148's example under ALL. -/
theorem test_convert_not_value :
    convView (fire .conv (holding .all ⟨0x01, [0xDE, 0xAD, 0xBE, 0xEF], 0⟩)) =
      some (none, [⟨0, .err .notValue 0x01 4⟩], 1, 1, 0, true) := by decide +kernel

/-- R174's first example: three channels of two bytes against four bytes. -/
theorem test_convert_length :
    (holding .split ⟨0x03, [0x0A, 0x00, 0x14, 0x00], 0⟩).blk.convCause ⟨0x03, [0x0A, 0x00, 0x14, 0x00], 0⟩ = none ∧
    { (holding .split ⟨0x03, [], 0⟩).blk with nch := 3 }.convCause ⟨0x03, [0x0A, 0x00, 0x14, 0x00], 0⟩ =
      some .length := by decide +kernel

/-- R178's example: a full queue of two loses its oldest record. -/
theorem test_push_drops_oldest :
    (Block.smpPush { Params.default with smpqDepth := 2 } (.err .length 0x03 4)
      { State.reset.blk with smpq := [⟨0, .err .notValue 1 4⟩, ⟨1, .err .notValue 1 4⟩], seq := 2 }).smpq =
      [⟨1, .err .notValue 1 4⟩, ⟨2, .err .length 0x03 4⟩] := by decide +kernel

/-! ## The configuration port (examples of R185, R188, R189, R192, R193, R196, R203) -/

/-- The unlocked machine after one configuration write. -/
def wrote (i : CfgIndex) (w : Word) : Option Block := after (fire (.host (.cfgWrite i w)) State.reset)

theorem test_read_after_reset :
    [0x001, 0x002, 0x103, 0x105, 0x043].map (fun i => State.reset.blk.cfgRead Params.default i) =
      [0x00000001, 0x00000001, 0x80011104, 0, 0] := by decide +kernel

theorem test_write_ctrl :
    (wrote 0x000 0x00000003).map (fun b => (b.run, b.route, b.sticky.cfgErr)) = some (true, .split, false) := by
  decide +kernel

theorem test_write_ctrl_locked :
    (after (fire (.host (.cfgWrite 0x000 0x00000005)) (wired .split []))).map
      (fun b => (b.run, b.route, b.sticky.cfgErr)) = some (true, .split, true) := by decide +kernel

theorem test_write_ctrl_reserved :
    (wrote 0x000 0x0000000E).map (fun b => (b.run, b.route, b.policy, b.sticky.cfgErr)) =
      some (false, .bypass, .dropOldest, true) := by decide +kernel

theorem test_write_status :
    (after (fire (.host (.cfgWrite 0x001 0x00000100)) (State.reset.setBlk { State.reset.blk with
      sticky := { State.reset.blk.sticky with corrupt := true, unknown := true } }))).map
      (fun b => b.cfgRead Params.default 0x001) = some 0x00000201 := by decide +kernel

theorem test_write_nch :
    [2, 0, 17, 0x30].map (fun w => (wrote 0x002 w).map fun b => (b.nch.toNat, b.sticky.cfgErr)) =
      [some (2, false), some (1, true), some (1, true), some (16, false)] := by decide +kernel

theorem test_write_cat :
    ((wrote 0x109 0x80010308).map fun b => (b.cat.entry 0x09, b.sticky.cfgErr)) =
      some ({ known := true, kind := .perChannel, sg := false, fwm1 := 3, len := 8 }, false) ∧
    ((wrote 0x103 0x00030000).map fun b => (decide (b.cat.entry 0x03 = Config.refcat.entry 0x03), b.sticky.cfgErr)) =
      some (true, true) := by decide +kernel

theorem test_write_read_only :
    (wrote 0x004 0).map (fun b => (b.corruptCnt, b.sticky.cfgErr)) = some (0, true) := by decide +kernel

theorem test_write_lut :
    (wrote 0x042 0x00000001).map (fun b => (b.lut[0].valid, b.lut[0].qty, b.lut[1].valid)) =
      some (true, 0, false) := by decide +kernel

theorem test_flush :
    (after (fire (.host (.cfgWrite 0x000 0x00000011)) (fed [0x06, 1, 2]))).map
      (fun b => (b.buf, b.pos, b.run, b.sticky.cfgErr)) = some ([], 3, true, false) := by decide +kernel

theorem test_frm_pop :
    (after (fire (.host .frmPop) (State.reset.setBlk { State.reset.blk with
      frmq := [⟨0x01, [0xDE, 0xAD, 0xBE, 0xEF]⟩, ⟨0x04, [0x12, 0x34]⟩] }))).map (fun b => b.frmq) =
      some [⟨0x04, [0x12, 0x34]⟩] := by decide +kernel

/-! ## Witnesses: states and operands that meet the hypotheses of the statements, all together -/

/-- One valid frame for each of the eight codes, under the default parameters (42_commands.md). -/
def eight : List Instr :=
  [.welcome [0x50, 0x4D, 0x44] 0xE1, .readDeviceId [0xDE, 0xAD, 0xBE, 0xEF] 0x39,
    .readSensors [0xE8, 0x03, 0xD0, 0x07] 0xC4, .readValues [0x0A, 0x00, 0x14, 0x00] 0x21,
    .readConfig [0x12, 0x34] 0x4A, .readAdcBuffer [1, 0, 2, 0, 3, 0, 4, 0, 5, 0, 6, 0] 0x1B,
    .writeConfigContinuousTx [0x01] 0x08, .writeConfigUart [] 0x08]

theorem eight_described : ∀ i ∈ eight, i.wellFormed Config.refcat = true ∧
    ckFn .sum8 (i.code :: i.payload) = i.cksum := by decide +kernel

theorem atHead_fed (i : Instr) (h : i ∈ eight) : AtHead (fed (encode i ++ [0x05])) i [0x05] :=
  ⟨rfl, (eight_described i h).1⟩

theorem atHead_wired (r : Route) (i : Instr) (h : i ∈ eight) : AtHead (wired r (encode i ++ [0x05])) i [0x05] :=
  ⟨rfl, (eight_described i h).1⟩

theorem witness_DecodeOfEncodeIsTheFrame : ∀ i ∈ eight, i.wellFormed Config.refcat = true :=
  fun i h => (eight_described i h).1

theorem witness_DecodedFrameIsTheBytesRead :
    decode Config.refcat [0x08, 0x08, 0x05] = .ok (.writeConfigUart [] 0x08, [0x05]) := rfl

/-- The machine with an order of turns, bytes still offered, and host operations still to come. -/
def awaiting (s : State) (turns : List Agent) (src : List Byte) (ops : List HostOp) : State :=
  s.setEnv { s.env with turns := turns, src := src, ops := ops }

/-- The wired machine that holds a frame in CF and a valid frame at the head of BUF. -/
def bothReady (r : Route) : State :=
  (wired r [0x08, 0x08]).setBlk { (wired r [0x08, 0x08]).blk with cf := some ⟨0x02, [0xE8, 0x03, 0xD0, 0x07], 0⟩ }

theorem witness_StepRunsTheFrameAtTheHead :
    (decode Config.refcat [0x08, 0x08] = .ok (.writeConfigUart [] 0x08, []) ∧
      (Instr.writeConfigUart [] 0x08).wellFormed Config.refcat = true) ∧
    ((awaiting (fed [0x08, 0x08]) [.scan] [] []).env.turns = .scan :: []) ∧
    ((fed [0x08, 0x08]).env.turns = [] ∧ (fed [0x08, 0x08]).blk.convReady Params.default = false) ∧
    ((bothReady .split).env.turns = [] ∧ (bothReady .split).blk.convReady Params.default = true ∧
      (bothReady .split).blk.scanReady Params.default = true) ∧
    ((bothReady .all).blk.convReady Params.default = true ∧
      (bothReady .all).blk.scanReady Params.default = false) := by
  refine ⟨⟨rfl, by decide +kernel⟩, rfl, ⟨rfl, by decide +kernel⟩, ⟨rfl, ?_, ?_⟩, ?_, ?_⟩ <;> decide +kernel

theorem witness_EveryEnabledTransitionCanBeNext :
    enabled (.rx 0xFF) (fed []) = true ∧ enabled .scan (fed [0x05]) = true ∧
    enabled .conv (bothReady .split) = true ∧ enabled (.host .reset) (fed []) = true ∧
    enabled .smpPop (State.reset.setBlk { State.reset.blk with smpq := [⟨0, .err .length 3 4⟩] }) = true := by
  decide +kernel

theorem witness_DisabledTurnPasses :
    (awaiting State.reset [.src] [0x05] []).env.turns = .src :: [] ∧
    (offer .src (awaiting State.reset [.src] [0x05] [])).isSome = true ∧
    enabled (.rx 0x05) (awaiting State.reset [.src] [0x05] []) = false ∧
    (offer .host (awaiting State.reset [.host] [] [.frmPop])).isSome = true ∧
    enabled (.host .frmPop) (awaiting State.reset [.host] [] [.frmPop]) = false := by decide +kernel

theorem witness_ValidFrameEntersTheFrameQueue : ∀ i ∈ eight,
    AtHead (fed (encode i ++ [0x05])) i [0x05] ∧ ckFn .sum8 (i.code :: i.payload) = i.cksum ∧
      (fed (encode i ++ [0x05])).blk.routesToFrmq i.code ∧ (fed (encode i ++ [0x05])).blk.frmq.length < 4 :=
  fun i h => ⟨atHead_fed i h, (eight_described i h).2, .inl rfl, Nat.zero_lt_succ 3⟩

theorem witness_ValidFrameEntersTheConverter : ∀ i ∈ eight,
    AtHead (wired .all (encode i ++ [0x05])) i [0x05] ∧ ckFn .sum8 (i.code :: i.payload) = i.cksum ∧
      (wired .all (encode i ++ [0x05])).blk.routesToConv i.code ∧
      (wired .all (encode i ++ [0x05])).blk.cf = none :=
  fun i h => ⟨atHead_wired .all i h, (eight_described i h).2, .inl rfl, rfl⟩

theorem witness_DamagedFrameLosesItsHeadByte :
    AtHead (fed [0x03, 0x0A, 0x00, 0x14, 0x00, 0xFF]) (.readValues [0x0A, 0x00, 0x14, 0x00] 0xFF) [] ∧
    ckFn .sum8 [0x03, 0x0A, 0x00, 0x14, 0x00] ≠ 0xFF := ⟨⟨rfl, by decide +kernel⟩, by decide +kernel⟩

/-- The fed machine with FRMQ full. -/
def clogged (bytes : List Byte) : State :=
  (fed bytes).setBlk { (fed bytes).blk with frmq := List.replicate 4 ⟨0x08, []⟩ }

theorem witness_ValidFrameWaitsForRoom :
    (AtHead (clogged [0x08, 0x08]) (.writeConfigUart [] 0x08) [] ∧ ckFn .sum8 [0x08] = 0x08 ∧
      (clogged [0x08, 0x08]).blk.routesToFrmq 0x08 ∧ 4 ≤ (clogged [0x08, 0x08]).blk.frmq.length) ∧
    (AtHead (bothReady .all) (.writeConfigUart [] 0x08) [] ∧ (bothReady .all).blk.routesToConv 0x08 ∧
      (bothReady .all).blk.cf ≠ none) :=
  ⟨⟨⟨rfl, by decide +kernel⟩, by decide +kernel, .inl rfl, by decide +kernel⟩,
    ⟨rfl, by decide +kernel⟩, .inl rfl, by decide +kernel⟩

theorem witness_FrameChangesNoConfiguration :
    ∃ t, exec (.writeConfigUart [] 0x08) (fed [0x08, 0x08]) = .next t := ⟨_, rfl⟩

theorem witness_NonValueFrameUnderAllYieldsAnErrorRecord :
    ∀ i ∈ [Instr.welcome [0x50, 0x4D, 0x44] 0xE1, .readDeviceId [0xDE, 0xAD, 0xBE, 0xEF] 0x39,
        .readConfig [0x12, 0x34] 0x4A, .writeConfigContinuousTx [0x01] 0x08, .writeConfigUart [] 0x08],
      AtHead (wired .all (encode i ++ [0x05])) i [0x05] ∧ ckFn .sum8 (i.code :: i.payload) = i.cksum ∧
        (Config.refcat.entry i.code).kind = .nonvalue ∧ (wired .all (encode i ++ [0x05])).blk.route = .all ∧
        (wired .all (encode i ++ [0x05])).blk.cf = none ∧
        (wired .all (encode i ++ [0x05])).blk.smpq.length < 16 := by
  have h : ∀ i ∈ [Instr.welcome [0x50, 0x4D, 0x44] 0xE1, .readDeviceId [0xDE, 0xAD, 0xBE, 0xEF] 0x39,
      .readConfig [0x12, 0x34] 0x4A, .writeConfigContinuousTx [0x01] 0x08, .writeConfigUart [] 0x08],
      i ∈ eight ∧ (Config.refcat.entry i.code).kind = .nonvalue := by decide +kernel
  exact fun i hi => ⟨atHead_wired .all i (h i hi).1, (eight_described i (h i hi).1).2, (h i hi).2, rfl, rfl,
    Nat.zero_lt_succ 15⟩

theorem wired_descriptorsValid (r : Route) (bytes : List Byte) : (wired r bytes).blk.descriptorsValid := by
  have h : ∀ j < 2, (lutAt (Vector.replicate 16 { valid := true, qty := 0, scale := 0x00010000, offset := 0 })
    j).valid = true := by decide +kernel
  exact h

theorem witness_PerChannelFrameYieldsOneSample :
    ∀ i ∈ [Instr.readSensors [0xE8, 0x03, 0xD0, 0x07] 0xC4, .readValues [0x0A, 0x00, 0x14, 0x00] 0x21],
      AtHead (wired .split (encode i ++ [0x05])) i [0x05] ∧ ckFn .sum8 (i.code :: i.payload) = i.cksum ∧
        (Config.refcat.entry i.code).kind = .perChannel ∧ i.payload.length = 2 * (Config.refcat.entry i.code).fw ∧
        (wired .split (encode i ++ [0x05])).blk.nch.toNat = 2 ∧
        (wired .split (encode i ++ [0x05])).blk.route = .split ∧
        (wired .split (encode i ++ [0x05])).blk.cf = none ∧
        (wired .split (encode i ++ [0x05])).blk.smpq.length < 16 ∧
        (wired .split (encode i ++ [0x05])).blk.descriptorsValid := by
  have h : ∀ i ∈ [Instr.readSensors [0xE8, 0x03, 0xD0, 0x07] 0xC4, .readValues [0x0A, 0x00, 0x14, 0x00] 0x21],
      i ∈ eight ∧ (Config.refcat.entry i.code).kind = .perChannel ∧
        i.payload.length = 2 * (Config.refcat.entry i.code).fw := by decide +kernel
  exact fun i hi => ⟨atHead_wired .split i (h i hi).1, (eight_described i (h i hi).1).2, (h i hi).2.1, (h i hi).2.2,
    rfl, rfl, rfl, Nat.zero_lt_succ 15, wired_descriptorsValid .split _⟩

theorem witness_BatchFrameYieldsItsSamplesInOrder :
    let s := awaiting (wired .split [0x06, 1, 0, 2, 0, 3, 0, 4, 0, 5, 0, 6, 0, 0x1B]) [.conv, .conv, .conv, .sink] [] []
    AtHead s (.readAdcBuffer [1, 0, 2, 0, 3, 0, 4, 0, 5, 0, 6, 0] 0x1B) [] ∧
    ckFn s.par.ck [0x06, 1, 0, 2, 0, 3, 0, 4, 0, 5, 0, 6, 0] = 0x1B ∧ (s.blk.cat.entry 0x06).kind = .batch ∧
    s.blk.route = .split ∧ s.blk.cf = none ∧ 1 ≤ s.blk.nch.toNat ∧
    12 = 3 * (s.blk.nch.toNat * (s.blk.cat.entry 0x06).fw) ∧ s.blk.descriptorsValid ∧
    s.blk.smpq.length + 3 ≤ s.par.smpqDepth ∧ s.env.turns = List.replicate 3 .conv ++ [.sink] :=
  ⟨⟨rfl, by decide +kernel⟩, by decide +kernel, by decide +kernel, rfl, rfl, by decide +kernel, by decide +kernel,
    wired_descriptorsValid .split _, by decide +kernel, rfl⟩

/-! The scan -/

theorem witness_LaterBytesChangeNoDecision :
    (scanOutcome .sum8 Config.refcat [0x05]).waiting = false ∧
    (scanOutcome .sum8 Config.refcat [0x08, 0x09]).waiting = false ∧
    (scanOutcome .sum8 Config.refcat [0x08, 0x08]).waiting = false := by decide +kernel

theorem inv_of {par : Params} {b : Block} {e : Env} (hp : par.legal) (hb : b.buf.length ≤ par.bufCap)
    (hf : b.frmq.length ≤ par.frmqDepth) (hs : b.smpq.length ≤ par.smpqDepth) (hc : b.cf = none)
    (hn : 1 ≤ b.nch.toNat ∧ b.nch.toNat ≤ par.nchMax) (hl : b.cat.lenLegal par.lenMax)
    (hr : ∀ r ∈ b.frmq, r.payload.length ≤ par.lenMax) : Inv { par := par, blk := b, env := e } :=
  ⟨hp, hb, hf, hs, fun f hf => by rw [show b.cf = some f from hf] at hc; contradiction, hn, hl, hr⟩

theorem inv_fed (bytes : List Byte) (h : bytes.length ≤ 256) : Inv (fed bytes) :=
  inv_of test_default_params_legal h (Nat.zero_le 4) (Nat.zero_le 16) rfl ⟨Nat.le_refl 1, Nat.le_add_left 1 15⟩
    refcat_lenLegal (fun _ hr => nomatch hr)

theorem witness_FullBufferIsNeverIncomplete :
    Inv (fed (List.replicate 256 0x06)) ∧ (fed (List.replicate 256 0x06)).blk.buf.length = Params.default.bufCap :=
  ⟨inv_fed (List.replicate 256 0x06) (by decide +kernel), by decide +kernel⟩

theorem witness_InSyncStreamYieldsItsFrames :
    (∀ f ∈ [FrameRec.mk 0x08 []], f.described Config.refcat) ∧
    (let s := awaiting (fed [0x08]) [.src, .scan] [0x08] [.frmPop]
     s.blk.buf ++ s.env.src = [FrameRec.mk 0x08 []].flatMap (fun f => senderFrame s.par.ck f.code f.payload) ∧
     (∀ op ∈ s.env.ops, op.harmless = true) ∧
     ∃ s', runsTo 2 s s' ∧ s'.env.src = [] ∧ (s'.blk.outcome s'.par).waiting = true) :=
  ⟨by decide +kernel, rfl, by decide, _, rfl, rfl, rfl⟩

theorem witness_CleanGapsResynchronise :
    cleanStream .sum8 Config.refcat [([0xAA], ⟨0x08, []⟩), ([0x55, 0x05], ⟨0x04, [0x12, 0x34]⟩)] [0x06] := by
  have u : ∀ (c : Byte) (rest : List Byte), (Config.refcat.entry c).known = false →
      scanOutcome .sum8 Config.refcat (c :: rest) = .unknown c := by
    intro c rest h
    simp [scanOutcome, h]
  refine ⟨by decide +kernel, ⟨⟨0xAA, .inl (u _ _ (by decide +kernel))⟩, trivial⟩, by decide +kernel,
    ⟨⟨0x55, .inl (u _ _ (by decide +kernel))⟩, ⟨0x05, .inl (u _ _ (by decide +kernel))⟩, trivial⟩, trivial⟩

/-- A byte is taken in and rejected, while the host has a pop to come (ROUTE = BYPASS). -/
theorem witness_ScanIsIndependentOfInterleaving :
    let s := awaiting (fed []) [.src, .scan] [0x05] [.frmPop]
    ∃ s', runsTo 2 s s' ∧ (∀ op ∈ s.env.ops, op.harmless = true) ∧ s'.env.src = [] ∧
      (s'.blk.outcome s'.par).waiting = true :=
  ⟨_, rfl, by decide, rfl, rfl⟩

theorem witness_PolledFramesKeepStreamOrder :
    let s := awaiting (fed [0x08]) [.src, .scan] [0x08] [.frmPop]
    ∃ s', runsTo 2 s s' ∧ (∀ op ∈ s.env.ops, op.harmless = true) ∧ s.blk.route = .bypass ∧ s'.env.src = [] ∧
      (s'.blk.outcome s'.par).waiting = true :=
  ⟨_, rfl, by decide, rfl, rfl, rfl⟩

theorem witness_SenderFrameIsValid : (Config.refcat.entry 0x04).known = true ∧
    ([0x12, 0x34] : List Byte).length = (Config.refcat.entry 0x04).len.toNat := by decide +kernel

/-- A payload byte and the checksum byte of a `ReadValues` frame, under each of the three instances. -/
theorem witness_SingleByteErrorIsDetected :
    (0x0A : Byte) ≠ 0x0B ∧
    ([] ++ 0x0A :: [0x00, 0x14, 0x00, 0x21] : List Byte).length = (Config.refcat.entry 0x03).len.toNat + 1 ∧
    scanOutcome .sum8 Config.refcat (0x03 :: ([] ++ 0x0A :: [0x00, 0x14, 0x00, 0x21] ++ [])) =
      .frame 0x03 [0x0A, 0x00, 0x14, 0x00] ∧
    scanOutcome .xor8 Config.refcat (0x03 :: ([0x0A, 0x00, 0x14, 0x00] ++ 0x1D :: [] ++ [])) =
      .frame 0x03 [0x0A, 0x00, 0x14, 0x00] ∧
    scanOutcome (.crc8 Config.crcPoly Config.crcInit) Config.refcat
      (0x03 :: ([0x0A, 0x00, 0x14, 0x00] ++ 0x39 :: [] ++ [])) = .frame 0x03 [0x0A, 0x00, 0x14, 0x00] ∧
    scanOutcome (.crc8 Config.crcPoly 0xFF) Config.refcat
      (0x08 :: ([] ++ ckFn (.crc8 Config.crcPoly 0xFF) [0x08] :: [] ++ [])) = .frame 0x08 [] := by
  decide +kernel

theorem witness_SumAndXorIgnoreOrder : ([0xFF, 0x01] : List Byte).Perm [0x01, 0xFF] := by decide

theorem witness_DegenerateChecksums : (Config.refcat.entry 0x00).known = true ∧
    (Config.refcat.entry 0x08).known = true ∧ (Config.refcat.entry 0x08).len = 0 := by decide +kernel

/-! The converter -/

theorem witness_MemReadAssemblesBytes : 2 + 2 ≤ ([0x0A, 0x00, 0x14, 0x00] : List Byte).length ∧
    ∃ s', step (fed [0x05]) = .next s' := ⟨by decide, _, rfl⟩

theorem inv_holding (r : Route) (c : Byte) (p : List Byte) (h : (Config.refcat.entry c).known = true)
    (hp : p.length = (Config.refcat.entry c).len.toNat) : Inv (holding r ⟨c, p, 0⟩) :=
  ⟨test_default_params_legal, Nat.zero_le 256, Nat.zero_le 4, Nat.zero_le 16,
    fun f hf => by
      obtain rfl : ConvFrame.mk c p 0 = f := Option.some.inj hf
      exact ⟨h, hp, .inl rfl⟩,
    ⟨Nat.le_succ 1, Nat.le_add_left 2 14⟩, refcat_lenLegal, fun _ hr => nomatch hr⟩

theorem witness_RawFieldIsExtended :
    Inv (holding .split ⟨0x03, [0xF6, 0xFF, 0x14, 0x00], 0⟩) ∧
    (holding .split ⟨0x03, [0xF6, 0xFF, 0x14, 0x00], 0⟩).blk.convCause ⟨0x03, [0xF6, 0xFF, 0x14, 0x00], 0⟩ = none ∧
    1 < (holding .split ⟨0x03, [0xF6, 0xFF, 0x14, 0x00], 0⟩).blk.nch.toNat :=
  ⟨inv_holding .split 0x03 [0xF6, 0xFF, 0x14, 0x00] (by decide +kernel) (by decide +kernel), by decide +kernel,
    by decide +kernel⟩

theorem witness_ConversionFitsSixtyFourBits :
    (-655360 : Int) ∈ sampleValues .little 1
      (Vector.replicate 16 { valid := true, qty := 0, scale := 0x00010000, offset := 0 })
      (Config.refcat.entry 0x03) [0xF6, 0xFF] 0 := by decide +kernel

theorem witness_ExtremeOperandTable :
    ∀ sg : Bool, ∃ e : CatEntry, e.kind = .perChannel ∧ e.fwm1 = 3 ∧ e.sg = sg :=
  fun sg => ⟨⟨true, .perChannel, sg, 3, 4⟩, rfl, rfl, rfl⟩

/-- The holding machine with another number of channels and table. -/
def strained (n : BitVec 5) (d : LutEntry) (f : ConvFrame) : State :=
  (holding .all f).setBlk { (holding .all f).blk with nch := n, lut := Vector.replicate 16 d }

/-- CF holds a frame at index 0 and CONV is enabled, in each of the five states below. -/
theorem strained_hypotheses (n : BitVec 5) (c : Byte) (p : List Byte) :
    (strained n LutEntry.zero ⟨c, p, 0⟩).blk.cf = some ⟨c, p, 0⟩ ∧ (ConvFrame.mk c p 0).k = 0 ∧
      enabled .conv (strained n LutEntry.zero ⟨c, p, 0⟩) = true := ⟨rfl, rfl, rfl⟩

/-- One number of channels and payload for each of the five ways into a DecodeError (no descriptor loaded). -/
theorem witness_ConvertErrorCauses :
    Cause.notValue.code = 1 ∧ Cause.length.code = 2 ∧ Cause.noDescriptor.code = 3 ∧
    (Config.refcat.entry 0x01).kind = .nonvalue ∧
    ((Config.refcat.entry 0x03).kind = .perChannel ∧ 4 ≠ 3 * (Config.refcat.entry 0x03).fw) ∧
    ((Config.refcat.entry 0x06).kind = .batch ∧ 12 % (4 * (Config.refcat.entry 0x06).fw) ≠ 0) ∧
    (4 = 2 * (Config.refcat.entry 0x03).fw ∧ (1 < (strained 2 LutEntry.zero ⟨0x03, [1, 2, 3, 4], 0⟩).blk.nch.toNat ∧
      (lutAt (strained 2 LutEntry.zero ⟨0x03, [1, 2, 3, 4], 0⟩).blk.lut 1).valid = false)) ∧
    (12 % (6 * (Config.refcat.entry 0x06).fw) = 0 ∧
      (5 < (strained 6 LutEntry.zero ⟨0x06, [], 0⟩).blk.nch.toNat ∧
        (lutAt (strained 6 LutEntry.zero ⟨0x06, [], 0⟩).blk.lut 5).valid = false)) := by decide +kernel

/-- At index 0 for both kinds, and at a later index. -/
theorem witness_ConvertPushesOneSample :
    (enabled .conv (holding .split ⟨0x03, [1, 0, 2, 0], 0⟩) = true ∧
      (Config.refcat.entry 0x03).kind = .perChannel ∧ 4 = 2 * (Config.refcat.entry 0x03).fw) ∧
    (enabled .conv (holding .split ⟨0x06, [1, 0, 2, 0, 3, 0, 4, 0, 5, 0, 6, 0], 0⟩) = true ∧
      (Config.refcat.entry 0x06).kind = .batch ∧ 12 % (2 * (Config.refcat.entry 0x06).fw) = 0) ∧
    (holding .split ⟨0x06, [], 0⟩).blk.descriptorsValid ∧
    (enabled .conv (holding .split ⟨0x06, [1, 0, 2, 0, 3, 0, 4, 0, 5, 0, 6, 0], 2⟩) = true ∧ 2 ≠ 0) :=
  ⟨by decide +kernel, by decide +kernel, wired_descriptorsValid .split [], by decide +kernel⟩

theorem witness_PopsReturnTheHead :
    (clogged []).blk.frmq = ⟨0x08, []⟩ :: List.replicate 3 ⟨0x08, []⟩ ∧
    ((fed []).setBlk { (fed []).blk with smpq := [⟨0, .err .length 3 4⟩] }).blk.smpq = ⟨0, .err .length 3 4⟩ :: [] :=
  ⟨rfl, rfl⟩

/-! The host -/

theorem witness_ConfigReadWords :
    (fed [0x06]).blk.buf.length < 512 ∧ (fed [0x06]).blk.frmq.length < 256 ∧ (fed [0x06]).blk.smpq.length < 256 ∧
    Params.default.nchMax ≤ 16 ∧ (15 : Fin 16).val < Params.default.nchMax ∧
    unmappedIndex Params.default 0x00A ∧ unmappedIndex Params.default 0x07F ∧
    unmappedIndex Params.default 0x0FF ∧ unmappedIndex Params.default 0x200 := by decide +kernel

theorem witness_ReadOnlyAndUnmappedWritesAreRefused :
    readOnlyIndex (0x003 : CfgIndex).toNat ∧ readOnlyIndex (0x009 : CfgIndex).toNat ∧
    unmappedIndex Params.default (0x00A : CfgIndex).toNat ∧ unmappedIndex Params.default (0xFFFF : CfgIndex).toNat ∧
    unmappedIndex { Params.default with nchMax := 2 } (0x048 : CfgIndex).toNat := by decide +kernel

/-- Repeating both while locked; changing both while unlocked; changing while locked; the reserved route. -/
theorem witness_ControlWriteInThreeParts :
    ((0x00000000 : Word).getLsbD 4 = false ∧ (0 : Word).extractLsb' 1 2 = (fed []).blk.route.bits ∧
      (0 : Word).getLsbD 3 = (fed []).blk.policy.bit) ∧
    ((0x0000000D : Word).getLsbD 4 = false ∧ (0x0000000D : Word).extractLsb' 1 2 ≠ State.reset.blk.route.bits ∧
      (0x0000000D : Word).extractLsb' 1 2 = Route.all.bits ∧
      State.reset.blk.unlocked Params.default = true) ∧
    ((0x00000003 : Word).extractLsb' 1 2 ≠ (fed []).blk.route.bits ∧
      (fed []).blk.unlocked Params.default = false) ∧
    (0x00000006 : Word).extractLsb' 1 2 = 3 := by decide +kernel

theorem witness_FlushDiscardsWhatIsInside :
    (0x00000013 : Word).getLsbD 4 = true ∧
    ∃ t, fire (.host (.cfgWrite 0x000 (0x00000013 &&& 0xFFFFFFEF))) (fed [0x06, 1]) = .next t := ⟨by decide, _, rfl⟩

theorem witness_DescriptorWriteReadsBack :
    (15 : Fin 16).val < Params.default.nchMax ∧ State.reset.blk.unlocked Params.default = true ∧
    (fed []).blk.unlocked Params.default = false := by decide +kernel

/-- A legal word with LEN = LEN_MAX; one with the reserved KIND; one with LEN above LEN_MAX. -/
theorem witness_CatalogWriteReadsBack :
    (State.reset.blk.unlocked Params.default = true ∧ (0x800013FE : Word).extractLsb' 16 2 ≠ 3 ∧
      ((0x800013FE : Word).extractLsb' 0 8).toNat ≤ Params.default.lenMax) ∧
    (0x00030000 : Word).extractLsb' 16 2 = 3 ∧
    ¬ ((0x800000FF : Word).extractLsb' 0 8).toNat ≤ Params.default.lenMax := by decide +kernel

theorem witness_OnlyRefusedWritesSetConfigError :
    State.reset.blk.sticky.cfgErr = false ∧ refusedWrite Params.default State.reset.blk 0x009 0 ∧
    (∃ t, fire (.host (.cfgWrite 0x009 0)) State.reset = .next t) :=
  ⟨rfl, .inr (.inr (.inr (.inr (.inl (by decide))))), _, rfl⟩

theorem witness_LockedConfigurationStays :
    (fed []).blk.unlocked Params.default = false ∧ Transition.host (.cfgWrite 0x002 2) ≠ .host .reset ∧
    ∃ t, fire (.host (.cfgWrite 0x002 2)) (fed []) = .next t := ⟨by decide +kernel, by decide, _, rfl⟩

theorem witness_OnlyTheHostConfigures :
    (∀ i w, Transition.scan ≠ .host (.cfgWrite i w)) ∧ Transition.scan ≠ .host .reset ∧
    ∃ t, fire .scan (fed [0x05]) = .next t := ⟨(fun _ _ h => nomatch h), by decide, _, rfl⟩

theorem witness_UnlockedBlockIsQuiet :
    (State.reset.setBlk { State.reset.blk with buf := [0x06] }).blk.unlocked Params.default = true ∧
    ∃ t, step (awaiting (State.reset.setBlk { State.reset.blk with buf := [0x06] }) [.src] [0x05] []) = .next t :=
  ⟨by decide +kernel, _, rfl⟩

/-! Flags, counters, invariants -/

theorem witness_StickyFlagsStaySet :
    enabled .scan ((fed [0x05]).setBlk { (fed [0x05]).blk with sticky := ⟨true, true, true, true, true⟩ }) = true ∧
    Transition.scan ≠ .host .reset ∧
    ∃ t, fire .scan ((fed [0x05]).setBlk { (fed [0x05]).blk with sticky := ⟨true, true, true, true, true⟩ }) =
      .next t := ⟨by decide +kernel, by decide, _, rfl⟩

/-- The holding machine with SMPQ full, under DROP_OLDEST. -/
def crowded : State :=
  (holding .all ⟨0x08, [], 0⟩).setBlk { (holding .all ⟨0x08, [], 0⟩).blk with
    smpq := List.replicate 16 ⟨0, .err .length 3 4⟩ }

/-- Every counter has an enabled transition that is its event. -/
theorem witness_EachCounterCountsItsEvent :
    (enabled .scan (fed [0x08, 0x09]) = true ∧ (fed [0x08, 0x09]).blk.outcome Params.default = .badck 0x08) ∧
    (enabled .scan (fed [0x05]) = true ∧ (fed [0x05]).blk.outcome Params.default = .unknown 0x05) ∧
    (enabled .scan (fed [0x08, 0x08]) = true ∧ (fed [0x08, 0x08]).blk.outcome Params.default = .frame 0x08 []) ∧
    (enabled .conv (holding .all ⟨0x08, [], 0⟩) = true ∧
      (holding .all ⟨0x08, [], 0⟩).blk.convCause ⟨0x08, [], 0⟩ = some .notValue) ∧
    (enabled .conv crowded = true ∧ crowded.blk.smpq.length = crowded.par.smpqDepth) := by decide +kernel

theorem witness_BytesAreConserved :
    (∃ t, fire (.rx 0x05) (fed []) = .next t) ∧ (∃ t, fire .scan (fed [0x08, 0x08]) = .next t) ∧
    (∃ t, fire (.host (.cfgWrite 0x000 0x00000010)) (fed [0x06]) = .next t) := ⟨⟨_, rfl⟩, ⟨_, rfl⟩, _, rfl⟩

theorem witness_PushNumbersAndDropsOldest :
    enabled .conv crowded = true ∧ crowded.blk.smpq.length = crowded.par.smpqDepth := by decide +kernel

theorem witness_ResetMeetsTheInvariants : { Params.default with nchMax := 1, smpqDepth := 1 }.legal :=
  ⟨by decide, by decide, by decide, by decide, by decide, refcat_lenLegal, refcat_resetLegal⟩

theorem witness_EveryStepKeepsTheInvariants :
    (Inv (fed [0x08, 0x08]) ∧ ∃ t, step (fed [0x08, 0x08]) = .next t) ∧
    (Params.default.legal ∧
      ∃ t, runsTo 2 ((State.boot Params.default).setEnv
        { Env.silent with turns := [.host, .src], src := [0x05], ops := [.cfgWrite 0x000 0x00000001] }) t) :=
  ⟨⟨inv_fed [0x08, 0x08] (by decide), _, rfl⟩, test_default_params_legal, _, rfl⟩

theorem witness_SequenceNumbersStayConsecutive :
    { (holding .all ⟨0x08, [], 0⟩).blk with
      smpq := [⟨0, .err .length 3 4⟩, ⟨1, .err .length 3 4⟩], seq := 2 }.seqConsecutive ∧
    ∃ t, step ((holding .all ⟨0x08, [], 0⟩).setBlk { (holding .all ⟨0x08, [], 0⟩).blk with
      smpq := [⟨0, .err .length 3 4⟩, ⟨1, .err .length 3 4⟩], seq := 2 }) = .next t := by
  refine ⟨?_, _, rfl⟩
  intro j h
  match j, h with
  | 0, _ => rfl
  | 1, _ => rfl

/-- The fed machine with one sample record queued. -/
def sampled (bytes : List Byte) : State :=
  (fed bytes).setBlk { (fed bytes).blk with smpq := [⟨0, .smp 0x03 0 1 [-655360]⟩], seq := 1 }

theorem witness_QueuedRecordsStayLegal :
    Inv (sampled [0x05]) ∧ (∀ r ∈ (sampled [0x05]).blk.smpq, r.body.legal 16) ∧
    ∃ t, step (sampled [0x05]) = .next t := by
  refine ⟨inv_of test_default_params_legal (by decide) (Nat.zero_le 4) (by decide) rfl
    ⟨Nat.le_refl 1, Nat.le_add_left 1 15⟩ refcat_lenLegal (fun _ hr => nomatch hr), ?_, _, rfl⟩
  intro r hr
  obtain rfl := List.mem_singleton.1 hr
  refine ⟨by decide, by decide, rfl, ?_⟩
  intro x hx
  obtain rfl := List.mem_singleton.1 hx
  constructor <;> decide

/-- An infinite run in which the host keeps acting: SCAN discards the one byte, then the host reads for ever. -/
def polling : Nat → State
  | 0 => fed [0xAA]
  | n + 1 =>
    let s := (fed [0xAA]).setBlk ((fed [0xAA]).blk.reject Params.default (.unknownCommand 0xAA))
    s.setEnv { s.env with words := List.replicate n (s.blk.cfgRead s.par 0x200) }

def pollingPicks : Nat → Option Transition
  | 0 => some .scan
  | _ + 1 => some (.host (.cfgRead 0x200))

theorem polling_rests (n : Nat) :
    enabled .scan (polling (n + 1)) = false ∧ enabled .conv (polling (n + 1)) = false :=
  ⟨(enabled_setEnv .scan _ _).trans (by decide +kernel), (enabled_setEnv .conv _ _).trans (by decide +kernel)⟩

theorem polling_is_fair : fairRun polling pollingPicks := by
  refine ⟨fun n => ?_, fun n h => ?_, fun n h => ?_⟩
  · cases n with
    | zero => exact ⟨{ (polling 0).env with turns := [.scan] }, rfl, by decide +kernel, rfl⟩
    | succ n =>
      refine ⟨{ (polling (n + 1)).env with turns := [.host], ops := [.cfgRead 0x200] }, rfl, rfl, ?_⟩
      simp only [polling, List.replicate_succ']
      rfl
  · exact absurd (h (n + 1) (Nat.le_succ n)) (by simp [polling_rests n])
  · exact absurd (h (n + 1) (Nat.le_succ n)) (by simp [polling_rests n])

/-- The run the machine makes when left to itself. -/
def alone (s : State) : Nat → State
  | 0 => s
  | n + 1 =>
    match step (alone s n) with
    | .next t => t
    | _ => alone s n

theorem witness_SilentBlockComesToRest :
    (Inv (fed [0x05, 0x08, 0x08]) ∧ (fed [0x05, 0x08, 0x08]).env.turns = []) ∧
    (fairRun polling pollingPicks ∧ enabled .scan (polling 0) = true) ∧
    (Inv (alone (fed [0x05, 0x08, 0x08]) 0) ∧
      ∀ n, step (alone (fed [0x05, 0x08, 0x08]) n) = .next (alone (fed [0x05, 0x08, 0x08]) (n + 1))) := by
  refine ⟨⟨inv_fed [0x05, 0x08, 0x08] (by decide), rfl⟩, ⟨polling_is_fair, by decide +kernel⟩,
    inv_fed [0x05, 0x08, 0x08] (by decide), fun n => ?_⟩
  obtain ⟨t, h⟩ := step_next (alone (fed [0x05, 0x08, 0x08]) n)
  rw [alone, h]

end Sys2Proof.Tests
end

section
/-! The two own agents of the block (spec/00_scope.md R9): what an enabled SCAN and an enabled CONV do, said once,
and which transitions keep them enabled. -/

namespace Sys2Proof.Machine

open Sys2Proof

/-! ## What an enabled SCAN does -/

/-- What an enabled SCAN may do to the block as far as progress is concerned: discard bytes, or move one frame from BUF
to the free converter (R115, R117). FRMQ, the counters and the flags are not spoken of. -/
structure Block.ScanEffect (b b' : Block) : Prop where
  nch : b'.nch = b.nch
  cat : b'.cat = b.cat
  smpq : b'.smpq = b.smpq
  policy : b'.policy = b.policy
  moves : (b'.cf = b.cf ∧ b'.buf.length < b.buf.length) ∨
    ∃ c p, b.cf = none ∧ b'.cf = some { code := c, payload := p, k := 0 } ∧
      b'.buf.length + (p.length + 2) = b.buf.length

/-- A reject whose event leaves CF and SMPQ alone, as those of the scan do (R115, R226, R227). -/
theorem Block.scanEffect_reject (par : Params) (e : Event) (b : Block) (hb : b.buf ≠ [])
    (hcf : (b.raise par e).cf = b.cf) (hq : (b.raise par e).smpq = b.smpq) : b.ScanEffect (b.reject par e) := by
  have hl : 0 < b.buf.length := List.length_pos_iff.2 hb
  refine ⟨by simp [Block.reject], by simp [Block.reject], hq, by simp [Block.reject], .inl ⟨hcf, ?_⟩⟩
  simp only [Block.reject, Block.advance_buf, Block.raise_buf, List.length_drop]
  omega

theorem Block.scanEffect_accept (par : Params) (c : Byte) (p : List Byte) (b : Block)
    (hl : p.length + 2 ≤ b.buf.length) (hr : b.room par (b.dest c) = true) : b.ScanEffect (b.accept c p) := by
  refine ⟨by simp, by simp, by simp, by simp, ?_⟩
  cases hd : b.dest c with
  | frmq => exact .inl ⟨by simp [Block.accept, hd, Block.deliver], by simp; omega⟩
  | conv =>
    have hcf : b.cf = none := by simpa [hd, Block.room] using hr
    exact .inr ⟨c, p, hcf, by simp [Block.accept, hd, Block.deliver], by simp; omega⟩

theorem Block.candidate_length {b : Block} {c : Byte} {p : List Byte} {ck : Byte}
    (h : b.isCandidate c p ck = true) : p.length + 2 ≤ b.buf.length := by
  obtain ⟨-, -, behind, hb⟩ := (b.isCandidate_iff c p ck).1 h
  simp [hb]

theorem Block.scanReady_of_candidate (par : Params) {b : Block} {c : Byte} {p : List Byte} {ck : Byte}
    (h : b.isCandidate c p ck = true) :
    b.scanReady par = if ckFn par.ck (c :: p) = ck then b.room par (b.dest c) else true := by
  rw [Block.scanReady, b.outcome_of_candidate par c p ck h]
  by_cases hk : ckFn par.ck (c :: p) = ck <;> simp [hk]

theorem Block.not_waiting_of_scanReady {par : Params} {b : Block} (h : b.scanReady par = true) :
    (b.outcome par).waiting = false := by
  cases ho : b.outcome par <;> simp_all [Block.scanReady, ScanOutcome.waiting]

/-- An enabled SCAN changes the block only, and by one of its effects. -/
theorem fireScan_of_scanReady {s : State} (h : s.blk.scanReady s.par = true) :
    ∃ b, fireScan s = .next (s.setBlk b) ∧ s.blk.ScanEffect b := by
  rcases fireScan_cases s with ⟨hw, -⟩ | ⟨c, -, hb, hf⟩ | ⟨c, p, ck, hc, hf⟩
  · rw [Block.not_waiting_of_scanReady h] at hw
    contradiction
  · have hne : s.blk.buf ≠ [] := by rintro h0; simp [h0] at hb
    exact ⟨_, hf, s.blk.scanEffect_reject s.par _ hne rfl rfl⟩
  · refine ⟨_, hf, ?_⟩
    have hl := Block.candidate_length hc
    rcases s.blk.scanFrame_cases s.par c p ck with ⟨-, -, hr, he⟩ | ⟨-, -, he⟩ | ⟨hno | ⟨hk, hr⟩, -⟩
    · exact he ▸ s.blk.scanEffect_accept s.par c p hl hr
    · exact he ▸ s.blk.scanEffect_reject s.par _ (List.ne_nil_of_length_pos (by omega)) rfl rfl
    · rw [hno] at hc
      contradiction
    · rw [Block.scanReady_of_candidate s.par hc, if_pos hk, hr] at h
      contradiction

/-! ## What a CONV does -/

@[simp] theorem Block.convert_buf (par : Params) (f : ConvFrame) (b : Block) :
    (b.convert par f).buf = b.buf := by
  rcases b.convert_cases par f with ⟨_, -, -, h⟩ | ⟨-, h⟩ <;> simp [h]
@[simp] theorem Block.convert_frmq (par : Params) (f : ConvFrame) (b : Block) :
    (b.convert par f).frmq = b.frmq := by
  rcases b.convert_cases par f with ⟨_, -, -, h⟩ | ⟨-, h⟩ <;> simp [h]
@[simp] theorem Block.convert_route (par : Params) (f : ConvFrame) (b : Block) :
    (b.convert par f).route = b.route := by
  rcases b.convert_cases par f with ⟨_, -, -, h⟩ | ⟨-, h⟩ <;> simp [h]
@[simp] theorem Block.convert_nch (par : Params) (f : ConvFrame) (b : Block) :
    (b.convert par f).nch = b.nch := by
  rcases b.convert_cases par f with ⟨_, -, -, h⟩ | ⟨-, h⟩ <;> simp [h]
@[simp] theorem Block.convert_cat (par : Params) (f : ConvFrame) (b : Block) :
    (b.convert par f).cat = b.cat := by
  rcases b.convert_cases par f with ⟨_, -, -, h⟩ | ⟨-, h⟩ <;> simp [h]

theorem Block.sampleBytes_pos {b : Block} (h : 1 ≤ b.nch.toNat) (e : CatEntry) : 0 < b.sampleBytes e :=
  Nat.mul_pos h (fw_pos e)

/-- The number of samples in the frame `f` (R172, R176). -/
def Block.sampleCount (b : Block) (f : ConvFrame) : Nat :=
  f.payload.length / b.sampleBytes (b.cat.entry f.code)

theorem Block.sampleCount_le (b : Block) (f : ConvFrame) : b.sampleCount f ≤ f.payload.length :=
  Nat.div_le_self _ _

/-- The part of R53 (b) and (c) that keeps a conversion finite: there is a channel, and the index of a frame under
conversion is one of its samples. -/
structure Block.Convertible (b : Block) : Prop where
  nch : 1 ≤ b.nch.toNat
  cf : ∀ f, b.cf = some f → f.k = 0 ∨ f.k < b.sampleCount f

theorem Inv.convertible {s : State} (h : Inv s) : s.blk.Convertible := by
  refine ⟨h.nch.1, fun f hf => ?_⟩
  obtain ⟨-, -, hk⟩ := h.cf f hf
  exact hk.imp_right And.right

/-- A frame without a cause for refusal has a sample at its index: a payload of one sample, or of several, at the
first, and what `Convertible` says at a later one. -/
theorem Block.Convertible.index_lt {b : Block} (h : b.Convertible) {f : ConvFrame} (hf : b.cf = some f)
    (hc : b.convCause f = none) : f.k < b.sampleCount f := by
  rcases h.cf f hf with hk | hk
  · have hpos := Block.sampleBytes_pos h.nch (b.cat.entry f.code)
    rw [hk]
    refine Nat.div_pos ?_ hpos
    cases hkind : (b.cat.entry f.code).kind with
    | nonvalue => simp [Block.convCause, hk, hkind] at hc
    | perChannel =>
      by_contra hlt
      have hne : f.payload.length ≠ b.sampleBytes (b.cat.entry f.code) := by omega
      simp [Block.convCause, hk, hkind, badLength, hne] at hc
    | batch =>
      by_contra hlt
      have hmod := Nat.mod_eq_of_lt (Nat.not_le.1 hlt)
      by_cases h0 : f.payload.length = 0 <;> simp [Block.convCause, hk, hkind, badLength, hmod, h0] at hc
  · exact hk

/-- CF after a CONV: empty, or the same frame at its next sample (R173 to R176). -/
theorem Block.Convertible.convert_cf {b : Block} (h : b.Convertible) (par : Params) {f : ConvFrame}
    (hf : b.cf = some f) :
    f.k ≤ f.payload.length ∧ ((b.convert par f).cf = none ∨
      ((b.convert par f).cf = some { f with k := f.k + 1 } ∧ f.k + 1 < b.sampleCount f)) := by
  rcases b.convert_cases par f with ⟨cause, -, hk, he⟩ | ⟨hc, he⟩
  · exact ⟨by omega, .inl (by rw [he, Block.raise_decodeError])⟩
  · have hlt := h.index_lt hf hc
    refine ⟨hlt.le.trans (b.sampleCount_le f), ?_⟩
    by_cases hlast : f.k + 1 = b.sampleCount f
    · exact .inl (by rw [he]; exact if_pos hlast)
    · exact .inr ⟨by rw [he]; exact if_neg hlast, by omega⟩

/-! ## What the two pops do -/

@[simp] theorem fireFrmPop_blk (s : State) : (fireFrmPop s).blk = { s.blk with frmq := s.blk.frmq.tail } := by
  cases hq : s.blk.frmq with
  | nil =>
    simp only [fireFrmPop, hq, List.tail_nil]
    rw [← hq]
  | cons r rest => simp [fireFrmPop, hq]
@[simp] theorem fireFrmPop_par (s : State) : (fireFrmPop s).par = s.par := by
  cases hq : s.blk.frmq <;> simp [fireFrmPop, hq]
@[simp] theorem fireFrmPop_turns (s : State) : (fireFrmPop s).env.turns = s.env.turns := by
  cases hq : s.blk.frmq <;> simp [fireFrmPop, hq]
@[simp] theorem fireSmpPop_blk (s : State) : (fireSmpPop s).blk = { s.blk with smpq := s.blk.smpq.tail } := by
  cases hq : s.blk.smpq with
  | nil =>
    simp only [fireSmpPop, hq, List.tail_nil]
    rw [← hq]
  | cons r rest => simp [fireSmpPop, hq]
@[simp] theorem fireSmpPop_par (s : State) : (fireSmpPop s).par = s.par := by
  cases hq : s.blk.smpq <;> simp [fireSmpPop, hq]
@[simp] theorem fireSmpPop_turns (s : State) : (fireSmpPop s).env.turns = s.env.turns := by
  cases hq : s.blk.smpq <;> simp [fireSmpPop, hq]

/-! ## Which transitions keep an own agent enabled -/

/-- The transitions of the host that can take its readiness from an own agent (R186, R245). -/
def Transition.interrupts (u : Transition) : Prop := (∃ i w, u = .host (.cfgWrite i w)) ∨ u = .host .reset

theorem Block.convReady_iff (par : Params) (b : Block) :
    b.convReady par = true ↔
      b.cf.isSome = true ∧ (b.smpq.length < par.smpqDepth ∨ b.policy = .dropOldest) := by
  simp [Block.convReady]

/-- CONV stays enabled while CF stays full and SMPQ does not grow (R172). -/
theorem Block.convReady_mono {par : Params} {b b' : Block} (hcf : b.cf.isSome = true → b'.cf.isSome = true)
    (hq : b'.smpq.length ≤ b.smpq.length) (hp : b'.policy = b.policy) (h : b.convReady par = true) :
    b'.convReady par = true := by
  rw [Block.convReady_iff] at h ⊢
  exact ⟨hcf h.1, h.2.imp (fun hl => Nat.lt_of_le_of_lt hq hl) (fun hd => hp.trans hd)⟩

/-- SCAN stays enabled while the scan outcome stays and the destination keeps its room (R118). -/
theorem Block.scanReady_mono {par : Params} {b b' : Block} (ho : b'.outcome par = b.outcome par)
    (hr : ∀ c, b.room par (b.dest c) = true → b'.room par (b'.dest c) = true) (h : b.scanReady par = true) :
    b'.scanReady par = true := by
  unfold Block.scanReady at h ⊢
  rw [ho]
  cases hb : b.outcome par with
  | waitEmpty => simp [hb] at h
  | waitMore => simp [hb] at h
  | unknown c => rfl
  | badck c => rfl
  | frame c p =>
    rw [hb] at h
    exact hr c h

/-- Bytes that arrive behind them change no scan decision (R73). -/
theorem scanOutcome_append (ck : Checksum) (cat : Catalog) (bytes more : List Byte)
    (h : (scanOutcome ck cat bytes).waiting = false) :
    scanOutcome ck cat (bytes ++ more) = scanOutcome ck cat bytes := by
  rcases scanOutcome_cases ck cat bytes with
    ⟨-, ho⟩ | ⟨c, rest, rfl, hk, ho⟩ | ⟨c, rest, -, -, -, ho⟩ | ⟨c, p, k, behind, rfl, hk, hl, -⟩
  · simp [ho, ScanOutcome.waiting] at h
  · rw [ho, List.cons_append, scanOutcome_unknown ck cat c _ hk]
  · simp [ho, ScanOutcome.waiting] at h
  · rw [List.cons_append, List.append_assoc, List.cons_append, scanOutcome_complete ck cat c p k _ hk hl,
      scanOutcome_complete ck cat c p k _ hk hl]

/-- CONV takes no room from a validated frame: it works only while CF is full (R116, R172). -/
theorem Block.scanReady_convert {par : Params} {b : Block} {f : ConvFrame} (hf : b.cf = some f)
    (h : b.scanReady par = true) : (b.convert par f).scanReady par = true := by
  refine Block.scanReady_mono (by simp [Block.outcome]) (fun c hr => ?_) h
  have hd : (b.convert par f).dest c = b.dest c := by simp [Block.dest]
  rw [hd]
  cases hdest : b.dest c with
  | frmq => simpa [hdest, Block.room] using hr
  | conv => simp [hdest, Block.room, hf] at hr

/-- Taking a record from FRMQ makes room there and nowhere else (R116, R205). -/
theorem Block.scanReady_popFrame {par : Params} {b : Block} (h : b.scanReady par = true) :
    Block.scanReady par { b with frmq := b.frmq.tail } = true := by
  refine Block.scanReady_mono (b := b) rfl (fun c hr => ?_) h
  show Block.room par { b with frmq := b.frmq.tail } (b.dest c) = true
  cases hd : b.dest c with
  | frmq =>
    simp only [hd, Block.room, List.length_tail, decide_eq_true_eq] at hr ⊢
    omega
  | conv => simpa [hd, Block.room] using hr

theorem fire_keeps_scan_enabled {u : Transition} {s s' : State} (h : enabled .scan s = true)
    (hu : enabled u s = true) (hf : fire u s = .next s') (hscan : u ≠ .scan)
    (hi : ¬ u.interrupts) : enabled .scan s' = true := by
  have h : s.blk.scanReady s.par = true := h
  cases u with
  | rx x =>
    obtain rfl := Host.Outcome.next.inj hf
    exact Block.scanReady_mono (scanOutcome_append _ _ _ _ (Block.not_waiting_of_scanReady h)) (fun _ hr => hr) h
  | scan => contradiction
  | conv =>
    obtain rfl := Host.Outcome.next.inj hf
    obtain ⟨f, hcf⟩ := Option.isSome_iff_exists.1 ((s.blk.convReady_iff s.par).1 hu).1
    show (s.blk.conv s.par).scanReady s.par = true
    rw [s.blk.conv_of_some s.par f hcf]
    exact Block.scanReady_convert hcf h
  | host op =>
    obtain rfl := Host.Outcome.next.inj hf
    cases op with
    | cfgRead i => exact h
    | cfgWrite i w => exact absurd (.inl ⟨i, w, rfl⟩) hi
    | reset => exact absurd (.inr rfl) hi
    | frmPop =>
      show (fireFrmPop s).blk.scanReady (fireFrmPop s).par = true
      rw [fireFrmPop_blk, fireFrmPop_par]
      exact Block.scanReady_popFrame h
  | smpPop =>
    obtain rfl := Host.Outcome.next.inj hf
    show (fireSmpPop s).blk.scanReady (fireSmpPop s).par = true
    rw [fireSmpPop_blk, fireSmpPop_par]
    exact Block.scanReady_mono (b := s.blk) rfl (fun _ hr => hr) h

theorem Block.ScanEffect.convReady {par : Params} {b b' : Block} (he : b.ScanEffect b')
    (h : b.convReady par = true) : b'.convReady par = true := by
  refine Block.convReady_mono (fun hcf => ?_) (by rw [he.smpq]) he.policy h
  rcases he.moves with ⟨hsame, -⟩ | ⟨c, p, -, hsome, -⟩
  · rwa [hsame]
  · rw [hsome]
    rfl

theorem fire_keeps_conv_enabled {u : Transition} {s s' : State} (h : enabled .conv s = true)
    (hu : enabled u s = true) (hf : fire u s = .next s') (hconv : u ≠ .conv)
    (hi : ¬ u.interrupts) : enabled .conv s' = true := by
  have h : s.blk.convReady s.par = true := h
  cases u with
  | rx x =>
    obtain rfl := Host.Outcome.next.inj hf
    exact h
  | scan =>
    obtain ⟨b, hb, he⟩ := fireScan_of_scanReady hu
    obtain rfl := Host.Outcome.next.inj (hb.symm.trans hf)
    exact he.convReady h
  | conv => contradiction
  | host op =>
    obtain rfl := Host.Outcome.next.inj hf
    cases op with
    | cfgRead i => exact h
    | cfgWrite i w => exact absurd (.inl ⟨i, w, rfl⟩) hi
    | reset => exact absurd (.inr rfl) hi
    | frmPop =>
      show (fireFrmPop s).blk.convReady (fireFrmPop s).par = true
      rw [fireFrmPop_blk, fireFrmPop_par]
      exact h
  | smpPop =>
    obtain rfl := Host.Outcome.next.inj hf
    show (fireSmpPop s).blk.convReady (fireSmpPop s).par = true
    rw [fireSmpPop_blk, fireSmpPop_par]
    exact Block.convReady_mono (b := s.blk) id (by simp) rfl h

end Sys2Proof.Machine
end

section
/-! What every step keeps (`Block.Convertible`) and what it takes from the environment's order of turns: the premises
under which the block comes to rest. -/

namespace Sys2Proof.Machine

open Sys2Proof

/-! ## `Convertible` is kept -/

theorem Block.Convertible.of_eq {b b' : Block} (h : b.Convertible) (hn : b'.nch = b.nch) (hcat : b'.cat = b.cat)
    (hcf : b'.cf = b.cf) : b'.Convertible := by
  refine ⟨hn ▸ h.nch, fun f hf => ?_⟩
  have hc : b'.sampleCount f = b.sampleCount f := by simp only [Block.sampleCount, Block.sampleBytes, hn, hcat]
  rw [hc]
  exact h.cf f (hcf ▸ hf)

theorem Block.convertible_of_cf_none {b : Block} (hn : 1 ≤ b.nch.toNat) (hcf : b.cf = none) : b.Convertible :=
  ⟨hn, fun f hf => by rw [hcf] at hf; contradiction⟩

theorem Block.Convertible.convert {b : Block} (h : b.Convertible) (par : Params) {f : ConvFrame}
    (hf : b.cf = some f) : (b.convert par f).Convertible := by
  have hn : 1 ≤ (b.convert par f).nch.toNat := by rw [Block.convert_nch]; exact h.nch
  rcases (h.convert_cf par hf).2 with hnone | ⟨hsome, hlt⟩
  · exact Block.convertible_of_cf_none hn hnone
  · refine ⟨hn, fun g hg => .inr ?_⟩
    obtain rfl := Option.some.inj (hsome.symm.trans hg)
    simpa [Block.sampleCount, Block.sampleBytes] using hlt

theorem Block.Convertible.conv {b : Block} (h : b.Convertible) (par : Params) : (b.conv par).Convertible := by
  cases hf : b.cf with
  | none => rwa [b.conv_of_none par hf]
  | some f =>
    rw [b.conv_of_some par f hf]
    exact h.convert par hf

theorem Block.Convertible.scan {b b' : Block} (h : b.Convertible) (he : b.ScanEffect b') : b'.Convertible := by
  rcases he.moves with ⟨hsame, -⟩ | ⟨c, p, -, hsome, -⟩
  · exact h.of_eq he.nch he.cat hsame
  · refine ⟨he.nch ▸ h.nch, fun f hf => .inl ?_⟩
    obtain rfl := Option.some.inj (hsome.symm.trans hf)
    rfl

theorem Block.cf_none_of_unlocked {par : Params} {b : Block} (h : b.unlocked par = true) : b.cf = none := by
  simp only [Block.unlocked, Block.idle, Bool.and_eq_true, Option.isNone_iff_eq_none] at h
  exact h.2.1

theorem Block.Convertible.writeRoute {b : Block} (h : b.Convertible) (par : Params) (w : Word) :
    (b.writeRoute par w).Convertible := by
  rcases b.writeRoute_cases par w with ⟨r, -, -, he⟩ | he | he <;> rw [he]
  · exact h.of_eq rfl rfl rfl
  · exact h.of_eq rfl rfl rfl
  · exact h

theorem Block.Convertible.writeCtrl {b : Block} (h : b.Convertible) (par : Params) (w : Word) :
    (b.writeCtrl par w).Convertible := by
  have hr : Block.Convertible { b.writeRoute par w with run := w.getLsbD 0 } :=
    (h.writeRoute par w).of_eq rfl rfl rfl
  unfold Block.writeCtrl
  dsimp only
  split
  · exact Block.convertible_of_cf_none hr.nch rfl
  · exact hr

/-- A write that changes what the converter reads is accepted only while CF is empty (R187). -/
theorem Block.Convertible.cfgWrite {b : Block} (h : b.Convertible) (par : Params) (i : CfgIndex) (w : Word) :
    (b.cfgWrite par i w).Convertible := by
  rcases b.cfgWrite_cases par i w with ⟨-, he⟩ | ⟨-, he⟩ |
    ⟨hu, ⟨-, hn, -, he⟩ | ⟨lut, he⟩ | ⟨code, e, -, -, he⟩⟩ | he <;> rw [he]
  · exact h.writeCtrl par w
  · exact h.of_eq rfl rfl rfl
  · have hcf := Block.cf_none_of_unlocked hu
    exact Block.convertible_of_cf_none hn hcf
  · exact h.of_eq rfl rfl rfl
  · have hcf := Block.cf_none_of_unlocked hu
    exact Block.convertible_of_cf_none h.nch hcf
  · exact h.of_eq rfl rfl rfl

theorem fire_convertible {t : Transition} {s s' : State} (h : s.blk.Convertible) (ht : enabled t s = true)
    (hf : fire t s = .next s') : s'.blk.Convertible := by
  cases t with
  | rx x => exact Host.Outcome.next.inj hf ▸ h.of_eq rfl rfl rfl
  | scan =>
    obtain ⟨b, hb, he⟩ := fireScan_of_scanReady ht
    exact Host.Outcome.next.inj (hb.symm.trans hf) ▸ h.scan he
  | conv => exact Host.Outcome.next.inj hf ▸ h.conv s.par
  | host op =>
    obtain rfl := Host.Outcome.next.inj hf
    cases op with
    | cfgRead i => exact h
    | cfgWrite i w => exact h.cfgWrite s.par i w
    | frmPop => exact h.of_eq (by simp [fireHost]) (by simp [fireHost]) (by simp [fireHost])
    | reset => exact Block.convertible_of_cf_none (Nat.le_refl 1) rfl
  | smpPop =>
    obtain rfl := Host.Outcome.next.inj hf
    exact h.of_eq (by simp) (by simp) (by simp)

theorem step_convertible {s s' : State} (h : s.blk.Convertible) (hs : step s = .next s') :
    s'.blk.Convertible := by
  rcases step_cases s with ⟨e, he, -⟩ | ⟨t, e, ht, he, -⟩
  · exact Host.Outcome.next.inj (he.symm.trans hs) ▸ h
  · exact fire_convertible (s := s.setEnv e) h (by rw [enabled_setEnv]; exact ht) (he.symm.trans hs)

/-! ## The order of turns -/

/-- No transition touches the order in which the agents move. -/
theorem fire_turns {t : Transition} {s s' : State} (h : fire t s = .next s') : s'.env.turns = s.env.turns := by
  cases t with
  | rx x => exact Host.Outcome.next.inj h ▸ rfl
  | scan =>
    rcases fireScan_cases s with ⟨-, hf⟩ | ⟨c, -, -, hf⟩ | ⟨c, p, ck, -, hf⟩ <;>
      exact Host.Outcome.next.inj (hf.symm.trans h) ▸ rfl
  | conv => exact Host.Outcome.next.inj h ▸ rfl
  | host op =>
    obtain rfl := Host.Outcome.next.inj h
    cases op with
    | cfgRead i => rfl
    | cfgWrite i w => rfl
    | frmPop => exact fireFrmPop_turns s
    | reset => rfl
  | smpPop =>
    obtain rfl := Host.Outcome.next.inj h
    exact fireSmpPop_turns s

theorem offer_turns {a : Agent} {s s' : State} {t : Transition} (h : offer a s = some (t, s')) :
    s'.env.turns = s.env.turns := by
  obtain ⟨-, -, ⟨-, _, _, -, -, he⟩ | ⟨-, -, he⟩ | ⟨-, -, he⟩ | ⟨-, _, _, -, -, he⟩ | ⟨-, -, he⟩⟩ :=
    offer_cases h <;> rw [he]

theorem turn_turns {a : Agent} {s s' : State} (h : turn a s = .next s') : s'.env.turns = s.env.turns := by
  unfold turn at h
  split at h
  · exact Host.Outcome.next.inj h ▸ rfl
  · rename_i t s₁ ho
    split at h
    · exact (fire_turns h).trans (offer_turns ho)
    · exact Host.Outcome.next.inj h ▸ rfl

/-- What the block's own agents do in a silent environment: one that is enabled moves, or neither is and nothing
changes (R10). -/
theorem ownTurn_cases (s : State) :
    (∃ t e, (t = .scan ∨ t = .conv) ∧ enabled t s = true ∧ e.turns = s.env.turns ∧
      ownTurn s = fire t (s.setEnv e)) ∨
    (enabled .scan s = false ∧ enabled .conv s = false ∧ ownTurn s = .next s) := by
  unfold ownTurn
  dsimp only
  cases hs : enabled .scan s with
  | true =>
    cases hc : enabled .conv s with
    | true =>
      cases Config.tie s.env.ties with
      | true => exact .inl ⟨.scan, { s.env with ties := s.env.ties + 1 }, .inl rfl, hs, rfl, rfl⟩
      | false => exact .inl ⟨.conv, { s.env with ties := s.env.ties + 1 }, .inr rfl, hc, rfl, rfl⟩
    | false => exact .inl ⟨.scan, s.env, .inl rfl, hs, rfl, rfl⟩
  | false =>
    cases hc : enabled .conv s with
    | true => exact .inl ⟨.conv, s.env, .inr rfl, hc, rfl, rfl⟩
    | false => exact .inr ⟨rfl, rfl, rfl⟩

/-- A step takes one turn from the order; with none prescribed, none is added. -/
theorem step_turns {s s' : State} (h : step s = .next s') : s'.env.turns = s.env.turns.tail := by
  cases ht : s.env.turns with
  | nil =>
    rw [step_of_no_turn s ht] at h
    rcases ownTurn_cases s with ⟨t, e, -, -, he, hf⟩ | ⟨-, -, hf⟩
    · exact (fire_turns (hf.symm.trans h)).trans (he.trans ht)
    · exact Host.Outcome.next.inj (hf.symm.trans h) ▸ ht
  | cons a rest =>
    rw [step_of_turn s a rest ht] at h
    exact turn_turns h

end Sys2Proof.Machine
end

section
/-! Every transition of SCAN and of CONV uses up bytes of BUF or samples of CF (spec/00_scope.md R10). -/

namespace Sys2Proof.Machine

open Sys2Proof

/-- An upper bound on the CONV transitions that the frame in CF still takes. -/
def Block.convWork (b : Block) : Nat :=
  match b.cf with
  | none => 0
  | some f => f.payload.length + 1 - f.k

/-- An upper bound on the transitions that SCAN and CONV still make in a silent environment: a frame of `n` payload
bytes leaves `n + 2` bytes of BUF and brings at most `n + 1` transitions of CONV. -/
def Block.pending (b : Block) : Nat := b.buf.length + b.convWork

theorem Block.convWork_of_none {b : Block} (h : b.cf = none) : b.convWork = 0 := by simp [Block.convWork, h]

theorem Block.convWork_of_some {b : Block} {f : ConvFrame} (h : b.cf = some f) :
    b.convWork = f.payload.length + 1 - f.k := by simp [Block.convWork, h]

theorem Block.convWork_congr {b b' : Block} (h : b'.cf = b.cf) : b'.convWork = b.convWork := by
  simp only [Block.convWork, h]

theorem Block.ScanEffect.pending_lt {b b' : Block} (he : b.ScanEffect b') : b'.pending < b.pending := by
  unfold Block.pending
  rcases he.moves with ⟨hsame, hl⟩ | ⟨c, p, hnone, hsome, hl⟩
  · rw [Block.convWork_congr hsame]
    omega
  · rw [Block.convWork_of_none hnone, Block.convWork_of_some hsome]
    dsimp only
    omega

theorem Block.Convertible.convert_pending_lt {b : Block} (h : b.Convertible) (par : Params) {f : ConvFrame}
    (hf : b.cf = some f) : (b.convert par f).pending < b.pending := by
  unfold Block.pending
  rw [Block.convert_buf, Block.convWork_of_some hf]
  obtain ⟨hk, hnone | ⟨hsome, -⟩⟩ := h.convert_cf par hf
  · rw [Block.convWork_of_none hnone]
    omega
  · rw [Block.convWork_of_some hsome]
    dsimp only
    omega

theorem fire_pending_lt {t : Transition} {s s' : State} (h : s.blk.Convertible) (ht : t = .scan ∨ t = .conv)
    (hen : enabled t s = true) (hf : fire t s = .next s') : s'.blk.pending < s.blk.pending := by
  rcases ht with rfl | rfl
  · obtain ⟨b, hb, he⟩ := fireScan_of_scanReady hen
    exact Host.Outcome.next.inj (hb.symm.trans hf) ▸ he.pending_lt
  · obtain ⟨f, hcf⟩ := Option.isSome_iff_exists.1 ((s.blk.convReady_iff s.par).1 hen).1
    obtain rfl := Host.Outcome.next.inj hf
    rw [State.setBlk_blk, s.blk.conv_of_some s.par f hcf]
    exact h.convert_pending_lt s.par hcf

/-- Neither of the block's own agents is enabled. -/
def State.atRest (s : State) : Prop := enabled .scan s = false ∧ enabled .conv s = false

/-- In a silent environment a block that is not at rest has less to do after a step. -/
theorem step_silent {s s' : State} (h : s.blk.Convertible) (hq : s.env.turns = []) (hs : step s = .next s') :
    s.atRest ∨ s'.blk.pending < s.blk.pending := by
  rw [step_of_no_turn s hq] at hs
  rcases ownTurn_cases s with ⟨t, e, ht, hen, -, hf⟩ | ⟨hscan, hconv, -⟩
  · exact .inr (fire_pending_lt (s := s.setEnv e) h ht (by rw [enabled_setEnv]; exact hen) (hf.symm.trans hs))
  · exact .inl ⟨hscan, hconv⟩

/-- A silent block comes to rest within `pending` steps, however `Config.tie` orders its agents. -/
theorem comes_to_rest {s : State} (h : s.blk.Convertible) (hq : s.env.turns = []) :
    ∃ n s', n ≤ s.blk.pending ∧ runsTo n s s' ∧ s'.atRest := by
  induction hp : s.blk.pending using Nat.strong_induction_on generalizing s with
  | _ p ih =>
    obtain ⟨t, hs⟩ := step_next s
    rcases step_silent h hq hs with hrest | hlt
    · exact ⟨0, s, Nat.zero_le _, runsTo_zero.2 rfl, hrest⟩
    · have ht : t.env.turns = [] := by rw [step_turns hs, hq]; rfl
      obtain ⟨n, s', hn, hrun, hrest⟩ := ih _ (hp ▸ hlt) (step_convertible h hs) ht rfl
      exact ⟨n + 1, s', by omega, (runsTo_succ hs).2 hrun, hrest⟩

/-- Under the invariants the frame in CF has at most 254 payload bytes (R6, R53), so that much bounds what is to do. -/
theorem Inv.pending_le {s : State} (h : Inv s) : s.blk.pending ≤ s.blk.buf.length + 255 := by
  unfold Block.pending
  cases hf : s.blk.cf with
  | none => rw [Block.convWork_of_none hf]; omega
  | some f =>
    obtain ⟨-, hlen, -⟩ := h.cf f hf
    have hcat := h.cat f.code
    obtain ⟨hmax, -⟩ := h.par
    rw [Block.convWork_of_some hf]
    omega

/-! ## Runs that the machine makes when left to itself -/

section Alone

variable {ρ : Nat → State} (hρ : ∀ n, step (ρ n) = .next (ρ (n + 1)))
include hρ

theorem alone_convertible (h : (ρ 0).blk.Convertible) (n : Nat) : (ρ n).blk.Convertible := by
  induction n with
  | zero => exact h
  | succ n ih => exact step_convertible ih (hρ n)

theorem alone_turns (n m : Nat) : (ρ (n + m)).env.turns = (ρ n).env.turns.drop m := by
  induction m with
  | zero => rfl
  | succ m ih => rw [← Nat.add_assoc, step_turns (hρ (n + m)), ih, List.tail_drop]

theorem alone_runsTo (n m : Nat) : runsTo m (ρ n) (ρ (n + m)) := by
  induction m generalizing n with
  | zero => exact runsTo_zero.2 rfl
  | succ m ih =>
    have hrun := ih (n + 1)
    rw [Nat.add_assoc, Nat.add_comm 1 m] at hrun
    exact (runsTo_succ (hρ n)).2 hrun

/-- Once the prescribed turns are used up the block comes to rest: from no step on is it busy for ever. -/
theorem alone_comes_to_rest (h : (ρ 0).blk.Convertible) (n : Nat) : ∃ m, n ≤ m ∧ (ρ m).atRest := by
  have hq : (ρ (n + (ρ n).env.turns.length)).env.turns = [] := by rw [alone_turns hρ, List.drop_length]
  obtain ⟨k, s, -, hrun, hrest⟩ := comes_to_rest (alone_convertible hρ h _) hq
  obtain rfl := Host.Outcome.next.inj ((alone_runsTo hρ _ k).symm.trans hrun)
  exact ⟨_, by omega, hrest⟩

theorem alone_weaklyFair (h : (ρ 0).blk.Convertible) {t : Transition} (ht : t = .scan ∨ t = .conv)
    (τ : Nat → Option Transition) : weaklyFair ρ τ t := by
  intro n hen
  obtain ⟨m, hm, hscan, hconv⟩ := alone_comes_to_rest hρ h n
  have hon := hen m hm
  rcases ht with rfl | rfl
  · rw [hscan] at hon; contradiction
  · rw [hconv] at hon; contradiction

theorem alone_fairRun (h : (ρ 0).blk.Convertible) : fairRun ρ fun n => pick (ρ n) :=
  ⟨fun n => ⟨(ρ n).env, rfl, rfl, hρ n⟩, alone_weaklyFair hρ h (.inl rfl) _, alone_weaklyFair hρ h (.inr rfl) _⟩

end Alone

/-! ## Fair runs in which the environment keeps acting -/

/-- An own agent stays enabled through every transition but its own, a configuration write and RESET. -/
theorem fire_keeps_enabled {t u : Transition} {s s' : State} (ht : t = .scan ∨ t = .conv) (h : enabled t s = true)
    (hu : enabled u s = true) (hf : fire u s = .next s') (hne : u ≠ t) (hi : ¬ u.interrupts) :
    enabled t s' = true := by
  rcases ht with rfl | rfl
  · exact fire_keeps_scan_enabled h hu hf hne hi
  · exact fire_keeps_conv_enabled h hu hf hne hi

/-- One step of an infinite run keeps an own agent enabled, unless it fires or the host interrupts. -/
theorem runForever_keeps_enabled {ρ : Nat → State} {τ : Nat → Option Transition} (hρ : runForever ρ τ)
    {t : Transition} (ht : t = .scan ∨ t = .conv) {n : Nat} (h : enabled t (ρ n) = true) (hne : τ n ≠ some t)
    (hi : ∀ u, τ n = some u → ¬ u.interrupts) : enabled t (ρ (n + 1)) = true := by
  obtain ⟨e, -, hpick, hstep⟩ := hρ n
  obtain ⟨e', -, ⟨-, he⟩ | ⟨u, hu, hen, he⟩⟩ := step_of_pick ((ρ n).setEnv e)
  · rw [← Host.Outcome.next.inj (he.symm.trans hstep)]
    simpa using h
  · have hτ : τ n = some u := hpick.symm.trans hu
    refine fire_keeps_enabled (s := ((ρ n).setEnv e).setEnv e') ht (by simpa using h) (by simpa using hen)
      (he.symm.trans hstep) (fun hut => hne (hut ▸ hτ)) (hi u hτ)

theorem fairRun_fires {ρ : Nat → State} {τ : Nat → Option Transition} (hρ : fairRun ρ τ) {t : Transition}
    (ht : t = .scan ∨ t = .conv) {n : Nat} (h : enabled t (ρ n) = true) :
    ∃ m, n ≤ m ∧ ∃ u, τ m = some u ∧ (u = t ∨ u.interrupts) := by
  obtain ⟨hrun, hscan, hconv⟩ := hρ
  by_contra hno
  push Not at hno
  have hne : ∀ m, n ≤ m → τ m ≠ some t := fun m hm hτ => (hno m hm t hτ).1 rfl
  have hkept : ∀ m, n ≤ m → enabled t (ρ m) = true := by
    intro m hm
    induction m, hm using Nat.le_induction with
    | base => exact h
    | succ m hm ih => exact runForever_keeps_enabled hrun ht ih (hne m hm) fun u hu => (hno m hm u hu).2
  have hfair : weaklyFair ρ τ t := by rcases ht with rfl | rfl <;> assumption
  obtain ⟨m, hm, hτ⟩ := hfair n hkept
  exact hne m hm hτ

/-- Settles O60: what is pending in BUF and CF goes down with every transition of SCAN and CONV, and neither loses its
readiness to anyone but the host. -/
theorem silentBlockComesToRest : Obligations.SilentBlockComesToRest := by
  refine ⟨fun s h hq => ?_, fun ρ τ hρ t ht n hen => ?_, fun ρ h hρ => alone_fairRun hρ h.convertible⟩
  · obtain ⟨n, s', hn, hrun, hscan, hconv⟩ := comes_to_rest h.convertible hq
    have hp := h.pending_le
    exact ⟨n, s', by omega, hrun, hscan, hconv⟩
  · obtain ⟨m, hm, u, hτ, rfl | ⟨i, w, rfl⟩ | rfl⟩ := fairRun_fires hρ ht hen
    · exact ⟨m, hm, .inl hτ⟩
    · exact ⟨m, hm, .inr (.inl ⟨i, w, hτ⟩)⟩
    · exact ⟨m, hm, .inr (.inr hτ)⟩

end Sys2Proof.Machine
end

section
/-! The order of the agents (spec/00_scope.md R8, R9) and the frame a SCAN step runs (R118). -/

namespace Sys2Proof.Machine

open Sys2Proof

/-- The environment `e` changed so that the agent of `t` has the first turn and, where `t` takes an input, is offered that
input first. -/
def Env.offering (e : Env) : Transition → Env
  | .rx x => { e with turns := .src :: e.turns, src := x :: e.src }
  | .scan => { e with turns := .scan :: e.turns }
  | .conv => { e with turns := .conv :: e.turns }
  | .host op => { e with turns := .host :: e.turns, ops := op :: e.ops }
  | .smpPop => { e with turns := .sink :: e.turns }

/-- In that environment the next step is `t`, and nothing of what was offered before is used up. -/
theorem step_offering {t : Transition} {s : State} (h : enabled t s = true) :
    step (s.setEnv (s.env.offering t)) = fire t s := by
  have hturn : ∀ (a : Agent) (s₁ : State), offer a s₁ = some (t, s) → enabled t s₁ = enabled t s →
      turn a s₁ = fire t s := by
    intro a s₁ ho he
    rw [turn, ho]
    exact if_pos (he.trans h)
  cases t with
  | rx x => exact hturn .src (s.setEnv { s.env with src := x :: s.env.src }) rfl (enabled_setEnv _ _ _)
  | scan => exact hturn .scan s rfl rfl
  | conv => exact hturn .conv s rfl rfl
  | host op => exact hturn .host (s.setEnv { s.env with ops := op :: s.env.ops }) rfl (enabled_setEnv _ _ _)
  | smpPop => exact hturn .sink s rfl rfl

/-- Settles O6: the environment that gives the transition's agent the first turn. -/
theorem everyEnabledTransitionCanBeNext : Obligations.EveryEnabledTransitionCanBeNext := by
  intro s t h
  refine ⟨s.env.offering t, ?_, ?_, ?_, step_offering h⟩ <;> cases t <;> rfl

/-- A decoded frame is the candidate at the head of BUF. -/
theorem isCandidate_of_decode {b : Block} {i : Instr} {behind : List Byte}
    (h : decode b.cat b.buf = .ok (i, behind)) : b.isCandidate i.code i.payload i.cksum = true := by
  rcases decode_cases b.cat b.buf with ⟨-, hd⟩ | ⟨c, rest, -, -, hd⟩ | ⟨c, rest, -, -, -, hd⟩ |
    ⟨c, p, ck, tail, hb, hk, hl, ⟨j, hj, hd⟩ | ⟨-, hd⟩⟩ <;> rw [hd] at h
  · contradiction
  · contradiction
  · contradiction
  · obtain ⟨rfl, rfl⟩ := Prod.mk.inj (Except.ok.inj h)
    obtain ⟨rfl, rfl, rfl⟩ := Instr.ofCode_eq_some hj
    exact (b.isCandidate_iff _ _ _).2 ⟨hk, hl, tail, hb⟩
  · contradiction

/-- SCAN executes the decoded frame (R118). -/
theorem fire_scan_of_decode {s : State} {i : Instr} {behind : List Byte}
    (h : decode s.blk.cat s.blk.buf = .ok (i, behind)) : fire .scan s = exec i s := by
  rw [exec_eq]
  exact fireScan_of_candidate s i.code i.payload i.cksum (isCandidate_of_decode h)

/-- A frame for which SCAN is not enabled is a valid one without room, and it stays where it is (R117). -/
theorem exec_of_scan_disabled {s : State} {i : Instr} {behind : List Byte}
    (h : decode s.blk.cat s.blk.buf = .ok (i, behind)) (hd : enabled .scan s = false) : exec i s = .next s := by
  have hc := isCandidate_of_decode h
  have hready : s.blk.scanReady s.par = false := hd
  rw [Block.scanReady_of_candidate s.par hc] at hready
  have hstay : s.blk.scanFrame s.par i.code i.payload i.cksum = s.blk := by
    rcases s.blk.scanFrame_cases s.par i.code i.payload i.cksum with ⟨-, hk, hr, -⟩ | ⟨-, hk, -⟩ | ⟨-, he⟩
    · rw [if_pos hk, hr] at hready
      contradiction
    · rw [if_neg hk] at hready
      contradiction
    · exact he
  rw [exec_eq, State.scanFrame, hstay, State.setBlk_self]

/-- A turn of SCAN is the decoded frame's execution, enabled or not. -/
theorem turn_scan_of_decode {s : State} {i : Instr} {behind : List Byte}
    (h : decode s.blk.cat s.blk.buf = .ok (i, behind)) : turn .scan s = exec i s := by
  show (if enabled .scan s then fire .scan s else .next s) = exec i s
  cases hs : enabled .scan s with
  | true => exact fire_scan_of_decode h
  | false => exact (exec_of_scan_disabled h hs).symm

/-- Settles O5, by whose turn it is and, where none is prescribed, by whether CONV and SCAN are enabled. -/
theorem stepRunsTheFrameAtTheHead : Obligations.StepRunsTheFrameAtTheHead := by
  intro s i behind h _
  refine ⟨fun rest ht => ?_, fun ht hc => ?_, fun ht hc => ?_⟩
  · rw [step_of_turn s .scan rest ht]
    exact turn_scan_of_decode h
  · have hconv : enabled .conv s = false := hc
    rw [step_of_no_turn s ht]
    cases hs : enabled .scan s with
    | true => simpa [ownTurn, hs, hconv] using fire_scan_of_decode h
    | false => simpa [ownTurn, hs, hconv] using (exec_of_scan_disabled h hs).symm
  · have hconv : enabled .conv s = true := hc
    have hscan : enabled .scan s = s.blk.scanReady s.par := rfl
    have hexec := fire_scan_of_decode (s := s.setEnv { s.env with ties := s.env.ties + 1 }) h
    rw [step_of_no_turn s ht, ← hexec, ← hscan]
    cases hs : enabled .scan s <;> simp [ownTurn, hs, hconv]

end Sys2Proof.Machine
end

section
/-! The default parameters are legal (spec/00_scope.md R6) and reset meets the invariants (spec/10_state.md R53). -/

namespace Sys2Proof.Machine

open Sys2Proof

theorem lenLegal_blank (n : Nat) : Catalog.blank.lenLegal n := by
  intro c
  simp [Catalog.blank, Catalog.entry, CatEntry.absent]

theorem lenLegal_put {cat : Catalog} {n : Nat} (h : cat.lenLegal n) (c : Byte) {e : CatEntry}
    (he : e.len.toNat ≤ n) : (cat.put c e).lenLegal n := by
  intro d
  by_cases hd : c = d
  · subst hd
    rwa [Catalog.entry_put_self]
  · rw [Catalog.entry_put_of_ne cat e hd]
    exact h d

/-- The eight entries of REFCAT have payloads of at most 12 bytes (R93). -/
theorem lenLegal_refcat {n : Nat} (h : 12 ≤ n) : Config.refcat.lenLegal n := by
  unfold Config.refcat
  iterate 8 refine lenLegal_put ?_ _ ((show _ ≤ 12 by decide).trans h)
  exact lenLegal_blank n

theorem legal_default : Params.default.legal :=
  ⟨by decide, by decide, by decide, by decide, by decide, lenLegal_refcat (by decide), by decide⟩

theorem inv_boot {par : Params} (h : par.legal) : Inv (State.boot par) := by
  have ⟨_, hnch, _, _, _, hcat, _⟩ := h
  exact
    { par := h
      buf := Nat.zero_le _
      frmq := Nat.zero_le _
      smpq := Nat.zero_le _
      cf := fun _ hf => nomatch hf
      nch := ⟨Nat.le_refl 1, hnch.1⟩
      cat := hcat
      frames := fun _ hr => nomatch hr }

/-- Settles O56: every queue is empty, CF is `none`, NCH is 1 and CAT is the legal CAT_RESET. -/
theorem resetMeetsTheInvariants : Obligations.ResetMeetsTheInvariants :=
  ⟨legal_default, fun _ h => inv_boot h⟩

end Sys2Proof.Machine
end

section
/-! What a transition can do to the block, said once (`Block.Moves`), and what an accept step and a CTRL write change:
the layer that the invariants, the flags, the counters and the byte count rest on. -/

namespace Sys2Proof.Machine

open Sys2Proof

/-! ## The moves of the block -/

/-- What a transition can do to the block, one constructor per transition and scan decision (spec/00_scope.md R9, R115,
R117). -/
inductive Block.Moves (par : Params) (b : Block) : Transition → Block → Prop where
  | rx (x : Byte) : b.Moves par (.rx x) { b with buf := b.buf ++ [x] }
  | unknown (c : Byte) (ho : b.outcome par = .unknown c) : b.Moves par .scan (b.reject par (.unknownCommand c))
  | badck (c : Byte) (ho : b.outcome par = .badck c) : b.Moves par .scan (b.reject par (.framingError c))
  | frame (c : Byte) (p : List Byte) (ck : Byte) (ho : b.outcome par = .frame c p)
      (hc : b.isCandidate c p ck = true) (hr : b.room par (b.dest c) = true) : b.Moves par .scan (b.accept c p)
  | conv (f : ConvFrame) (hf : b.cf = some f) : b.Moves par .conv (b.convert par f)
  | cfgRead (i : CfgIndex) : b.Moves par (.host (.cfgRead i)) b
  | cfgWrite (i : CfgIndex) (w : Word) : b.Moves par (.host (.cfgWrite i w)) (b.cfgWrite par i w)
  | frmPop : b.Moves par (.host .frmPop) { b with frmq := b.frmq.tail }
  | reset : b.Moves par (.host .reset) (Block.reset par)
  | smpPop : b.Moves par .smpPop { b with smpq := b.smpq.tail }

/-- A candidate is decided by one of the moves of SCAN, or SCAN is not enabled and the frame stays (R115, R117). -/
theorem Block.scanFrame_moves (par : Params) {b : Block} {c : Byte} {p : List Byte} {ck : Byte}
    (hc : b.isCandidate c p ck = true) :
    b.Moves par .scan (b.scanFrame par c p ck) ∨
      (b.scanReady par = false ∧ b.scanFrame par c p ck = b) := by
  have ho := b.outcome_of_candidate par c p ck hc
  rcases b.scanFrame_cases par c p ck with ⟨-, hk, hr, he⟩ | ⟨-, hk, he⟩ | ⟨hno | ⟨hk, hr⟩, he⟩
  · rw [if_pos hk] at ho
    exact .inl (he ▸ .frame c p ck ho hc hr)
  · rw [if_neg hk] at ho
    exact .inl (he ▸ .badck c ho)
  · rw [hno] at hc
    contradiction
  · exact .inr ⟨by rw [Block.scanReady_of_candidate par hc, if_pos hk, hr], he⟩

/-- A transition fires by a move of the block, or it is not enabled and the block stays as it is. -/
theorem fire_cases {t : Transition} {s s' : State} (h : fire t s = .next s') :
    s.blk.Moves s.par t s'.blk ∨ (enabled t s = false ∧ s'.blk = s.blk) := by
  cases t with
  | rx x => exact Host.Outcome.next.inj h ▸ .inl (.rx x)
  | scan =>
    rcases fireScan_cases s with ⟨hw, hf⟩ | ⟨c, ho, -, hf⟩ | ⟨c, p, ck, hc, hf⟩ <;>
      obtain rfl := Host.Outcome.next.inj (hf.symm.trans h)
    · have hready : s.blk.scanReady s.par ≠ true := fun hr => by
        rw [Block.not_waiting_of_scanReady hr] at hw
        contradiction
      exact .inr ⟨Bool.eq_false_of_not_eq_true hready, rfl⟩
    · exact .inl (.unknown c ho)
    · exact Block.scanFrame_moves s.par hc
  | conv =>
    obtain rfl := Host.Outcome.next.inj h
    rw [State.setBlk_blk]
    cases hf : s.blk.cf with
    | none => exact .inr ⟨by simp [enabled, Block.convReady, hf], s.blk.conv_of_none s.par hf⟩
    | some f => exact .inl (s.blk.conv_of_some s.par f hf ▸ .conv f hf)
  | host op =>
    obtain rfl := Host.Outcome.next.inj h
    cases op with
    | cfgRead i => exact .inl (.cfgRead i)
    | cfgWrite i w => exact .inl (.cfgWrite i w)
    | frmPop => exact .inl (fireFrmPop_blk s ▸ .frmPop)
    | reset => exact .inl .reset
  | smpPop =>
    obtain rfl := Host.Outcome.next.inj h
    exact .inl (fireSmpPop_blk s ▸ .smpPop)

theorem fire_moves {t : Transition} {s s' : State} (ht : enabled t s = true) (h : fire t s = .next s') :
    s.blk.Moves s.par t s'.blk :=
  (fire_cases h).resolve_right fun hno => by
    rw [hno.1] at ht
    contradiction

theorem fire_par {t : Transition} {s s' : State} (h : fire t s = .next s') : s'.par = s.par := by
  obtain ⟨u, hu, hp⟩ := fire_next t s
  exact Host.Outcome.next.inj (hu.symm.trans h) ▸ hp

/-! ## Parts of the moves -/

/-- A scan decision has a byte to decide on (R113). -/
theorem Block.buf_pos_of_outcome {par : Params} {b : Block} (h : b.outcome par ≠ .waitEmpty) :
    1 ≤ b.buf.length := by
  refine List.length_pos_iff.2 fun hb => h ?_
  rw [Block.outcome, hb, scanOutcome_nil]

theorem Block.accept_of_frmq {b : Block} {c : Byte} (p : List Byte) (hd : b.dest c = .frmq) :
    (b.accept c p).frmq = b.frmq ++ [{ code := c, payload := p }] ∧ (b.accept c p).cf = b.cf := by
  simp [Block.accept, hd, Block.deliver]

theorem Block.accept_of_conv {b : Block} {c : Byte} (p : List Byte) (hd : b.dest c = .conv) :
    (b.accept c p).frmq = b.frmq ∧ (b.accept c p).cf = some { code := c, payload := p, k := 0 } := by
  simp [Block.accept, hd, Block.deliver]

/-- A CTRL write may change RUN, ROUTE, POLICY and the flags, and then may flush (R188 to R191). -/
theorem Block.writeCtrl_cases (par : Params) (w : Word) (b : Block) :
    ∃ run route policy sticky,
      b.writeCtrl par w = { b with run := run, route := route, policy := policy, sticky := sticky } ∨
      b.writeCtrl par w =
        Block.flush { b with run := run, route := route, policy := policy, sticky := sticky } := by
  have hflush : b.writeCtrl par w = { b.writeRoute par w with run := w.getLsbD 0 } ∨
      b.writeCtrl par w = Block.flush { b.writeRoute par w with run := w.getLsbD 0 } := by
    unfold Block.writeCtrl
    dsimp only
    split
    · exact .inr rfl
    · exact .inl rfl
  rcases b.writeRoute_cases par w with ⟨r, -, -, he⟩ | he | he <;> rw [he] at hflush <;> exact ⟨_, _, _, _, hflush⟩

end Sys2Proof.Machine
end

section
/-! The invariants of spec/10_state.md R53, kept by every move of the block, so by every step and on every run from
reset. -/

namespace Sys2Proof.Machine

open Sys2Proof

/-- R53 as a property of the block alone. -/
structure Block.Sound (par : Params) (b : Block) : Prop where
  buf : b.buf.length ≤ par.bufCap
  frmq : b.frmq.length ≤ par.frmqDepth
  smpq : b.smpq.length ≤ par.smpqDepth
  cf : ∀ f, b.cf = some f → b.cfLegal f
  nch : 1 ≤ b.nch.toNat ∧ b.nch.toNat ≤ par.nchMax
  cat : b.cat.lenLegal par.lenMax
  frames : ∀ r ∈ b.frmq, r.payload.length ≤ par.lenMax

theorem inv_iff (s : State) : Inv s ↔ s.par.legal ∧ s.blk.Sound s.par :=
  ⟨fun h => ⟨h.par, h.buf, h.frmq, h.smpq, h.cf, h.nch, h.cat, h.frames⟩,
    fun ⟨hp, h⟩ => ⟨hp, h.buf, h.frmq, h.smpq, h.cf, h.nch, h.cat, h.frames⟩⟩

theorem Block.sound_reset {par : Params} (h : par.legal) : (Block.reset par).Sound par :=
  ((inv_iff (State.boot par)).1 (inv_boot h)).2

/-- What CF may hold depends on NCH and the catalog only. -/
theorem Block.cfLegal_congr {b b' : Block} (hn : b'.nch = b.nch) (hcat : b'.cat = b.cat) (f : ConvFrame) :
    b'.cfLegal f ↔ b.cfLegal f := by
  simp only [Block.cfLegal, Block.sampleBytes, hn, hcat]

/-- The block with no more in its queues and in CF than before, under the same NCH and catalog. -/
structure Block.Shrinks (b b' : Block) : Prop where
  buf : b'.buf.length ≤ b.buf.length
  frmq : b'.frmq.Sublist b.frmq
  smpq : b'.smpq.length ≤ b.smpq.length
  cf : b'.cf = b.cf ∨ b'.cf = none
  nch : b'.nch = b.nch
  cat : b'.cat = b.cat

namespace Block.Sound

variable {par : Params} {b b' : Block}

theorem shrink (h : b.Sound par) (hs : b.Shrinks b') : b'.Sound par where
  buf := hs.buf.trans h.buf
  frmq := hs.frmq.length_le.trans h.frmq
  smpq := hs.smpq.trans h.smpq
  cf f hf := by
    rcases hs.cf with hcf | hcf <;> rw [hcf] at hf
    · exact (Block.cfLegal_congr hs.nch hs.cat f).2 (h.cf f hf)
    · contradiction
  nch := hs.nch ▸ h.nch
  cat := hs.cat ▸ h.cat
  frames r hr := h.frames r (hs.frmq.subset hr)

theorem rx (h : b.Sound par) (hr : b.rxReady par = true) (x : Byte) :
    Block.Sound par { b with buf := b.buf ++ [x] } := by
  refine { h with buf := ?_ }
  have hlt : b.buf.length < par.bufCap := by simp_all [Block.rxReady]
  simpa using hlt

theorem reject (h : b.Sound par) {e : Event} (hcf : (b.raise par e).cf = b.cf)
    (hq : (b.raise par e).smpq = b.smpq) : (b.reject par e).Sound par :=
  h.shrink ⟨by simp [Block.reject], by simp [Block.reject], hq.symm ▸ Nat.le_refl _, .inl hcf, by simp [Block.reject],
    by simp [Block.reject]⟩

theorem enqueue (h : b.Sound par) {r : FrameRec} (hroom : b.frmq.length < par.frmqDepth)
    (hr : r.payload.length ≤ par.lenMax) : Block.Sound par { b with frmq := b.frmq ++ [r] } := by
  refine { h with frmq := by simpa using hroom, frames := fun q hq => ?_ }
  rcases List.mem_append.1 hq with hold | hnew
  · exact h.frames q hold
  · exact List.mem_singleton.1 hnew ▸ hr

theorem load (h : b.Sound par) {f : ConvFrame} (hf : b.cfLegal f) : Block.Sound par { b with cf := some f } :=
  { h with cf := fun _ hg => Option.some.inj hg ▸ hf }

/-- An accepted frame has the length that the catalog gives its code, and its destination had room (R116, R117). -/
theorem accept (h : b.Sound par) {c : Byte} {p : List Byte} {ck : Byte} (hc : b.isCandidate c p ck = true)
    (hr : b.room par (b.dest c) = true) : (b.accept c p).Sound par := by
  obtain ⟨hk, hl, -⟩ := (b.isCandidate_iff c p ck).1 hc
  cases hd : b.dest c with
  | frmq =>
    obtain ⟨hq, hcf⟩ := Block.accept_of_frmq p hd
    have hroom : b.frmq.length < par.frmqDepth := by simpa [hd, Block.room] using hr
    exact (h.enqueue (r := { code := c, payload := p }) hroom (hl.trans_le (h.cat c))).shrink
      ⟨by simp, hq ▸ List.Sublist.refl _, by simp, .inl hcf, by simp, by simp⟩
  | conv =>
    obtain ⟨hq, hcf⟩ := Block.accept_of_conv p hd
    exact (h.load (f := { code := c, payload := p, k := 0 }) ⟨hk, hl, .inl rfl⟩).shrink
      ⟨by simp, hq ▸ List.Sublist.refl _, by simp, .inl hcf, by simp, by simp⟩

theorem convertible (h : b.Sound par) (hp : par.legal) : b.Convertible :=
  Inv.convertible (s := { par := par, blk := b, env := Env.silent }) ((inv_iff _).2 ⟨hp, h⟩)

/-- A frame of which a sample is pushed is value-bearing: at its first sample that has been tested (R173). -/
theorem kind_ne_nonvalue (h : b.Sound par) {f : ConvFrame} (hf : b.cf = some f) (hc : b.convCause f = none) :
    (b.cat.entry f.code).kind ≠ .nonvalue := by
  intro hkind
  obtain ⟨-, -, hk | ⟨hne, -⟩⟩ := h.cf f hf
  · simp [Block.convCause, hk, hkind] at hc
  · exact hne hkind

theorem push (h : b.Sound par) (hd : 1 ≤ par.smpqDepth) (r : RecordBody) : (b.smpPush par r).Sound par where
  buf := by simpa using h.buf
  frmq := by simpa using h.frmq
  smpq := Block.smpPush_length_le par r b hd h.smpq
  cf f hf := (Block.cfLegal_congr (by simp) (by simp) f).2 (h.cf f (by simpa using hf))
  nch := by simpa using h.nch
  cat := by simpa using h.cat
  frames := by simpa using h.frames

/-- A conversion empties CF, or moves on to the next of the frame's samples (R173 to R176). -/
theorem convert (h : b.Sound par) (hp : par.legal) {f : ConvFrame} (hf : b.cf = some f) :
    (b.convert par f).Sound par := by
  obtain ⟨-, hcf⟩ := (h.convertible hp).convert_cf par hf
  obtain ⟨-, -, -, -, ⟨hd, -⟩, -⟩ := hp
  rcases b.convert_cases par f with ⟨cause, -, -, he⟩ | ⟨hc, he⟩
  · have hcounted : Block.Sound par
        { b with decerrCnt := b.decerrCnt + 1, sticky := { b.sticky with decErr := true } } := { h with }
    rw [he, Block.raise_decodeError]
    exact { hcounted.push hd _ with cf := fun _ hg => nomatch hg }
  · have hkind := h.kind_ne_nonvalue hf hc
    have hpushed := h.push hd (b.sampleBody par f)
    rw [he] at hcf ⊢
    refine { hpushed with cf := fun g hg => ?_ }
    rcases hcf with hnone | ⟨hsome, hlt⟩
    · cases hnone.symm.trans hg
    · obtain rfl := Option.some.inj (hsome.symm.trans hg)
      obtain ⟨hk, hl, -⟩ := h.cf f hf
      exact (Block.cfLegal_congr (b := b) (by simp) (by simp) _).2
        ⟨hk, hl, .inr ⟨hkind, hlt⟩⟩

theorem writeCtrl (h : b.Sound par) (w : Word) : (b.writeCtrl par w).Sound par := by
  obtain ⟨_, _, _, _, he | he⟩ := b.writeCtrl_cases par w <;> rw [he]
  · exact { h with }
  · exact h.shrink ⟨Nat.zero_le _, List.nil_sublist _, Nat.zero_le _, .inr rfl, rfl, rfl⟩

/-- What a configuration write stores is legal, and CF is empty when it changes what CF is judged by (R187, R193,
R196). -/
theorem cfgWrite (h : b.Sound par) (i : CfgIndex) (w : Word) : (b.cfgWrite par i w).Sound par := by
  have hempty : b.unlocked par = true → ∀ {P : ConvFrame → Prop} f, b.cf = some f → P f := fun hu _ f hf => by
    rw [Block.cf_none_of_unlocked hu] at hf
    contradiction
  rcases b.cfgWrite_cases par i w with ⟨-, he⟩ | ⟨-, he⟩ |
    ⟨hu, ⟨-, h1, h2, he⟩ | ⟨lut, he⟩ | ⟨code, e, -, hw, he⟩⟩ | he <;> rw [he]
  · exact h.writeCtrl w
  · exact { h with }
  · exact { h with nch := ⟨h1, h2⟩, cf := hempty hu }
  · exact { h with }
  · exact { h with cat := lenLegal_put h.cat code (catOfWord_len_le hw), cf := hempty hu }
  · exact { h with }

theorem moves {t : Transition} (h : b.Sound par) (hp : par.legal) (hrx : ∀ x, t = .rx x → b.rxReady par = true)
    (hm : b.Moves par t b') : b'.Sound par := by
  cases hm with
  | rx x => exact h.rx (hrx x rfl) x
  | unknown c ho => exact h.reject rfl rfl
  | badck c ho => exact h.reject rfl rfl
  | frame c p ck ho hc hr => exact h.accept hc hr
  | conv f hf => exact h.convert hp hf
  | cfgRead i => exact h
  | cfgWrite i w => exact h.cfgWrite i w
  | frmPop => exact h.shrink ⟨Nat.le_refl _, List.tail_sublist _, Nat.le_refl _, .inl rfl, rfl, rfl⟩
  | reset => exact Block.sound_reset hp
  | smpPop => exact h.shrink ⟨Nat.le_refl _, .refl _, by simp, .inl rfl, rfl, rfl⟩

end Block.Sound

theorem fire_inv {t : Transition} {s s' : State} (h : Inv s) (ht : enabled t s = true) (hf : fire t s = .next s') :
    Inv s' := by
  obtain ⟨hp, hb⟩ := (inv_iff s).1 h
  refine (inv_iff s').2 ?_
  rw [fire_par hf]
  refine ⟨hp, hb.moves hp ?_ (fire_moves ht hf)⟩
  rintro x rfl
  exact ht

theorem Inv.setEnv {s : State} (h : Inv s) (e : Env) : Inv (s.setEnv e) := (inv_iff _).2 ((inv_iff s).1 h)

theorem step_inv {s s' : State} (h : Inv s) (hs : step s = .next s') : Inv s' := by
  rcases step_cases s with ⟨e, he, -⟩ | ⟨t, e, ht, he, -⟩
  · exact Host.Outcome.next.inj (he.symm.trans hs) ▸ h.setEnv e
  · exact fire_inv (h.setEnv e) (by rw [enabled_setEnv]; exact ht) (he.symm.trans hs)

theorem runsTo_inv {n : Nat} {s s' : State} (hrun : runsTo n s s') : Inv s → Inv s' :=
  runsTo_induction (P := fun s s' => Inv s → Inv s') (fun _ h => h) (fun _ _ _ hs ih h => ih (step_inv h hs)) hrun

/-- Settles O57: every move of the block keeps R53, and reset meets it. -/
theorem everyStepKeepsTheInvariants : Obligations.EveryStepKeepsTheInvariants :=
  ⟨fun _ _ => step_inv, fun _ e _ _ hp hrun => runsTo_inv hrun ((inv_boot hp).setEnv e)⟩

end Sys2Proof.Machine
end

section
/-! POS plus the bytes in BUF counts the bytes that RX has taken in (spec/10_state.md R22). -/

namespace Sys2Proof.Machine

open Sys2Proof

/-- How many bytes the block has taken in, modulo 2^32: those that have left BUF and those in it (R22). -/
def Block.bytesTaken (b : Block) : Word := b.pos + BitVec.ofNat 32 b.buf.length

theorem Block.bytesTaken_congr {b b' : Block} (hp : b'.pos = b.pos) (hb : b'.buf = b.buf) :
    b'.bytesTaken = b.bytesTaken := by
  rw [Block.bytesTaken, hp, hb, Block.bytesTaken]

theorem Block.bytesTaken_append (b : Block) (x : Byte) :
    Block.bytesTaken { b with buf := b.buf ++ [x] } = b.bytesTaken + 1 := by
  simp [Block.bytesTaken, BitVec.ofNat_add, BitVec.add_assoc]

/-- Bytes that leave the head of BUF are counted by POS (R114). -/
theorem Block.bytesTaken_advance {m : Nat} {b : Block} (h : m ≤ b.buf.length) :
    (b.advance m).bytesTaken = b.bytesTaken := by
  rw [Block.bytesTaken, Block.advance_pos, Block.advance_buf, List.length_drop, BitVec.add_assoc, ← BitVec.ofNat_add,
    Nat.add_sub_cancel' h, Block.bytesTaken]

theorem Block.bytesTaken_reject (par : Params) (e : Event) {b : Block} (h : 1 ≤ b.buf.length) :
    (b.reject par e).bytesTaken = b.bytesTaken := by
  rw [Block.reject, Block.bytesTaken_advance (by rwa [Block.raise_buf])]
  exact Block.bytesTaken_congr (Block.raise_pos par e b) (Block.raise_buf par e b)

theorem Block.bytesTaken_accept (c : Byte) {p : List Byte} {b : Block} (h : p.length + 2 ≤ b.buf.length) :
    (b.accept c p).bytesTaken = b.bytesTaken :=
  (Block.bytesTaken_congr (by simp) (by simp)).trans (Block.bytesTaken_advance h)

theorem Block.bytesTaken_flush (b : Block) : b.flush.bytesTaken = b.bytesTaken := by
  simp [Block.bytesTaken]

theorem Block.bytesTaken_convert (par : Params) (f : ConvFrame) (b : Block) :
    (b.convert par f).bytesTaken = b.bytesTaken := by
  refine Block.bytesTaken_congr ?_ (by simp)
  rcases b.convert_cases par f with ⟨_, -, -, h⟩ | ⟨-, h⟩ <;> simp [h]

theorem Block.bytesTaken_writeCtrl (par : Params) (w : Word) (b : Block) :
    (b.writeCtrl par w).bytesTaken = b.bytesTaken := by
  obtain ⟨_, _, _, _, he | he⟩ := b.writeCtrl_cases par w <;> rw [he]
  · rfl
  · exact Block.bytesTaken_flush _

/-- Of the configuration writes only a flush moves bytes, and it counts them (R191). -/
theorem Block.bytesTaken_cfgWrite (par : Params) (i : CfgIndex) (w : Word) (b : Block) :
    (b.cfgWrite par i w).bytesTaken = b.bytesTaken := by
  rcases b.cfgWrite_cases par i w with ⟨-, he⟩ | ⟨-, he⟩ |
    ⟨-, ⟨-, -, -, he⟩ | ⟨lut, he⟩ | ⟨code, e, -, -, he⟩⟩ | he <;> rw [he]
  · exact b.bytesTaken_writeCtrl par w
  all_goals rfl

/-- No move but RX and RESET takes in a byte or loses one. -/
theorem Block.Moves.bytesTaken {par : Params} {b b' : Block} {t : Transition} (h : b.Moves par t b')
    (hrx : ∀ x, t ≠ .rx x) (hr : t ≠ .host .reset) : b'.bytesTaken = b.bytesTaken := by
  cases h with
  | rx x => exact absurd rfl (hrx x)
  | unknown c ho => exact Block.bytesTaken_reject par _ (Block.buf_pos_of_outcome (par := par) (by simp [ho]))
  | badck c ho => exact Block.bytesTaken_reject par _ (Block.buf_pos_of_outcome (par := par) (by simp [ho]))
  | frame c p ck ho hc hroom => exact Block.bytesTaken_accept c (Block.candidate_length hc)
  | conv f hf => exact b.bytesTaken_convert par f
  | cfgRead i => rfl
  | cfgWrite i w => exact b.bytesTaken_cfgWrite par i w
  | frmPop => rfl
  | reset => exact absurd rfl hr
  | smpPop => rfl

/-- Settles O53: the byte that RX appends is one more taken in, and what the other moves discard POS counts. -/
theorem bytesAreConserved : Obligations.BytesAreConserved := by
  refine fun t s s' hf hr => ⟨?_, fun hrx => ?_⟩
  · rintro ⟨x, rfl⟩
    exact Host.Outcome.next.inj hf ▸ s.blk.bytesTaken_append x
  · rcases fire_cases hf with hm | ⟨-, he⟩
    · exact hm.bytesTaken hrx hr
    · rw [he]

end Sys2Proof.Machine
end

section
/-! Each event counter moves with its own event (spec/10_state.md R35 to R40). -/

namespace Sys2Proof.Machine

open Sys2Proof

/-! ## The counters that a push and a conversion move -/

@[simp] theorem Block.smpPush_dropCnt (par : Params) (r : RecordBody) (b : Block) :
    (b.smpPush par r).dropCnt = if b.smpq.length = par.smpqDepth then b.dropCnt + 1 else b.dropCnt := by
  by_cases h : b.smpq.length = par.smpqDepth <;> simp [Block.smpPush, h]

@[simp] theorem Block.convert_corruptCnt (par : Params) (f : ConvFrame) (b : Block) :
    (b.convert par f).corruptCnt = b.corruptCnt := by
  rcases b.convert_cases par f with ⟨_, -, -, h⟩ | ⟨-, h⟩ <;> simp [h, Block.raise_decodeError]
@[simp] theorem Block.convert_unknownCnt (par : Params) (f : ConvFrame) (b : Block) :
    (b.convert par f).unknownCnt = b.unknownCnt := by
  rcases b.convert_cases par f with ⟨_, -, -, h⟩ | ⟨-, h⟩ <;> simp [h, Block.raise_decodeError]
@[simp] theorem Block.convert_frameCnt (par : Params) (f : ConvFrame) (b : Block) :
    (b.convert par f).frameCnt = b.frameCnt := by
  rcases b.convert_cases par f with ⟨_, -, -, h⟩ | ⟨-, h⟩ <;> simp [h]

/-- DECERR_CNT moves in a conversion that finds a cause (R173 to R175). -/
@[simp] theorem Block.convert_decerrCnt (par : Params) (f : ConvFrame) (b : Block) :
    (b.convert par f).decerrCnt = if b.convCause f = none then b.decerrCnt else b.decerrCnt + 1 := by
  rcases b.convert_cases par f with ⟨_, hc, -, h⟩ | ⟨hc, h⟩ <;> simp [h, hc, Block.raise_decodeError]

/-- DROP_CNT moves in every conversion that finds SMPQ full: a conversion pushes one record, of a sample or of an error
(R178). -/
@[simp] theorem Block.convert_dropCnt (par : Params) (f : ConvFrame) (b : Block) :
    (b.convert par f).dropCnt = if b.smpq.length = par.smpqDepth then b.dropCnt + 1 else b.dropCnt := by
  rcases b.convert_cases par f with ⟨_, -, -, h⟩ | ⟨-, h⟩ <;> simp [h, Block.raise_decodeError]

/-! ## Moves that are no counted event -/

/-- The five event counters are the same in both blocks. -/
structure Block.SameCounts (b b' : Block) : Prop where
  corruptCnt : b'.corruptCnt = b.corruptCnt
  unknownCnt : b'.unknownCnt = b.unknownCnt
  frameCnt : b'.frameCnt = b.frameCnt
  decerrCnt : b'.decerrCnt = b.decerrCnt
  dropCnt : b'.dropCnt = b.dropCnt

theorem Block.sameCounts_writeCtrl (par : Params) (w : Word) (b : Block) : b.SameCounts (b.writeCtrl par w) := by
  obtain ⟨_, _, _, _, he | he⟩ := b.writeCtrl_cases par w <;> rw [he] <;> exact ⟨rfl, rfl, rfl, rfl, rfl⟩

/-- No configuration write is a counted event: a refusal has a flag and no counter (R230). -/
theorem Block.sameCounts_cfgWrite (par : Params) (i : CfgIndex) (w : Word) (b : Block) :
    b.SameCounts (b.cfgWrite par i w) := by
  rcases b.cfgWrite_cases par i w with ⟨-, he⟩ | ⟨-, he⟩ |
    ⟨-, ⟨-, -, -, he⟩ | ⟨lut, he⟩ | ⟨code, e, -, -, he⟩⟩ | he <;> rw [he]
  · exact b.sameCounts_writeCtrl par w
  all_goals exact ⟨rfl, rfl, rfl, rfl, rfl⟩

theorem Block.Moves.sameCounts {par : Params} {b b' : Block} {t : Transition} (h : b.Moves par t b')
    (hscan : t ≠ .scan) (hconv : t ≠ .conv) (hr : t ≠ .host .reset) : b.SameCounts b' := by
  cases h with
  | rx x => exact ⟨rfl, rfl, rfl, rfl, rfl⟩
  | unknown c ho => contradiction
  | badck c ho => contradiction
  | frame c p ck ho hc hroom => contradiction
  | conv f hf => contradiction
  | cfgRead i => exact ⟨rfl, rfl, rfl, rfl, rfl⟩
  | cfgWrite i w => exact b.sameCounts_cfgWrite par i w
  | frmPop => exact ⟨rfl, rfl, rfl, rfl, rfl⟩
  | reset => contradiction
  | smpPop => exact ⟨rfl, rfl, rfl, rfl, rfl⟩

/-! ## Counters and events -/

/-- The counter value `n` becomes `n'`: one more with the event `E`, the same without it. -/
def Counts (E : Prop) (n n' : Word) : Prop := n' = n + 1 ∧ E ∨ n' = n ∧ ¬ E

theorem Counts.of_event {E : Prop} {n n' : Word} (hn : n' = n + 1) (h : E) : Counts E n n' := .inl ⟨hn, h⟩

theorem Counts.of_not {E : Prop} {n n' : Word} (hn : n' = n) (h : ¬ E) : Counts E n n' := .inr ⟨hn, h⟩

/-- The event as the transition `t` of its own agent. -/
theorem Counts.and_left {A E : Prop} {n n' : Word} (h : Counts E n n') (ha : A) : Counts (A ∧ E) n n' :=
  h.imp (fun ⟨hn, he⟩ => ⟨hn, ha, he⟩) fun ⟨hn, he⟩ => ⟨hn, fun hae => he hae.2⟩

theorem Counts.of_other_agent {A E : Prop} {n n' : Word} (hn : n' = n) (ha : ¬ A) : Counts (A ∧ E) n n' :=
  .of_not hn fun hae => ha hae.1

section Events

variable {par : Params} {b b' : Block}

/-- CORRUPT_CNT, UNKNOWN_CNT and FRAME_CNT count the three decisions of SCAN (R35, R36, R38). -/
theorem Block.Moves.scan_counts (h : b.Moves par .scan b') :
    Counts (∃ c, b.outcome par = .badck c) b.corruptCnt b'.corruptCnt ∧
    Counts (∃ c, b.outcome par = .unknown c) b.unknownCnt b'.unknownCnt ∧
    Counts (∃ c p, b.outcome par = .frame c p) b.frameCnt b'.frameCnt ∧
    b'.decerrCnt = b.decerrCnt ∧ b'.dropCnt = b.dropCnt := by
  cases h with
  | unknown c ho => exact ⟨.of_not rfl (by simp [ho]), .of_event rfl ⟨c, ho⟩, .of_not rfl (by simp [ho]), rfl, rfl⟩
  | badck c ho => exact ⟨.of_event rfl ⟨c, ho⟩, .of_not rfl (by simp [ho]), .of_not rfl (by simp [ho]), rfl, rfl⟩
  | frame c p ck ho =>
    exact ⟨.of_not (by simp) (by simp [ho]), .of_not (by simp) (by simp [ho]), .of_event (by simp) ⟨c, p, ho⟩,
      by simp, by simp⟩

/-- DECERR_CNT and DROP_CNT count what a conversion finds: a cause, and SMPQ full (R37, R39). -/
theorem Block.Moves.conv_counts (h : b.Moves par .conv b') :
    b'.corruptCnt = b.corruptCnt ∧ b'.unknownCnt = b.unknownCnt ∧ b'.frameCnt = b.frameCnt ∧
    Counts (∃ f cause, b.cf = some f ∧ b.convCause f = some cause) b.decerrCnt b'.decerrCnt ∧
    Counts (b.smpq.length = par.smpqDepth) b.dropCnt b'.dropCnt := by
  cases h with
  | conv f hf =>
    refine ⟨by simp, by simp, by simp, ?_, ?_⟩
    · cases hc : b.convCause f with
      | none => exact .of_not (by simp [hc]) (by simp [hf, hc])
      | some cause => exact .of_event (by simp [hc]) ⟨f, cause, hf, hc⟩
    · by_cases hq : b.smpq.length = par.smpqDepth
      · exact .of_event (by simp [hq]) hq
      · exact .of_not (by simp [hq]) hq

end Events

/-- Settles O52: SCAN moves the counter of its decision, CONV those of what it finds, and no other transition is a counted
event. -/
theorem eachCounterCountsItsEvent : Obligations.EachCounterCountsItsEvent := by
  intro t s s' ht hf hr
  have hm := fire_moves ht hf
  by_cases hscan : t = .scan
  · have hconv : t ≠ .conv := by simp [hscan]
    obtain ⟨hcorrupt, hunknown, hframe, hdecerr, hdrop⟩ := (hscan ▸ hm).scan_counts
    exact ⟨hcorrupt.and_left hscan, hunknown.and_left hscan, hframe.and_left hscan,
      Counts.of_other_agent hdecerr hconv, Counts.of_other_agent hdrop hconv⟩
  by_cases hconv : t = .conv
  · obtain ⟨hcorrupt, hunknown, hframe, hdecerr, hdrop⟩ := (hconv ▸ hm).conv_counts
    exact ⟨Counts.of_other_agent hcorrupt hscan, Counts.of_other_agent hunknown hscan,
      Counts.of_other_agent hframe hscan, hdecerr.and_left hconv, hdrop.and_left hconv⟩
  · obtain ⟨hcorrupt, hunknown, hframe, hdecerr, hdrop⟩ := hm.sameCounts hscan hconv hr
    exact ⟨Counts.of_other_agent hcorrupt hscan, Counts.of_other_agent hunknown hscan,
      Counts.of_other_agent hframe hscan, Counts.of_other_agent hdecerr hconv, Counts.of_other_agent hdrop hconv⟩

end Sys2Proof.Machine
end

section
/-! The sticky flags (spec/10_state.md R31): which moves set them, and what alone clears them. The refused configuration
writes (spec/44_host_ops.md R204), one rule at a time. -/

namespace Sys2Proof.Machine

open Sys2Proof

/-! ## The index map, read from the index (R41) -/

theorem cfgReg_of_ge {nchMax : Nat} {i : CfgIndex} (h : 9 < i.toNat) :
    cfgReg nchMax i =
      if 0x040 ≤ i.toNat ∧ i.toNat < 0x080 then
        if (i.toNat - 0x040) / 4 < nchMax then
          lutReg (Fin.ofNat 16 ((i.toNat - 0x040) / 4)) ((i.toNat - 0x040) % 4)
        else .unmapped
      else if 0x100 ≤ i.toNat ∧ i.toNat < 0x200 then .cat (BitVec.ofNat 8 (i.toNat - 0x100))
      else .unmapped := by
  unfold cfgReg
  split <;> first | omega | rfl

theorem cfgReg_lut {par : Params} {i : CfgIndex} (h : lutIndex par i.toNat) :
    ∃ c, cfgReg par.nchMax i = .lutScale c ∨ cfgReg par.nchMax i = .lutOffset c ∨ cfgReg par.nchMax i = .lutMeta c := by
  obtain ⟨hlo, hhi, hc, hw⟩ := h
  refine ⟨Fin.ofNat 16 ((i.toNat - 0x040) / 4), ?_⟩
  rw [cfgReg_of_ge (by omega), if_pos ⟨hlo, hhi⟩, if_pos hc]
  have hcases : (i.toNat - 0x040) % 4 = 0 ∨ (i.toNat - 0x040) % 4 = 1 ∨ (i.toNat - 0x040) % 4 = 2 := by omega
  exact hcases.imp (fun h0 => by rw [h0]; rfl) (.imp (fun h1 => by rw [h1]; rfl) fun h2 => by rw [h2]; rfl)

theorem cfgReg_cat {nchMax : Nat} {i : CfgIndex} (h : catIndex i.toNat) : ∃ code, cfgReg nchMax i = .cat code := by
  rw [cfgReg_of_ge (by omega), if_neg (by omega), if_pos h]
  exact ⟨_, rfl⟩

theorem cfgReg_unmapped {par : Params} {i : CfgIndex} (h : unmappedIndex par i.toNat) :
    cfgReg par.nchMax i = .unmapped := by
  obtain ⟨hlo, hlut, hcat⟩ := h
  rw [cfgReg_of_ge hlo, if_neg hcat]
  split
  · rename_i hrange
    split
    · rename_i hc
      have hw : (i.toNat - 0x040) % 4 = 3 := by
        by_contra hne
        exact hlut ⟨hrange.1, hrange.2, hc, by omega⟩
      rw [hw]
      rfl
    · rfl
  · rfl

theorem lutReg_ne_status (c : Fin 16) (f : Nat) : lutReg c f ≠ .status := by
  unfold lutReg
  split <;> exact CfgReg.noConfusion

/-- Only the index 0x001 leads to STATUS. -/
theorem index_of_cfgReg_status {nchMax : Nat} {i : CfgIndex} (h : cfgReg nchMax i = .status) : i = 0x001 := by
  unfold cfgReg at h
  split at h <;> try contradiction
  · exact BitVec.eq_of_toNat_eq (by assumption)
  · split_ifs at h
    exact absurd h (lutReg_ne_status _ _)

/-! ## Refused writes (R204) -/

@[simp] theorem Block.writeCtrl_sticky (par : Params) (w : Word) (b : Block) :
    (b.writeCtrl par w).sticky = (b.writeRoute par w).sticky := by
  unfold Block.writeCtrl
  dsimp only
  split <;> rfl

section Refused

variable {par : Params} {b : Block} {i : CfgIndex} {w : Word}

theorem Block.writeRoute_of_refused (hd : w.extractLsb' 1 2 ≠ b.route.bits ∨ w.getLsbD 3 ≠ b.policy.bit)
    (h : b.unlocked par = false ∨ w.extractLsb' 1 2 = 3) : b.writeRoute par w = b.refuse par := by
  unfold Block.writeRoute
  dsimp only
  rw [if_pos hd]
  split
  · rename_i r hr
    rcases h with hu | h3
    · rw [hu, if_neg Bool.false_ne_true]
    · rw [h3] at hr
      exact absurd hr (by simp [Route.ofBits])
  · rfl

theorem Block.writeNch_of_refused
    (h : b.unlocked par = false ∨ (w.extractLsb' 0 5).toNat = 0 ∨ par.nchMax < (w.extractLsb' 0 5).toNat) :
    b.writeNch par w = b.refuse par := by
  rcases b.writeNch_cases par w with ⟨hu, h1, h2, -⟩ | he
  · rcases h with hl | hn
    · rw [hu] at hl
      contradiction
    · omega
  · exact he

theorem Block.writeLut_of_locked (hu : b.unlocked par = false) (c : Fin 16) (f : LutEntry → LutEntry) :
    b.writeLut par c f = b.refuse par := by
  simp [Block.writeLut, hu]

theorem catOfWord_none {lenMax : Nat} (h : w.extractLsb' 16 2 = 3 ∨ lenMax < (w.extractLsb' 0 8).toNat) :
    catOfWord lenMax w = none := by
  unfold catOfWord
  rcases h with hk | hl
  · rw [hk]
    rfl
  · split
    · rfl
    · rw [if_neg (Nat.not_le.2 hl)]

theorem Block.writeCat_of_refused (code : Byte) (h : b.unlocked par = false ∨ w.extractLsb' 16 2 = 3 ∨
    par.lenMax < (w.extractLsb' 0 8).toNat) : b.writeCat par code w = b.refuse par := by
  rcases b.writeCat_cases par code w with ⟨e, he, hu, -⟩ | he
  · rcases h with hl | hw
    · rw [hu] at hl
      contradiction
    · rw [catOfWord_none hw] at he
      contradiction
  · exact he

theorem Block.cfgWrite_lut_of_locked (hi : lutIndex par i.toNat) (hu : b.unlocked par = false) :
    b.cfgWrite par i w = b.refuse par := by
  obtain ⟨c, hr | hr | hr⟩ := cfgReg_lut hi <;> simp only [Block.cfgWrite, hr, Block.writeLut_of_locked hu]

theorem Block.cfgWrite_readOnly (hi : readOnlyIndex i.toNat) : b.cfgWrite par i w = b.refuse par := by
  obtain ⟨hlo, hhi⟩ := hi
  have hcases : i.toNat = 3 ∨ i.toNat = 4 ∨ i.toNat = 5 ∨ i.toNat = 6 ∨ i.toNat = 7 ∨ i.toNat = 8 ∨ i.toNat = 9 := by
    omega
  rcases hcases with h | h | h | h | h | h | h <;> simp [Block.cfgWrite, cfgReg, h]

/-- A refused write sets CFG_ERR, whichever rule refuses it (R186, R230). -/
theorem Block.cfgErr_of_refusedWrite (h : refusedWrite par b i w) : (b.cfgWrite par i w).sticky.cfgErr = true := by
  have hrefused : b.cfgWrite par i w = b.refuse par → (b.cfgWrite par i w).sticky.cfgErr = true :=
    fun he => by rw [he]; rfl
  rcases h with ⟨h0, hd, hl⟩ | ⟨h2, hn⟩ | ⟨hi, hu⟩ | ⟨hi, hw⟩ | hi | hi
  · have hctrl : b.cfgWrite par i w = b.writeCtrl par w := by simp [Block.cfgWrite, cfgReg, h0]
    rw [hctrl, Block.writeCtrl_sticky, Block.writeRoute_of_refused hd hl]
    rfl
  · exact hrefused (by simp [Block.cfgWrite, cfgReg, h2, Block.writeNch_of_refused hn])
  · exact hrefused (Block.cfgWrite_lut_of_locked hi hu)
  · obtain ⟨code, hr⟩ := cfgReg_cat (nchMax := par.nchMax) hi
    exact hrefused (by simp only [Block.cfgWrite, hr, Block.writeCat_of_refused code hw])
  · exact hrefused (Block.cfgWrite_readOnly hi)
  · exact hrefused (by simp only [Block.cfgWrite, cfgReg_unmapped hi])

end Refused

/-! ## The flags that a push and a conversion set -/

@[simp] theorem Block.smpPush_sticky (par : Params) (r : RecordBody) (b : Block) :
    (b.smpPush par r).sticky =
      { b.sticky with smpDrop := b.sticky.smpDrop || decide (b.smpq.length = par.smpqDepth) } := by
  by_cases h : b.smpq.length = par.smpqDepth <;> simp [Block.smpPush, h]

/-- A conversion sets DEC_ERR if it finds a cause, and SMP_DROP if it finds SMPQ full (R173 to R178). -/
@[simp] theorem Block.convert_sticky (par : Params) (f : ConvFrame) (b : Block) :
    (b.convert par f).sticky =
      { b.sticky with
        decErr := b.sticky.decErr || (b.convCause f).isSome
        smpDrop := b.sticky.smpDrop || decide (b.smpq.length = par.smpqDepth) } := by
  rcases b.convert_cases par f with ⟨_, hc, -, h⟩ | ⟨hc, h⟩ <;> simp [h, hc, Block.raise_decodeError]

/-! ## A flag stays set -/

/-- Every flag that is set in `f` is set in `g`. -/
structure Sticky.KeptIn (f g : Sticky) : Prop where
  corrupt : f.corrupt = true → g.corrupt = true
  unknown : f.unknown = true → g.unknown = true
  decErr : f.decErr = true → g.decErr = true
  smpDrop : f.smpDrop = true → g.smpDrop = true
  cfgErr : f.cfgErr = true → g.cfgErr = true

theorem Sticky.KeptIn.of_eq {f g : Sticky} (h : g = f) : f.KeptIn g := h ▸ ⟨id, id, id, id, id⟩

theorem Sticky.KeptIn.setCfgErr (f : Sticky) : f.KeptIn { f with cfgErr := true } := ⟨id, id, id, id, fun _ => rfl⟩

/-- A configuration write clears no flag unless it is to STATUS (R192). -/
theorem Block.cfgWrite_keeps_sticky (par : Params) (i : CfgIndex) (w : Word) (b : Block) :
    b.sticky.KeptIn (b.cfgWrite par i w).sticky ∨
      (i = 0x001 ∧ (b.cfgWrite par i w).sticky = b.sticky.clearBy w) := by
  rcases b.cfgWrite_cases par i w with ⟨-, he⟩ | ⟨hr, he⟩ |
    ⟨-, ⟨-, -, -, he⟩ | ⟨lut, he⟩ | ⟨code, e, -, -, he⟩⟩ | he <;> rw [he]
  · rw [Block.writeCtrl_sticky]
    rcases b.writeRoute_cases par w with ⟨r, -, -, hw⟩ | hw | hw <;> rw [hw]
    · exact .inl (.of_eq rfl)
    · exact .inl (.setCfgErr _)
    · exact .inl (.of_eq rfl)
  · exact .inr ⟨index_of_cfgReg_status hr, rfl⟩
  · exact .inl (.of_eq rfl)
  · exact .inl (.of_eq rfl)
  · exact .inl (.of_eq rfl)
  · exact .inl (.setCfgErr _)

theorem Block.Moves.keeps_sticky {par : Params} {b b' : Block} {t : Transition} (h : b.Moves par t b')
    (hr : t ≠ .host .reset) :
    b.sticky.KeptIn b'.sticky ∨ ∃ w, t = .host (.cfgWrite 0x001 w) ∧ b'.sticky = b.sticky.clearBy w := by
  cases h with
  | rx x => exact .inl (.of_eq rfl)
  | unknown c ho => exact .inl ⟨id, fun _ => rfl, id, id, id⟩
  | badck c ho => exact .inl ⟨fun _ => rfl, id, id, id, id⟩
  | frame c p ck ho hc hroom => exact .inl (.of_eq (b.accept_sticky c p))
  | conv f hf =>
    rw [Block.convert_sticky]
    exact .inl ⟨id, id, fun h => by simp [h], fun h => by simp [h], id⟩
  | cfgRead i => exact .inl (.of_eq rfl)
  | cfgWrite i w =>
    rcases b.cfgWrite_keeps_sticky par i w with hk | ⟨rfl, hs⟩
    · exact .inl hk
    · exact .inr ⟨w, rfl, hs⟩
  | frmPop => exact .inl (.of_eq rfl)
  | reset => contradiction
  | smpPop => exact .inl (.of_eq rfl)

/-- A flag that a word written to STATUS clears by its bit `n` alone is lost to such a write only. -/
theorem Block.Moves.keeps_flag {par : Params} {b b' : Block} {t : Transition} (h : b.Moves par t b')
    (hr : t ≠ .host .reset) {flag : Sticky → Bool} {n : Nat}
    (hkept : ∀ {f g : Sticky}, f.KeptIn g → flag f = true → flag g = true)
    (hclear : ∀ f w, flag (Sticky.clearBy f w) = (flag f && !w.getLsbD n)) (hset : flag b.sticky = true) :
    flag b'.sticky = true ∨ ∃ w, t = .host (.cfgWrite 0x001 w) ∧ w.getLsbD n = true := by
  rcases h.keeps_sticky hr with hk | ⟨w, rfl, hs⟩
  · exact .inl (hkept hk hset)
  · rw [hs, hclear, hset]
    cases hn : w.getLsbD n with
    | false => exact .inl rfl
    | true => exact .inr ⟨w, rfl, hn⟩

/-! ## A flag is set by its event -/

theorem Block.Moves.corrupt_of_badck {par : Params} {b b' : Block} {c : Byte} (h : b.Moves par .scan b')
    (ho : b.outcome par = .badck c) : b'.sticky.corrupt = true := by
  cases h with
  | badck _ _ => rfl
  | unknown _ ho' => cases ho.symm.trans ho'
  | frame _ _ _ ho' => cases ho.symm.trans ho'

theorem Block.Moves.unknown_of_unknown {par : Params} {b b' : Block} {c : Byte} (h : b.Moves par .scan b')
    (ho : b.outcome par = .unknown c) : b'.sticky.unknown = true := by
  cases h with
  | unknown _ _ => rfl
  | badck _ ho' => cases ho.symm.trans ho'
  | frame _ _ _ ho' => cases ho.symm.trans ho'

theorem Block.Moves.decErr_of_convCause {par : Params} {b b' : Block} {f : ConvFrame} {cause : Cause}
    (h : b.Moves par .conv b') (hf : b.cf = some f) (hc : b.convCause f = some cause) :
    b'.sticky.decErr = true := by
  cases h with
  | conv g hg =>
    obtain rfl := Option.some.inj (hf.symm.trans hg)
    simp [hc]

theorem Block.Moves.smpDrop_of_full {par : Params} {b b' : Block} (h : b.Moves par .conv b')
    (hq : b.smpq.length = par.smpqDepth) : b'.sticky.smpDrop = true := by
  cases h with
  | conv f hf => simp [hq]

theorem Block.Moves.cfgErr_of_refusedWrite {par : Params} {b b' : Block} {i : CfgIndex} {w : Word}
    (h : b.Moves par (.host (.cfgWrite i w)) b') (hw : refusedWrite par b i w) : b'.sticky.cfgErr = true := by
  cases h with
  | cfgWrite => exact Block.cfgErr_of_refusedWrite hw

/-- Settles O51: each event's move sets its flag, and only a STATUS write that names a flag clears it. -/
theorem stickyFlagsStaySet : Obligations.StickyFlagsStaySet := by
  intro t s s' ht hf hr
  have hm := fire_moves ht hf
  refine ⟨?_, ?_, ?_, ?_, ?_, hm.keeps_flag hr (·.corrupt) fun _ _ => rfl, hm.keeps_flag hr (·.unknown) fun _ _ => rfl,
    hm.keeps_flag hr (·.decErr) fun _ _ => rfl, hm.keeps_flag hr (·.smpDrop) fun _ _ => rfl,
    hm.keeps_flag hr (·.cfgErr) fun _ _ => rfl⟩
  · rintro ⟨rfl, c, ho⟩
    exact hm.corrupt_of_badck ho
  · rintro ⟨rfl, c, ho⟩
    exact hm.unknown_of_unknown ho
  · rintro ⟨rfl, f, cause, hcf, hc⟩
    exact hm.decErr_of_convCause hcf hc
  · rintro ⟨rfl, hq⟩
    exact hm.smpDrop_of_full hq
  · rintro ⟨i, w, rfl, hw⟩
    exact hm.cfgErr_of_refusedWrite hw

end Sys2Proof.Machine
end

section
/-! The records of SMPQ stay numbered one after the other (spec/20_memory.md R71 (d), spec/43_converter.md R178). -/

namespace Sys2Proof.Machine

open Sys2Proof

section SeqConsecutive

variable {par : Params} {b b' : Block}

theorem Block.seqConsecutive_of_nil (h : b.smpq = []) : b.seqConsecutive := by
  intro j hj
  simp [h] at hj

/-- Only SMPQ and SEQ are spoken of. -/
theorem Block.seqConsecutive.of_eq (h : b.seqConsecutive) (hq : b'.smpq = b.smpq) (hn : b'.seq = b.seq) :
    b'.seqConsecutive := by
  unfold Block.seqConsecutive
  rw [hq, hn]
  exact h

/-- The head of SMPQ may leave it, by a pop or as the oldest record (R178, R206). -/
theorem Block.seqConsecutive.tail (h : b.seqConsecutive) : Block.seqConsecutive { b with smpq := b.smpq.tail } := by
  intro j hj
  have hj' : j + 1 < b.smpq.length := by simpa [Nat.lt_sub_iff_add_lt] using hj
  have hlen : b.smpq.tail.length - j = b.smpq.length - (j + 1) := by rw [List.length_tail, Nat.sub_sub, Nat.add_comm]
  show b.smpq.tail[j].seq + BitVec.ofNat 64 (b.smpq.tail.length - j) = b.seq
  rw [hlen, List.getElem_tail]
  exact h (j + 1) hj'

/-- A record that takes the number SEQ follows the others, of which each is now one further from SEQ (R178). -/
theorem Block.seqConsecutive.append (h : b.seqConsecutive) (r : RecordBody) :
    Block.seqConsecutive { b with smpq := b.smpq ++ [{ seq := b.seq, body := r }], seq := b.seq + 1 } := by
  intro j hj
  show (b.smpq ++ [Record.mk b.seq r])[j].seq + BitVec.ofNat 64 ((b.smpq ++ [Record.mk b.seq r]).length - j) = b.seq + 1
  rw [List.length_append, List.length_singleton]
  rcases Nat.lt_or_ge j b.smpq.length with hold | hnew
  · rw [List.getElem_append_left hold, Nat.sub_add_comm hold.le, BitVec.ofNat_add, ← BitVec.add_assoc, h j hold]
    rfl
  · obtain rfl : j = b.smpq.length := by
      have : j < b.smpq.length + 1 := by simpa using hj
      omega
    rw [List.getElem_concat_length rfl, Nat.add_sub_cancel_left]
    rfl

theorem Block.seqConsecutive.push (h : b.seqConsecutive) (par : Params) (r : RecordBody) :
    (b.smpPush par r).seqConsecutive := by
  by_cases hf : b.smpq.length = par.smpqDepth
  · rw [Block.smpPush_of_full par r b hf]
    exact (h.tail.append r).of_eq (by simp) rfl
  · rw [Block.smpPush_of_room par r b hf]
    exact h.append r

theorem Block.seqConsecutive.convert (h : b.seqConsecutive) (par : Params) (f : ConvFrame) :
    (b.convert par f).seqConsecutive := by
  rcases b.convert_cases par f with ⟨cause, -, -, he⟩ | ⟨-, he⟩ <;> rw [he]
  · have hcounted : Block.seqConsecutive
        { b with decerrCnt := b.decerrCnt + 1, sticky := { b.sticky with decErr := true } } := h
    exact (hcounted.push par (.err cause f.code f.payload.length)).of_eq rfl rfl
  · exact (h.push par (b.sampleBody par f)).of_eq rfl rfl

theorem Block.seqConsecutive.writeCtrl (h : b.seqConsecutive) (par : Params) (w : Word) :
    (b.writeCtrl par w).seqConsecutive := by
  obtain ⟨_, _, _, _, he | he⟩ := b.writeCtrl_cases par w <;> rw [he]
  · exact h.of_eq rfl rfl
  · exact Block.seqConsecutive_of_nil rfl

/-- A flush empties SMPQ and keeps SEQ; no other configuration write touches either (R191). -/
theorem Block.seqConsecutive.cfgWrite (h : b.seqConsecutive) (par : Params) (i : CfgIndex) (w : Word) :
    (b.cfgWrite par i w).seqConsecutive := by
  rcases b.cfgWrite_cases par i w with ⟨-, he⟩ | ⟨-, he⟩ |
    ⟨-, ⟨-, -, -, he⟩ | ⟨lut, he⟩ | ⟨code, e, -, -, he⟩⟩ | he <;> rw [he]
  · exact h.writeCtrl par w
  all_goals exact h.of_eq rfl rfl

theorem Block.Moves.seqConsecutive {t : Transition} (hm : b.Moves par t b') (h : b.seqConsecutive) :
    b'.seqConsecutive := by
  cases hm with
  | rx x => exact h.of_eq rfl rfl
  | unknown c ho => exact h.of_eq rfl rfl
  | badck c ho => exact h.of_eq rfl rfl
  | frame c p ck ho hc hr => exact h.of_eq (by simp) (by simp)
  | conv f hf => exact h.convert par f
  | cfgRead i => exact h
  | cfgWrite i w => exact h.cfgWrite par i w
  | frmPop => exact h.of_eq rfl rfl
  | reset => exact Block.seqConsecutive_of_nil rfl
  | smpPop => exact h.tail

end SeqConsecutive

theorem step_seqConsecutive {s s' : State} (h : s.blk.seqConsecutive) (hs : step s = .next s') :
    s'.blk.seqConsecutive := by
  rcases step_cases s with ⟨e, he, -⟩ | ⟨t, e, ht, he, -⟩
  · exact Host.Outcome.next.inj (he.symm.trans hs) ▸ h
  · have hm := fire_moves (s := s.setEnv e) ((enabled_setEnv t s e).trans ht) (he.symm.trans hs)
    exact hm.seqConsecutive h

/-- Settles O58: SMPQ is empty after reset, loses records at its head only or all at once, and takes a record with the
number SEQ. -/
theorem sequenceNumbersStayConsecutive : Obligations.SequenceNumbersStayConsecutive :=
  ⟨fun _ => Block.seqConsecutive_of_nil rfl, fun _ _ => step_seqConsecutive⟩

end Sys2Proof.Machine
end

section
/-! The pure scan of a byte string (spec/20_memory.md R73), decision by decision. -/

namespace Sys2Proof.Machine

open Sys2Proof

/-- Settles O18: what lies behind a candidate that is complete, or of an unknown code, is not looked at. -/
theorem laterBytesChangeNoDecision : Obligations.LaterBytesChangeNoDecision := scanOutcome_append

section PureScan

variable (ck : Checksum) (cat : Catalog)

/-- A decision consumes a byte at least and never more than there are (R114, R115, R117). -/
theorem consumes_range {bytes : List Byte} (h : (scanOutcome ck cat bytes).waiting = false) :
    1 ≤ (scanOutcome ck cat bytes).consumes ∧ (scanOutcome ck cat bytes).consumes ≤ bytes.length := by
  rcases scanOutcome_cases ck cat bytes with
    ⟨-, ho⟩ | ⟨c, rest, rfl, -, ho⟩ | ⟨c, rest, -, -, -, ho⟩ | ⟨c, p, k, behind, rfl, -, -, ⟨-, ho⟩ | ⟨-, ho⟩⟩ <;>
    rw [ho] at h ⊢
  · contradiction
  · simp [ScanOutcome.consumes]
  · contradiction
  · simp [ScanOutcome.consumes]
  · simp [ScanOutcome.consumes]

theorem scanSteps_of_waiting (fuel : Nat) (pos : Word) {bytes : List Byte}
    (h : (scanOutcome ck cat bytes).waiting = true) : scanSteps ck cat fuel pos bytes = ([], bytes) := by
  cases fuel with
  | zero => rfl
  | succ fuel => simp [scanSteps, h]

theorem scanSteps_succ (fuel : Nat) (pos : Word) {bytes : List Byte}
    (h : (scanOutcome ck cat bytes).waiting = false) :
    scanSteps ck cat (fuel + 1) pos bytes =
      (scanSteps ck cat fuel (pos + BitVec.ofNat 32 (scanOutcome ck cat bytes).consumes)
        (bytes.drop (scanOutcome ck cat bytes).consumes)).map ((pos, scanOutcome ck cat bytes) :: ·) id := by
  simp [scanSteps, h, Prod.map]

/-- Fuel beyond the length of the byte string changes nothing. -/
theorem scanSteps_fuel_irrel {m n : Nat} (pos : Word) {bytes : List Byte} (hm : bytes.length ≤ m)
    (hn : bytes.length ≤ n) : scanSteps ck cat m pos bytes = scanSteps ck cat n pos bytes := by
  induction m generalizing n pos bytes with
  | zero =>
    obtain rfl := List.length_eq_zero_iff.1 (Nat.le_zero.1 hm)
    exact (scanSteps_of_waiting ck cat n pos rfl).symm
  | succ m ih =>
    cases hw : (scanOutcome ck cat bytes).waiting with
    | true => rw [scanSteps_of_waiting ck cat _ pos hw, scanSteps_of_waiting ck cat _ pos hw]
    | false =>
      obtain ⟨hpos, hle⟩ := consumes_range ck cat hw
      cases n with
      | zero => omega
      | succ n =>
        rw [scanSteps_succ ck cat m pos hw, scanSteps_succ ck cat n pos hw,
          ih (n := n) _ (by rw [List.length_drop]; omega) (by rw [List.length_drop]; omega)]

/-- A byte string whose head can be decided: that decision, then the scan of the bytes behind it. -/
theorem scanAll_of_decided (pos : Word) {bytes : List Byte} (h : (scanOutcome ck cat bytes).waiting = false) :
    scanAll ck cat pos bytes =
      (scanAll ck cat (pos + BitVec.ofNat 32 (scanOutcome ck cat bytes).consumes)
        (bytes.drop (scanOutcome ck cat bytes).consumes)).map ((pos, scanOutcome ck cat bytes) :: ·) id := by
  obtain ⟨hpos, hle⟩ := consumes_range ck cat h
  have hfuel : scanAll ck cat pos bytes = scanSteps ck cat (bytes.length - 1 + 1) pos bytes :=
    scanSteps_fuel_irrel ck cat pos (Nat.le_refl _) (by omega)
  have hdrop : (bytes.drop (scanOutcome ck cat bytes).consumes).length ≤ bytes.length - 1 := by
    rw [List.length_drop]
    omega
  rw [hfuel, scanSteps_succ ck cat _ pos h, scanSteps_fuel_irrel ck cat _ hdrop (Nat.le_refl _)]
  rfl

theorem scanAll_of_waiting (pos : Word) {bytes : List Byte} (h : (scanOutcome ck cat bytes).waiting = true) :
    scanAll ck cat pos bytes = ([], bytes) := scanSteps_of_waiting ck cat _ pos h

/-- A decision that the bytes at hand allow is the first one, whatever bytes follow them (R73). -/
theorem scanAll_append_of_decided (pos : Word) {bytes : List Byte} (later : List Byte)
    (h : (scanOutcome ck cat bytes).waiting = false) :
    scanAll ck cat pos (bytes ++ later) =
      (scanAll ck cat (pos + BitVec.ofNat 32 (scanOutcome ck cat bytes).consumes)
        (bytes.drop (scanOutcome ck cat bytes).consumes ++ later)).map ((pos, scanOutcome ck cat bytes) :: ·) id := by
  have ho := scanOutcome_append ck cat bytes later h
  rw [scanAll_of_decided ck cat pos (ho.symm ▸ h), ho, List.drop_append_of_le_length (consumes_range ck cat h).2]

theorem scanSteps_rest_length_le (fuel : Nat) (pos : Word) (bytes : List Byte) :
    (scanSteps ck cat fuel pos bytes).2.length ≤ bytes.length := by
  induction fuel generalizing pos bytes with
  | zero => exact Nat.le_refl _
  | succ fuel ih =>
    cases hw : (scanOutcome ck cat bytes).waiting with
    | true => rw [scanSteps_of_waiting ck cat _ pos hw]
    | false =>
      rw [scanSteps_succ ck cat fuel pos hw]
      exact (ih _ _).trans (List.length_drop.trans_le (Nat.sub_le _ _))

end PureScan

theorem framesOf_append (l m : List (Word × ScanOutcome)) : framesOf (l ++ m) = framesOf l ++ framesOf m :=
  List.filterMap_append

theorem unknownsOf_append (l m : List (Word × ScanOutcome)) : unknownsOf (l ++ m) = unknownsOf l + unknownsOf m := by
  rw [unknownsOf, List.filter_append, List.length_append]
  rfl

theorem badcksOf_append (l m : List (Word × ScanOutcome)) : badcksOf (l ++ m) = badcksOf l + badcksOf m := by
  rw [badcksOf, List.filter_append, List.length_append]
  rfl

end Sys2Proof.Machine
end

section
/-! Scan determinism (spec/20_memory.md R73): a transition takes the next decision of the pure scan or none, so a run
takes the pure scan's decisions in order, however the agents are interleaved. -/

namespace Sys2Proof.Machine

open Sys2Proof

/-! ## What a transition does to the scan -/

/-- From `b` to `b'` the scan counters have counted the decisions `steps`, under the same ROUTE (R35, R36, R38). -/
structure Block.Counted (b : Block) (steps : List (Word × ScanOutcome)) (b' : Block) : Prop where
  corruptCnt : b'.corruptCnt = b.corruptCnt + BitVec.ofNat 32 (badcksOf steps)
  unknownCnt : b'.unknownCnt = b.unknownCnt + BitVec.ofNat 32 (unknownsOf steps)
  frameCnt : b'.frameCnt = b.frameCnt + BitVec.ofNat 32 (framesOf steps).length
  route : b'.route = b.route

theorem Block.Counted.of_eq {b b' : Block} (hc : b'.corruptCnt = b.corruptCnt) (hu : b'.unknownCnt = b.unknownCnt)
    (hf : b'.frameCnt = b.frameCnt) (hr : b'.route = b.route) : b.Counted [] b' :=
  ⟨by simp [hc, badcksOf], by simp [hu, unknownsOf], by simp [hf, framesOf], hr⟩

theorem Block.Counted.trans {b₁ b₂ b₃ : Block} {l m : List (Word × ScanOutcome)} (h : b₁.Counted l b₂)
    (h' : b₂.Counted m b₃) : b₁.Counted (l ++ m) b₃ where
  corruptCnt := by rw [h'.corruptCnt, h.corruptCnt, badcksOf_append, BitVec.ofNat_add, BitVec.add_assoc]
  unknownCnt := by rw [h'.unknownCnt, h.unknownCnt, unknownsOf_append, BitVec.ofNat_add, BitVec.add_assoc]
  frameCnt := by
    rw [h'.frameCnt, h.frameCnt, framesOf_append, List.length_append, BitVec.ofNat_add, BitVec.add_assoc]
  route := h'.route.trans h.route

/-- The scan has taken the decision `o` on the head of BUF (R115, R117). -/
structure Block.Decided (par : Params) (b : Block) (o : ScanOutcome) (b' : Block) : Prop where
  outcome : b.outcome par = o
  ready : o.waiting = false
  buf : b'.buf = b.buf.drop o.consumes
  pos : b'.pos = b.pos + BitVec.ofNat 32 o.consumes
  cat : b'.cat = b.cat
  counted : b.Counted [(b.pos, o)] b'
  frmq : b.route = .bypass → b'.frmq = b.frmq ++ framesOf [(b.pos, o)]

theorem Block.Moves.decided {par : Params} {b b' : Block} (h : b.Moves par .scan b') : ∃ o, b.Decided par o b' := by
  have hsame (n : Word) : n = n + BitVec.ofNat 32 0 := (BitVec.add_zero n).symm
  cases h with
  | unknown c ho =>
    exact ⟨_, ho, rfl, rfl, rfl, rfl, ⟨hsame _, rfl, hsame _, rfl⟩, fun _ => (List.append_nil _).symm⟩
  | badck c ho =>
    exact ⟨_, ho, rfl, rfl, rfl, rfl, ⟨rfl, hsame _, hsame _, rfl⟩, fun _ => (List.append_nil _).symm⟩
  | frame c p ck ho hc hr =>
    have hqueued : b.route = .bypass → (b.accept c p).frmq = b.frmq ++ [{ code := c, payload := p }] :=
      fun hbypass => (Block.accept_of_frmq p (by simp [Block.dest, hbypass])).1
    exact ⟨_, ho, rfl, b.accept_buf c p, b.accept_pos c p, b.accept_cat c p,
      ⟨(b.accept_corruptCnt c p).trans (hsame _), (b.accept_unknownCnt c p).trans (hsame _), b.accept_frameCnt c p,
        b.accept_route c p⟩, hqueued⟩

/-- Nothing that the scan reads or counts differs in the two blocks. -/
structure Block.ScanKept (b b' : Block) : Prop where
  buf : b'.buf = b.buf
  pos : b'.pos = b.pos
  cat : b'.cat = b.cat
  counted : b.Counted [] b'

theorem Block.ScanKept.refl (b : Block) : b.ScanKept b := ⟨rfl, rfl, rfl, .of_eq rfl rfl rfl rfl⟩

@[simp] theorem Block.convert_pos (par : Params) (f : ConvFrame) (b : Block) : (b.convert par f).pos = b.pos := by
  rcases b.convert_cases par f with ⟨_, -, -, h⟩ | ⟨-, h⟩ <;> simp [h]

/-- Only SRC, SCAN and a host that writes or resets touch the scan. -/
theorem Block.Moves.scanKept {par : Params} {b b' : Block} {t : Transition} (h : b.Moves par t b')
    (hscan : t ≠ .scan) (hrx : ∀ x, t ≠ .rx x) (hi : ¬ t.interrupts) : b.ScanKept b' := by
  cases h with
  | rx x => exact absurd rfl (hrx x)
  | unknown c ho => contradiction
  | badck c ho => contradiction
  | frame c p ck ho hc hr => contradiction
  | conv f hf => exact ⟨by simp, by simp, by simp, .of_eq (by simp) (by simp) (by simp) (by simp)⟩
  | cfgRead i => exact .refl b
  | cfgWrite i w => exact absurd (.inl ⟨i, w, rfl⟩) hi
  | frmPop => exact ⟨rfl, rfl, rfl, .of_eq rfl rfl rfl rfl⟩
  | reset => exact absurd (.inr rfl) hi
  | smpPop => exact ⟨rfl, rfl, rfl, .of_eq rfl rfl rfl rfl⟩

/-! ## What a transition does to the environment -/

theorem fireFrmPop_env (s : State) :
    (fireFrmPop s).env = { s.env with frames := s.env.frames ++ s.blk.frmq.take 1 } := by
  cases hq : s.blk.frmq <;> simp [fireFrmPop, hq]

theorem fireSmpPop_env (s : State) :
    (fireSmpPop s).env = { s.env with records := s.env.records ++ s.blk.smpq.take 1 } := by
  cases hq : s.blk.smpq <;> simp [fireSmpPop, hq]

theorem fireScan_env {s s' : State} (h : fireScan s = .next s') : s'.env = s.env := by
  rcases fireScan_cases s with ⟨-, hf⟩ | ⟨c, -, -, hf⟩ | ⟨c, p, ck, -, hf⟩ <;>
    exact Host.Outcome.next.inj (hf.symm.trans h) ▸ rfl

/-- Inputs are taken when an agent makes its offer, not when its transition fires. -/
theorem fire_inputs {t : Transition} {s s' : State} (h : fire t s = .next s') :
    s'.env.src = s.env.src ∧ s'.env.ops = s.env.ops := by
  cases t with
  | rx x => exact Host.Outcome.next.inj h ▸ ⟨rfl, rfl⟩
  | scan => rw [fireScan_env h]; exact ⟨rfl, rfl⟩
  | conv => exact Host.Outcome.next.inj h ▸ ⟨rfl, rfl⟩
  | host op =>
    obtain rfl := Host.Outcome.next.inj h
    cases op with
    | cfgRead i => exact ⟨rfl, rfl⟩
    | cfgWrite i w => exact ⟨rfl, rfl⟩
    | frmPop => simp [fireHost, fireFrmPop_env]
    | reset => exact ⟨rfl, rfl⟩
  | smpPop =>
    obtain rfl := Host.Outcome.next.inj h
    simp [fireSmpPop_env]

/-- The frames that the host has popped, then those still queued (R205). -/
def State.polled (s : State) : List FrameRec := s.env.frames ++ s.blk.frmq

theorem fireFrmPop_polled (s : State) : (fireFrmPop s).polled = s.polled := by
  rw [State.polled, fireFrmPop_env, fireFrmPop_blk]
  simp [State.polled, ← List.drop_one]

theorem fire_polled {t : Transition} {s s' : State} (h : fire t s = .next s') (hscan : t ≠ .scan)
    (hi : ¬ t.interrupts) : s'.polled = s.polled := by
  cases t with
  | rx x => exact Host.Outcome.next.inj h ▸ rfl
  | scan => contradiction
  | conv =>
    obtain rfl := Host.Outcome.next.inj h
    cases hf : s.blk.cf with
    | none => rw [s.blk.conv_of_none s.par hf, State.setBlk_self]
    | some f => simp [State.polled, s.blk.conv_of_some s.par f hf]
  | host op =>
    obtain rfl := Host.Outcome.next.inj h
    cases op with
    | cfgRead i => rfl
    | cfgWrite i w => exact absurd (.inl ⟨i, w, rfl⟩) hi
    | frmPop => exact fireFrmPop_polled s
    | reset => exact absurd (.inr rfl) hi
  | smpPop =>
    obtain rfl := Host.Outcome.next.inj h
    simp [State.polled, fireSmpPop_env]

/-! ## Decisions taken and decisions to come -/

/-- From `s` to `s'` the block has taken the scan decisions `steps`: of those that were to come, the others still are;
the counters have counted them; no byte is lost; and under BYPASS their frames are in FRMQ or popped. -/
structure State.Scanned (s : State) (steps : List (Word × ScanOutcome)) (s' : State) : Prop where
  ahead : s.scanAhead = (steps ++ s'.scanAhead.1, s'.scanAhead.2)
  counted : s.blk.Counted steps s'.blk
  bytes : s'.blk.bytesTaken + BitVec.ofNat 32 s'.env.src.length =
    s.blk.bytesTaken + BitVec.ofNat 32 s.env.src.length
  polled : s.blk.route = .bypass → s'.polled = s.polled ++ framesOf steps

namespace State.Scanned

theorem trans {s₁ s₂ s₃ : State} {l m : List (Word × ScanOutcome)} (h : s₁.Scanned l s₂) (h' : s₂.Scanned m s₃) :
    s₁.Scanned (l ++ m) s₃ where
  ahead := by rw [h.ahead, h'.ahead, List.append_assoc]
  counted := h.counted.trans h'.counted
  bytes := h'.bytes.trans h.bytes
  polled hr := by
    rw [h'.polled (h.counted.route.trans hr), h.polled hr, framesOf_append, List.append_assoc]

theorem of_kept {s s' : State} (hp : s'.par = s.par) (hk : s.blk.ScanKept s'.blk) (hs : s'.env.src = s.env.src)
    (hf : s'.polled = s.polled) : s.Scanned [] s' where
  ahead := by
    rw [List.nil_append, State.scanAhead, State.scanAhead, hp, hk.buf, hk.pos, hk.cat, hs]
  counted := hk.counted
  bytes := by rw [Block.bytesTaken_congr hk.pos hk.buf, hs]
  polled _ := by rw [hf]; exact (List.append_nil _).symm

theorem setEnv (s : State) {e : Env} (hs : e.src = s.env.src) (hf : e.frames = s.env.frames) :
    s.Scanned [] (s.setEnv e) :=
  of_kept rfl (.refl s.blk) hs (by rw [State.polled, State.setEnv_env, hf, State.setEnv_blk, State.polled])

/-- RX moves a byte from the source's end of the stream to that of BUF (R110). -/
theorem rx (s : State) {e : Env} {x : Byte} (hs : s.env.src = x :: e.src) (hf : e.frames = s.env.frames) :
    s.Scanned [] (fireRx x (s.setEnv e)) where
  ahead := by
    simp [State.scanAhead, fireRx, hs]
  counted := .of_eq rfl rfl rfl rfl
  bytes := by
    have htaken : (fireRx x (s.setEnv e)).blk.bytesTaken = s.blk.bytesTaken + 1 := s.blk.bytesTaken_append x
    rw [htaken, hs, List.length_cons, BitVec.ofNat_add, BitVec.add_assoc, BitVec.add_comm 1]
    rfl
  polled _ := by
    simp [State.polled, fireRx, hf, framesOf]

/-- SCAN takes the first of the decisions to come (R115, R117). -/
theorem scan {s s' : State} (ht : enabled .scan s = true) (h : fire .scan s = .next s') :
    s.Scanned [(s.blk.pos, s.blk.outcome s.par)] s' := by
  have hm := fire_moves ht h
  obtain ⟨o, hd⟩ := hm.decided
  obtain rfl := hd.outcome
  have he : s'.env = s.env := fireScan_env h
  refine ⟨?_, hd.counted, by rw [hm.bytesTaken (by simp) (by simp), he], fun hr => ?_⟩
  · rw [State.scanAhead, State.scanAhead, scanAll_append_of_decided _ _ _ _ hd.ready, fire_par h, hd.buf, hd.pos,
      hd.cat, he]
    rfl
  · rw [State.polled, he, hd.frmq hr, ← List.append_assoc, State.polled]

end State.Scanned

theorem fire_scanned {t : Transition} {s s' : State} (ht : enabled t s = true) (h : fire t s = .next s')
    (hrx : ∀ x, t ≠ .rx x) (hi : ¬ t.interrupts) : ∃ steps, s.Scanned steps s' := by
  by_cases hscan : t = .scan
  · subst hscan
    exact ⟨_, .scan ht h⟩
  · exact ⟨_, .of_kept (fire_par h) ((fire_moves ht h).scanKept hscan hrx hi) (fire_inputs h).1
      (fire_polled h hscan hi)⟩

theorem not_interrupts_of_harmless {op : HostOp} (h : op.harmless = true) : ¬ (Transition.host op).interrupts := by
  rintro (⟨i, w, he⟩ | he) <;> obtain rfl := Transition.host.inj he <;> contradiction

/-- The host will only read and pop frames. -/
def State.undisturbed (s : State) : Prop := ∀ op ∈ s.env.ops, op.harmless = true

theorem step_scanned {s s' : State} (hh : s.undisturbed) (hs : step s = .next s') :
    (∃ steps, s.Scanned steps s') ∧ s'.undisturbed := by
  unfold State.undisturbed at hh ⊢
  rcases step_cases s with ⟨e, he, hsrc, hops, -, hfr, -⟩ | ⟨t, e, ht, he, -, hfr, -, hin⟩
  · obtain rfl := Host.Outcome.next.inj (he.symm.trans hs)
    exact ⟨⟨_, .setEnv s hsrc hfr⟩, fun op hop => hh op (hops ▸ hop)⟩
  · have hf : fire t (s.setEnv e) = .next s' := he.symm.trans hs
    have ht' : enabled t (s.setEnv e) = true := (enabled_setEnv t s e).trans ht
    have hops' : s'.env.ops = e.ops := (fire_inputs hf).2
    have hother : e.src = s.env.src → (∀ x, t ≠ .rx x) → ¬ t.interrupts → ∃ steps, s.Scanned steps s' := by
      intro hsrc hrx hi
      obtain ⟨steps, h⟩ := fire_scanned ht' hf hrx hi
      exact ⟨_, (State.Scanned.setEnv s hsrc hfr).trans h⟩
    rw [hops']
    rcases hin with ⟨x, rfl, hsrc, hops⟩ | ⟨op, rfl, hops, hsrc⟩ | ⟨hown, hsrc, hops⟩
    · obtain rfl := Host.Outcome.next.inj hf
      exact ⟨⟨_, .rx s hsrc hfr⟩, hops ▸ hh⟩
    · rw [hops, List.forall_mem_cons] at hh
      exact ⟨hother hsrc (fun _ => Transition.noConfusion) (not_interrupts_of_harmless hh.1), hh.2⟩
    · refine ⟨hother hsrc ?_ ?_, hops ▸ hh⟩ <;> rcases hown with rfl | rfl | rfl <;> simp [Transition.interrupts]

/-- Over a run in which the host only reads and pops frames, the block takes decisions of the pure scan, in order. -/
theorem runsTo_scanned {n : Nat} {s s' : State} (hrun : runsTo n s s') :
    s.undisturbed → ∃ steps, s.Scanned steps s' := by
  refine runsTo_induction (P := fun s s' => s.undisturbed → ∃ steps, s.Scanned steps s') (fun s _ => ?_)
    (fun s t u hs ih hh => ?_) hrun
  · exact ⟨_, .of_kept rfl (.refl s.blk) rfl rfl⟩
  · obtain ⟨⟨l, hl⟩, hh'⟩ := step_scanned hh hs
    obtain ⟨m, hm⟩ := ih hh'
    exact ⟨_, hl.trans hm⟩

theorem scanAhead_of_waiting {s : State} (hs : s.env.src = []) (hw : (s.blk.outcome s.par).waiting = true) :
    s.scanAhead = ([], s.blk.buf) := by
  rw [State.scanAhead, hs, List.append_nil]
  exact scanAll_of_waiting _ _ _ hw

/-- Such a run that has used up the source's bytes and ends with a waiting scan has taken all of the decisions. -/
theorem runsTo_scans_all {n : Nat} {s s' : State} (hrun : runsTo n s s') (hh : s.undisturbed)
    (hs : s'.env.src = []) (hw : (s'.blk.outcome s'.par).waiting = true) :
    s.Scanned s.scanAhead.1 s' ∧ s'.blk.buf = s.scanAhead.2 := by
  obtain ⟨steps, h⟩ := runsTo_scanned hrun hh
  have ha : s.scanAhead = (steps, s'.blk.buf) := by rw [h.ahead, scanAhead_of_waiting hs hw, List.append_nil]
  rw [ha]
  exact ⟨h, rfl⟩

/-- POS has moved by the bytes that are no longer there (R22, R114). -/
theorem State.Scanned.pos_eq {s s' : State} {steps : List (Word × ScanOutcome)} (h : s.Scanned steps s')
    (hs : s'.env.src = []) (hl : s'.blk.buf.length ≤ s.blk.buf.length + s.env.src.length) :
    s'.blk.pos = s.blk.pos + BitVec.ofNat 32 (s.blk.buf.length + s.env.src.length - s'.blk.buf.length) := by
  have hb := h.bytes
  rw [hs, List.length_nil, BitVec.add_zero, Block.bytesTaken, Block.bytesTaken, BitVec.add_assoc, ← BitVec.ofNat_add,
    ← Nat.sub_add_cancel hl, BitVec.ofNat_add, ← BitVec.add_assoc] at hb
  exact (BitVec.add_left_inj _).1 hb

/-- Settles O22: the run takes the decisions of the pure scan, and what it has counted are these. -/
theorem scanIsIndependentOfInterleaving : Obligations.ScanIsIndependentOfInterleaving := by
  intro n s s' hrun hh hs hw
  obtain ⟨h, hbuf⟩ := runsTo_scans_all hrun hh hs hw
  have hl : s'.blk.buf.length ≤ s.blk.buf.length + s.env.src.length := by
    rw [hbuf, ← List.length_append]
    exact scanSteps_rest_length_le _ _ _ _ _
  exact ⟨hbuf, hbuf ▸ h.pos_eq hs hl, h.counted.corruptCnt, h.counted.unknownCnt, h.counted.frameCnt⟩

/-- Settles O23: under BYPASS the frames among the decisions taken are queued in FRMQ in order, and FRM_POP takes from
its head. -/
theorem polledFramesKeepStreamOrder : Obligations.PolledFramesKeepStreamOrder :=
  fun _ _ _ hrun hh hr hs hw => (runsTo_scans_all hrun hh hs hw).1.polled hr

end Sys2Proof.Machine
end

section
/-! MemRead as a weighted sum of payload bytes (spec/20_memory.md R63), and the byte order, which no step changes. -/

namespace Sys2Proof.Machine

open Sys2Proof

/-- The digits of a number in the order of their weights. -/
theorem littleNat_map_range (f : Nat → Byte) (n : Nat) :
    littleNat ((List.range n).map f) = ∑ j ∈ Finset.range n, 256 ^ j * (f j).toNat := by
  induction n generalizing f with
  | zero => rfl
  | succ n ih =>
    have htail : littleNat ((List.range n).map (f ∘ Nat.succ)) =
        ∑ j ∈ Finset.range n, 256 ^ j * (f (j + 1)).toNat := ih _
    rw [List.range_succ_eq_map, List.map_cons, List.map_map, littleNat, htail, Finset.sum_range_succ', Finset.mul_sum,
      pow_zero, one_mul, Nat.add_comm]
    simp only [pow_succ', mul_assoc]

theorem reverse_map_range (f : Nat → Byte) (n : Nat) :
    ((List.range n).map f).reverse = (List.range n).map fun j => f (n - 1 - j) := by
  refine List.ext_getElem (by simp) fun j h1 h2 => ?_
  simp [List.getElem_reverse]

/-- Where the rules read, the byte is the payload's own (R14). -/
theorem payloadByte_of_range {p : List Byte} {off n j : Nat} (h : off + n ≤ p.length) (hj : j < n) :
    payloadByte p (off + j) = p.getD (off + j) 0 := by
  have hlt : off + j < p.length := by omega
  rw [payloadByte_of_lt p _ hlt, List.getD_eq_getElem _ _ hlt]

theorem memRead_little {p : List Byte} {off n : Nat} (h : off + n ≤ p.length) :
    memRead .little p off n = ∑ j ∈ Finset.range n, 256 ^ j * (p.getD (off + j) 0).toNat := by
  rw [memRead, payloadBytes, littleNat_map_range]
  refine Finset.sum_congr rfl fun j hj => ?_
  rw [payloadByte_of_range h (Finset.mem_range.1 hj)]

/-- BIG gives byte `j` the weight that LITTLE gives byte `n - 1 - j` (R63). -/
theorem memRead_big {p : List Byte} {off n : Nat} (h : off + n ≤ p.length) :
    memRead .big p off n = ∑ j ∈ Finset.range n, 256 ^ (n - 1 - j) * (p.getD (off + j) 0).toNat := by
  rw [memRead, payloadBytes, reverse_map_range, littleNat_map_range, ← Finset.sum_range_reflect]
  refine Finset.sum_congr rfl fun j hj => ?_
  have hj : j < n := Finset.mem_range.1 hj
  have hback : n - 1 - (n - 1 - j) = j := by omega
  rw [hback, payloadByte_of_range h hj]

theorem memRead_one (p : List Byte) (off : Nat) : memRead .little p off 1 = memRead .big p off 1 := rfl

/-- No step changes a parameter (R54). -/
theorem step_par {s s' : State} (h : step s = .next s') : s'.par = s.par := by
  rcases step_cases s with ⟨e, he, -⟩ | ⟨t, e, -, he, -⟩
  · exact Host.Outcome.next.inj (he.symm.trans h) ▸ rfl
  · exact fire_par (s := s.setEnv e) (he.symm.trans h)

/-- Settles O29: a MemRead is a number written in base 256, read from either end; the order is a parameter. -/
theorem memReadAssemblesBytes : Obligations.MemReadAssemblesBytes :=
  ⟨fun _ _ _ h => ⟨memRead_little h, memRead_big h⟩, memRead_one, rfl, fun _ _ h => by rw [step_par h]⟩

end Sys2Proof.Machine
end

section
/-! Encoding and decoding are inverse on the frames that a catalog describes (spec/30_encoding.md R85, R87, R90). -/

namespace Sys2Proof

/-- The length that the catalog gives the code cuts the payload off again (R87). -/
theorem decode_encode {cat : Catalog} {i : Instr} (h : i.wellFormed cat = true) (behind : List Byte) :
    decode cat (encode i ++ behind) = .ok (i, behind) := by
  obtain ⟨hk, hl⟩ := (i.wellFormed_iff cat).1 h
  have hbytes : encode i ++ behind = i.code :: (i.payload ++ i.cksum :: behind) := by simp [encode]
  rw [hbytes]
  exact decode_row cat i.code i.payload i.cksum behind i hk hl i.ofCode_code

/-- Settles O1: a described frame is a complete candidate, and its code selects its own row. -/
theorem decodeOfEncodeIsTheFrame : Obligations.DecodeOfEncodeIsTheFrame :=
  fun _ _ behind h => decode_encode h behind

/-- Of the ways in which a byte string is decoded, one answers an instruction: a complete candidate whose code has a
row (R90). -/
theorem encode_of_decode {cat : Catalog} {bytes : List Byte} {i : Instr} {behind : List Byte}
    (h : decode cat bytes = .ok (i, behind)) : i.wellFormed cat = true ∧ bytes = encode i ++ behind := by
  rcases decode_cases cat bytes with ⟨-, hd⟩ | ⟨c, rest, -, -, hd⟩ | ⟨c, rest, -, -, -, hd⟩ |
    ⟨c, p, ck, tail, hb, hk, hl, ⟨j, hj, hd⟩ | ⟨-, hd⟩⟩ <;> rw [hd] at h
  case inr.inr.inr.inl =>
    obtain ⟨rfl, rfl⟩ := Prod.mk.inj (Except.ok.inj h)
    obtain ⟨rfl, rfl, rfl⟩ := Instr.ofCode_eq_some hj
    exact ⟨(j.wellFormed_iff cat).2 ⟨hk, hl⟩, by simp [hb, encode]⟩
  all_goals contradiction

/-- Settles O2: no other decoding answers an instruction. -/
theorem decodedFrameIsTheBytesRead : Obligations.DecodedFrameIsTheBytesRead :=
  fun _ _ _ _ h => encode_of_decode h

end Sys2Proof
end

section
/-! The entries of REFCAT (spec/30_encoding.md R93). -/

namespace Sys2Proof

theorem Catalog.entry_blank (c : Byte) : Catalog.blank.entry c = CatEntry.absent := by
  simp [Catalog.blank, Catalog.entry]

/-- The 248 codes without a row in the table of R93. -/
theorem entry_refcat_of_unlisted {c : Byte} (h : c ∉ [0x00, 0x01, 0x02, 0x03, 0x04, 0x06, 0x07, 0x08]) :
    Config.refcat.entry c = CatEntry.absent := by
  unfold Config.refcat
  iterate 8 refine (Catalog.entry_put_of_ne _ _ (ne_of_mem_of_not_mem (by decide) h)).trans ?_
  exact Catalog.entry_blank c

/-- Settles O4: the eight listed codes one by one, the others together. -/
theorem referenceCatalogWords : Obligations.ReferenceCatalogWords := by
  refine ⟨rfl, fun c => ?_, ?_, by decide⟩
  · split_ifs with h0 h1 h2 h3 h4 h6 h7 h8
    case neg =>
      rw [entry_refcat_of_unlisted (by
        simp only [List.mem_cons, List.not_mem_nil, h0, h1, h2, h3, h4, h6, h7, h8, or_self, not_false_iff])]
      rfl
    all_goals subst c; rfl
  · rintro c (rfl | rfl) <;> decide

end Sys2Proof
end

section
/-! Raw fields and conversion results (spec/30_encoding.md R95, spec/43_converter.md R162, R168). -/

namespace Sys2Proof.Machine

open Sys2Proof

/-- A field of `n` bytes is a number of `8 * n` bits (R63). -/
theorem memRead_lt (order : FieldOrder) (p : List Byte) (off n : Nat) : memRead order p off n < 2 ^ (8 * n) := by
  have hbase : 2 ^ (8 * n) = 256 ^ n := by rw [pow_mul]; rfl
  rw [hbase]
  cases order with
  | little => simpa [memRead] using littleNat_lt (payloadBytes p off n)
  | big => simpa [memRead] using littleNat_lt (payloadBytes p off n).reverse

/-- Sign extension reads a number of `bits` bits as two's complement (R12). -/
theorem sext_eq_toInt {bits v : Nat} (h : v < 2 ^ bits) : sext bits v = (BitVec.ofNat bits v).toInt := by
  have hmod : v % 2 ^ bits = v := Nat.mod_eq_of_lt h
  have hhalf : 2 * v < 2 ^ bits ↔ v < 2 ^ (bits - 1) := by
    cases bits with
    | zero => simp [Nat.lt_one_iff.1 h]
    | succ n => rw [pow_succ']; simp
  simp [sext, BitVec.toInt_eq_toNat_cond, hmod, hhalf]

theorem fieldInt_eq {e : CatEntry} {u : Nat} (h : u < 2 ^ (8 * e.fw)) :
    fieldInt e u =
      if e.sg then (BitVec.ofNat (8 * e.fw) u).toInt else ((BitVec.ofNat (8 * e.fw) u).toNat : Int) := by
  rw [fieldInt, sext_eq_toInt h, BitVec.toNat_ofNat, Nat.mod_eq_of_lt h]

/-- A raw field has at most four bytes, so it fits 33 bits with a sign (R95). -/
theorem fieldInt_range {e : CatEntry} {u : Nat} (h : u < 2 ^ (8 * e.fw)) :
    -2 ^ 31 ≤ fieldInt e u ∧ fieldInt e u ≤ 2 ^ 32 - 1 := by
  have hfw := fw_le e
  rw [fieldInt_eq h]
  split
  · have hhalf : (2 : Int) ^ (8 * e.fw - 1) ≤ 2 ^ 31 := pow_le_pow_right₀ (by decide) (by omega)
    have hlow := (BitVec.ofNat (8 * e.fw) u).le_toInt
    have hhigh := (BitVec.ofNat (8 * e.fw) u).toInt_lt
    omega
  · have hfull : 2 ^ (8 * e.fw) ≤ 2 ^ 32 := Nat.pow_le_pow_right (by decide) (by omega)
    have hhigh := (BitVec.ofNat (8 * e.fw) u).isLt
    omega

theorem raw_range (order : FieldOrder) (nch : Nat) (e : CatEntry) (p : List Byte) (k j : Nat) :
    -2 ^ 31 ≤ raw order nch e p k j ∧ raw order nch e p k j ≤ 2 ^ 32 - 1 :=
  fieldInt_range (memRead_lt order p _ _)

/-- The field of a channel ends inside its sample, and the sample that CF stands at inside the payload (R94, R162). -/
theorem Block.Convertible.field_inside {b : Block} (h : b.Convertible) {f : ConvFrame} (hf : b.cf = some f)
    (hc : b.convCause f = none) {j : Nat} (hj : j < b.nch.toNat) :
    (f.k * b.nch.toNat + j) * (b.cat.entry f.code).fw + (b.cat.entry f.code).fw ≤ f.payload.length := by
  have hk : f.k + 1 ≤ b.sampleCount f := h.index_lt hf hc
  have hend : f.k * b.nch.toNat + (j + 1) ≤ (f.k + 1) * b.nch.toNat := by rw [Nat.succ_mul]; omega
  calc (f.k * b.nch.toNat + j) * (b.cat.entry f.code).fw + (b.cat.entry f.code).fw
    _ = (f.k * b.nch.toNat + (j + 1)) * (b.cat.entry f.code).fw := (Nat.succ_mul _ _).symm
    _ ≤ (f.k + 1) * b.nch.toNat * (b.cat.entry f.code).fw := Nat.mul_le_mul_right _ hend
    _ = (f.k + 1) * b.sampleBytes (b.cat.entry f.code) := Nat.mul_assoc _ _ _
    _ ≤ b.sampleCount f * b.sampleBytes (b.cat.entry f.code) := Nat.mul_le_mul_right _ hk
    _ ≤ f.payload.length := Nat.div_mul_le_self _ _

/-- Settles O30: MemRead gives no more bits than the field has, so extending them is reading them; the index in CF is
that of a sample of the payload. -/
theorem rawFieldIsExtended : Obligations.RawFieldIsExtended :=
  ⟨fun order nch e p k j => ⟨fieldInt_eq (memRead_lt order p _ _), raw_range order nch e p k j⟩,
    fun _ _ h hf hc _ hj => h.convertible.field_inside hf hc hj⟩

end Sys2Proof.Machine
end

section
/-! The records of SMPQ: how large a conversion result is (spec/43_converter.md R168), and which record a move can add
(spec/30_encoding.md R97, R98). -/

namespace Sys2Proof.Machine

open Sys2Proof

/-! ## The range of a conversion result -/

/-- A raw field times SCALE plus OFFSET, at its extremes (R168). -/
theorem scaled_range {r : Int} (hlow : -2 ^ 31 ≤ r) (hhigh : r ≤ 2 ^ 32 - 1) (d : LutEntry) :
    -2 ^ 63 ≤ scaled r d ∧ scaled r d ≤ 2 ^ 63 - 2 ^ 32 := by
  have hscale : -2 ^ 31 ≤ d.scale.toInt := d.scale.le_toInt
  have hscale' : d.scale.toInt < 2 ^ 31 := d.scale.toInt_lt
  have hoffset : -2 ^ 31 ≤ d.offset.toInt := d.offset.le_toInt
  have hoffset' : d.offset.toInt < 2 ^ 31 := d.offset.toInt_lt
  unfold scaled
  constructor <;> nlinarith

theorem sampleValues_range {order : FieldOrder} {nch : Nat} {lut : Lut} {e : CatEntry} {p : List Byte} {k : Nat}
    {v : Int} (h : v ∈ sampleValues order nch lut e p k) : -2 ^ 63 ≤ v ∧ v ≤ 2 ^ 63 - 2 ^ 32 := by
  obtain ⟨j, -, rfl⟩ := List.mem_map.1 h
  obtain ⟨hlow, hhigh⟩ := raw_range order nch e p k j
  exact scaled_range hlow hhigh (lutAt lut j)

theorem Block.Sound.sampleBody_legal {par : Params} {b : Block} (h : b.Sound par) (f : ConvFrame) :
    (b.sampleBody par f).legal par.nchMax := by
  refine ⟨h.nch.1, h.nch.2, by simp, fun v hv => ?_⟩
  obtain ⟨hlow, hhigh⟩ := sampleValues_range hv
  exact ⟨hlow, by omega⟩

/-! ## The records that a move leaves in SMPQ -/

section Queued

variable {par : Params} {b b' : Block} {r : Record}

/-- A push appends its record and drops at most the oldest (R178). -/
theorem Block.body_of_mem_smpPush {body : RecordBody} (hr : r ∈ (b.smpPush par body).smpq) :
    r ∈ b.smpq ∨ r.body = body := by
  have happend : ∃ old, old ⊆ b.smpq ∧ (b.smpPush par body).smpq = old ++ [{ seq := b.seq, body := body }] := by
    by_cases hf : b.smpq.length = par.smpqDepth
    · exact ⟨b.smpq.drop 1, List.drop_subset _ _, by rw [Block.smpPush_of_full par body b hf]⟩
    · exact ⟨b.smpq, List.Subset.refl _, by rw [Block.smpPush_of_room par body b hf]⟩
  obtain ⟨old, hsub, he⟩ := happend
  rw [he] at hr
  exact (List.mem_append.1 hr).imp (fun hold => hsub hold) fun hnew => by rw [List.mem_singleton.1 hnew]

/-- CONV pushes an error record or the sample record of its index (R172). -/
theorem Block.body_of_mem_convert {f : ConvFrame} (hr : r ∈ (b.convert par f).smpq) :
    r ∈ b.smpq ∨ (∃ cause, r.body = .err cause f.code f.payload.length) ∨ r.body = b.sampleBody par f := by
  rcases b.convert_cases par f with ⟨cause, -, -, he⟩ | ⟨-, he⟩ <;> rw [he] at hr
  · rw [Block.raise_decodeError] at hr
    exact (Block.body_of_mem_smpPush hr).imp_right fun hb => .inl ⟨cause, hb⟩
  · exact (Block.body_of_mem_smpPush hr).imp_right .inr

theorem Block.mem_smpq_of_writeCtrl {w : Word} (hr : r ∈ (b.writeCtrl par w).smpq) : r ∈ b.smpq := by
  obtain ⟨_, _, _, _, he | he⟩ := b.writeCtrl_cases par w <;> rw [he] at hr
  · exact hr
  · exact absurd hr List.not_mem_nil

/-- No configuration write queues a record (R191). -/
theorem Block.mem_smpq_of_cfgWrite {i : CfgIndex} {w : Word} (hr : r ∈ (b.cfgWrite par i w).smpq) : r ∈ b.smpq := by
  rcases b.cfgWrite_cases par i w with ⟨-, he⟩ | ⟨-, he⟩ |
    ⟨-, ⟨-, -, -, he⟩ | ⟨lut, he⟩ | ⟨code, e, -, -, he⟩⟩ | he <;> rw [he] at hr
  · exact Block.mem_smpq_of_writeCtrl hr
  all_goals exact hr

/-- What is queued after a move was queued before, or CONV has pushed it (R97, R98, R178). -/
theorem Block.Moves.body_of_mem_smpq {t : Transition} (hm : b.Moves par t b') (hr : r ∈ b'.smpq) :
    r ∈ b.smpq ∨ ∃ f, (∃ cause, r.body = .err cause f.code f.payload.length) ∨ r.body = b.sampleBody par f := by
  cases hm with
  | rx x => exact .inl hr
  | unknown c ho => exact .inl hr
  | badck c ho => exact .inl hr
  | frame c p ck ho hc hroom => exact .inl (by simpa using hr)
  | conv f hf => exact (Block.body_of_mem_convert hr).imp_right fun hb => ⟨f, hb⟩
  | cfgRead i => exact .inl hr
  | cfgWrite i w => exact .inl (Block.mem_smpq_of_cfgWrite hr)
  | frmPop => exact .inl hr
  | reset => exact absurd hr List.not_mem_nil
  | smpPop => exact .inl (List.mem_of_mem_tail hr)

theorem Block.Moves.records_legal {t : Transition} (hm : b.Moves par t b') (h : b.Sound par)
    (hq : ∀ r ∈ b.smpq, r.body.legal par.nchMax) (hr : r ∈ b'.smpq) : r.body.legal par.nchMax := by
  rcases hm.body_of_mem_smpq hr with hold | ⟨f, ⟨cause, hb⟩ | hb⟩
  · exact hq r hold
  · rw [hb]
    trivial
  · exact hb ▸ h.sampleBody_legal f

end Queued

/-- Settles O59: the one record that a step may add is an error record or a sample record made from the state's own
NCH, whose values have the range of R168. -/
theorem queuedRecordsStayLegal : Obligations.QueuedRecordsStayLegal := by
  intro s s' h hq hs r hr
  rw [step_par hs]
  rcases step_cases s with ⟨e, he, -⟩ | ⟨t, e, ht, he, -⟩
  · obtain rfl := Host.Outcome.next.inj (he.symm.trans hs)
    exact hq r hr
  · have hm := fire_moves (s := s.setEnv e) ((enabled_setEnv t s e).trans ht) (he.symm.trans hs)
    exact hm.records_legal ((inv_iff s).1 h).2 hq hr

end Sys2Proof.Machine
end

section
/-! What SCAN does, by the scan outcome (spec/40_frame_sync.md R113 to R118): the route and the room of a validated
frame, the two kinds of candidate, and one equation per outcome. -/

namespace Sys2Proof.Machine

open Sys2Proof

/-! ## The route of a validated frame and the room at its end (R116) -/

/-- Every code has one of the two routes. -/
theorem Block.dest_cases (b : Block) (c : Byte) :
    (b.routesToFrmq c ∧ ¬ b.routesToConv c ∧ b.dest c = .frmq) ∨
      (b.routesToConv c ∧ ¬ b.routesToFrmq c ∧ b.dest c = .conv) := by
  cases hr : b.route with
  | bypass => simp [Block.routesToFrmq, Block.routesToConv, Block.dest, hr]
  | split =>
    by_cases hk : (b.cat.entry c).kind = .nonvalue <;>
      simp [Block.routesToFrmq, Block.routesToConv, Block.dest, hr, hk]
  | all => simp [Block.routesToFrmq, Block.routesToConv, Block.dest, hr]

theorem Block.room_iff (par : Params) (b : Block) (c : Byte) :
    b.room par (b.dest c) = true ↔
      (b.routesToFrmq c ∧ b.frmq.length < par.frmqDepth) ∨ (b.routesToConv c ∧ b.cf = none) := by
  rcases b.dest_cases c with ⟨hf, hc, hd⟩ | ⟨hc, hf, hd⟩ <;> rw [hd]
  · simp only [Block.room, decide_eq_true_eq, hf, hc, true_and, false_and, or_false]
  · simp only [Block.room, Option.isNone_iff_eq_none, hf, hc, true_and, false_and, false_or]

theorem Block.room_eq_false_iff (par : Params) (b : Block) (c : Byte) :
    b.room par (b.dest c) = false ↔
      (b.routesToFrmq c ∧ par.frmqDepth ≤ b.frmq.length) ∨ (b.routesToConv c ∧ b.cf ≠ none) := by
  rcases b.dest_cases c with ⟨hf, hc, hd⟩ | ⟨hc, hf, hd⟩ <;> rw [hd]
  · simp only [Block.room, decide_eq_false_iff_not, not_lt, hf, hc, true_and, false_and, or_false]
  · simp only [Block.room, Option.isNone_eq_false_iff, Option.isSome_iff_ne_none, hf, hc, true_and, false_and, false_or]

/-! ## The block after a reject and after an accept -/

theorem Block.reject_unknownCommand (par : Params) (c : Byte) (b : Block) :
    b.reject par (.unknownCommand c) =
      { b with
        buf := b.buf.drop 1
        pos := b.pos + 1
        unknownCnt := b.unknownCnt + 1
        sticky := { b.sticky with unknown := true } } := rfl

theorem Block.reject_framingError (par : Params) (c : Byte) (b : Block) :
    b.reject par (.framingError c) =
      { b with
        buf := b.buf.drop 1
        pos := b.pos + 1
        corruptCnt := b.corruptCnt + 1
        sticky := { b.sticky with corrupt := true } } := rfl

theorem Block.accept_eq_of_frmq {b : Block} {c : Byte} (p : List Byte) (hd : b.dest c = .frmq) :
    b.accept c p =
      { b with
        buf := b.buf.drop (p.length + 2)
        pos := b.pos + BitVec.ofNat 32 (p.length + 2)
        frameCnt := b.frameCnt + 1
        frmq := b.frmq ++ [{ code := c, payload := p }] } := by
  simp [Block.accept, Block.deliver, Block.advance, hd]

theorem Block.accept_eq_of_conv {b : Block} {c : Byte} (p : List Byte) (hd : b.dest c = .conv) :
    b.accept c p =
      { b with
        buf := b.buf.drop (p.length + 2)
        pos := b.pos + BitVec.ofNat 32 (p.length + 2)
        frameCnt := b.frameCnt + 1
        cf := some { code := c, payload := p, k := 0 } } := by
  simp [Block.accept, Block.deliver, Block.advance, hd]

/-! ## The two kinds of candidate -/

section Candidate

variable {par : Params} {b : Block} {c : Byte} {p : List Byte} {ck : Byte}

theorem Block.scanFrame_of_valid (h : b.isCandidate c p ck = true) (hk : ckFn par.ck (c :: p) = ck) :
    b.scanFrame par c p ck = if b.room par (b.dest c) then b.accept c p else b := by
  rw [Block.scanFrame_of_candidate par c p ck b h, Block.settle, if_pos hk]

theorem Block.scanFrame_of_damaged (h : b.isCandidate c p ck = true) (hk : ckFn par.ck (c :: p) ≠ ck) :
    b.scanFrame par c p ck = b.reject par (.framingError c) := by
  rw [Block.scanFrame_of_candidate par c p ck b h, Block.settle, if_neg hk]

end Candidate

theorem AtHead.isCandidate {s : State} {i : Instr} {behind : List Byte} (h : AtHead s i behind) :
    s.blk.isCandidate i.code i.payload i.cksum = true := by
  obtain ⟨hk, hl⟩ := (i.wellFormed_iff s.blk.cat).1 h.described
  exact (s.blk.isCandidate_iff _ _ _).2 ⟨hk, hl, behind, by simp [h.bytes, encode]⟩

/-- Settles O11: a candidate with a wrong checksum byte is rejected before its route is looked at. -/
theorem damagedFrameLosesItsHeadByte : Obligations.DamagedFrameLosesItsHeadByte := by
  intro s i behind h hk
  have htail : s.blk.buf.drop 1 = i.payload ++ [i.cksum] ++ behind := by simp [h.bytes, encode]
  rw [exec_eq, State.scanFrame, Block.scanFrame_of_damaged h.isCandidate hk, Block.reject_framingError, htail]
  rfl

/-- Settles O12: a right checksum byte leaves the decision to the room, and there is none. -/
theorem validFrameWaitsForRoom : Obligations.ValidFrameWaitsForRoom := by
  intro s i behind h hk hfull
  have hroom : s.blk.room s.par (s.blk.dest i.code) = false := (s.blk.room_eq_false_iff s.par i.code).2 hfull
  rw [exec_eq, State.scanFrame, Block.scanFrame_of_valid h.isCandidate hk, hroom]
  rfl

/-! ## SCAN by its outcome -/

section Outcome

variable {s : State} {c : Byte} {p : List Byte}

theorem fireScan_of_waiting (h : (s.blk.outcome s.par).waiting = true) : fireScan s = .next s := by
  rcases fireScan_cases s with ⟨-, hf⟩ | ⟨c, ho, -, -⟩ | ⟨c, p, ck, hc, -⟩
  · exact hf
  · rw [ho] at h
    contradiction
  · rw [s.blk.outcome_of_candidate s.par c p ck hc] at h
    split at h <;> contradiction

theorem fireScan_of_unknown (h : s.blk.outcome s.par = .unknown c) :
    fireScan s = .next (s.setBlk (s.blk.reject s.par (.unknownCommand c))) := by
  rcases fireScan_cases s with ⟨hw, -⟩ | ⟨d, ho, -, hf⟩ | ⟨d, p, ck, hc, -⟩
  · rw [h] at hw
    contradiction
  · obtain rfl := ScanOutcome.unknown.inj (h.symm.trans ho)
    exact hf
  · rw [s.blk.outcome_of_candidate s.par d p ck hc] at h
    split at h <;> contradiction

theorem fireScan_of_badck (h : s.blk.outcome s.par = .badck c) :
    fireScan s = .next (s.setBlk (s.blk.reject s.par (.framingError c))) := by
  rcases fireScan_cases s with ⟨hw, -⟩ | ⟨d, ho, -, -⟩ | ⟨d, p, ck, hc, hf⟩
  · rw [h] at hw
    contradiction
  · rw [h] at ho
    contradiction
  · rw [s.blk.outcome_of_candidate s.par d p ck hc] at h
    split at h
    · contradiction
    · rename_i hk
      obtain rfl := ScanOutcome.badck.inj h
      rw [hf, State.scanFrame, Block.scanFrame_of_damaged hc hk]

theorem fireScan_of_frame (h : s.blk.outcome s.par = .frame c p) :
    fireScan s = .next (if s.blk.room s.par (s.blk.dest c) then s.setBlk (s.blk.accept c p) else s) := by
  rcases fireScan_cases s with ⟨hw, -⟩ | ⟨d, ho, -, -⟩ | ⟨d, q, ck, hc, hf⟩
  · rw [h] at hw
    contradiction
  · rw [h] at ho
    contradiction
  · rw [s.blk.outcome_of_candidate s.par d q ck hc] at h
    split at h
    · rename_i hk
      obtain ⟨rfl, rfl⟩ := ScanOutcome.frame.inj h
      rw [hf, State.scanFrame, Block.scanFrame_of_valid hc hk, apply_ite s.setBlk, State.setBlk_self]
    · contradiction

end Outcome

theorem Block.scanReady_iff (par : Params) (b : Block) :
    b.scanReady par = true ↔
      (∃ c, b.outcome par = .unknown c) ∨ (∃ c, b.outcome par = .badck c) ∨
      (∃ c p, b.outcome par = .frame c p ∧ b.room par (b.dest c) = true) := by
  unfold Block.scanReady
  cases b.outcome par <;> simp

/-- Settles O17: decoding finds what the outcome says, outcome by outcome. -/
theorem scanFollowsTheOutcome : Obligations.ScanFollowsTheOutcome := by
  refine fun s => ⟨?_, ?_⟩
  · simp only [← Block.room_iff]
    exact s.blk.scanReady_iff s.par
  · show fireScan s = _
    cases ho : scanOutcome s.par.ck s.blk.cat s.blk.buf with
    | waitEmpty => exact fireScan_of_waiting (congrArg ScanOutcome.waiting ho)
    | waitMore => exact fireScan_of_waiting (congrArg ScanOutcome.waiting ho)
    | unknown c => exact fireScan_of_unknown ho
    | badck c => exact fireScan_of_badck ho
    | frame c p =>
      rw [fireScan_of_frame ho]
      dsimp only
      rcases s.blk.dest_cases c with ⟨hf, -, hd⟩ | ⟨-, hf, hd⟩
      · rw [hd, Block.accept_eq_of_frmq p hd, if_pos hf]
        simp only [Block.room, decide_eq_true_eq]
        rfl
      · rw [hd, Block.accept_eq_of_conv p hd, if_neg hf]
        simp only [Block.room, Option.isNone_iff_eq_none]
        rfl

/-- A scan that neither waits nor is enabled has a validated frame without room (R117). -/
theorem Block.frame_of_not_scanReady {par : Params} {b : Block} (hw : (b.outcome par).waiting = false)
    (h : b.scanReady par = false) : ∃ c p, b.outcome par = .frame c p ∧ b.room par (b.dest c) = false := by
  unfold Block.scanReady at h
  cases ho : b.outcome par <;> rw [ho] at hw h
  case frame c p => exact ⟨c, p, rfl, h⟩
  all_goals contradiction

/-- No code has a candidate longer than BUF (R121). -/
theorem Inv.not_waiting_of_full {s : State} (h : Inv s) (hfull : s.blk.buf.length = s.par.bufCap) :
    (s.blk.outcome s.par).waiting = false := by
  unfold Params.bufCap at hfull
  rcases scanOutcome_cases s.par.ck s.blk.cat s.blk.buf with
    ⟨hb, -⟩ | ⟨c, rest, -, -, ho⟩ | ⟨c, rest, hb, -, hl, -⟩ | ⟨c, p, k, behind, -, -, -, ⟨-, ho⟩ | ⟨-, ho⟩⟩
  · rw [hb, List.length_nil] at hfull
    omega
  · rw [Block.outcome, ho, ScanOutcome.waiting]
  · have hcat := h.cat c
    rw [hb, List.length_cons] at hfull
    omega
  · rw [Block.outcome, ho, ScanOutcome.waiting]
  · rw [Block.outcome, ho, ScanOutcome.waiting]

theorem Inv.frmPop_enabled {s : State} (h : Inv s) (hfull : s.blk.frmq.length = s.par.frmqDepth) :
    enabled (.host .frmPop) s = true := by
  obtain ⟨-, -, -, ⟨hdepth, -⟩, -⟩ := h.par
  have hne : s.blk.frmq ≠ [] := List.ne_nil_of_length_pos (by omega)
  simp [enabled, hne]

/-- A frame in CF is converted unless POLICY is BLOCK and SMPQ is full (R172). -/
theorem Inv.conv_enabled_or_blocked {s : State} (h : Inv s) (hcf : s.blk.cf ≠ none) :
    enabled .conv s = true ∨ (s.blk.policy = .block ∧ s.blk.smpq.length = s.par.smpqDepth) := by
  have hsome := Option.isSome_iff_ne_none.2 hcf
  rcases h.smpq.lt_or_eq with hroom | hfull
  · exact .inl ((s.blk.convReady_iff s.par).2 ⟨hsome, .inl hroom⟩)
  · cases hp : s.blk.policy with
    | dropOldest => exact .inl ((s.blk.convReady_iff s.par).2 ⟨hsome, .inr hp⟩)
    | block => exact .inr ⟨rfl, hfull⟩

/-- Settles O19: a full BUF holds a whole candidate, and only a validated frame without room stops SCAN. -/
theorem fullBufferIsNeverIncomplete : Obligations.FullBufferIsNeverIncomplete := by
  intro s h hfull
  have hw := h.not_waiting_of_full hfull
  refine ⟨hw, ?_⟩
  cases hready : s.blk.scanReady s.par with
  | true => exact .inl hready
  | false =>
    obtain ⟨c, p, ho, hroom⟩ := Block.frame_of_not_scanReady hw hready
    refine .inr ⟨c, p, ho, ?_⟩
    rcases (s.blk.room_eq_false_iff s.par c).1 hroom with ⟨hf, hq⟩ | ⟨hc, hcf⟩
    · have heq := h.frmq.antisymm hq
      exact .inl ⟨hf, heq, h.frmPop_enabled heq⟩
    · exact .inr ⟨hc, hcf, h.conv_enabled_or_blocked hcf⟩

end Sys2Proof.Machine
end

section
/-! Streams of valid frames (spec/40_frame_sync.md R122, R123): the pure scan takes them frame by frame and the gaps
between them byte by byte. -/

namespace Sys2Proof.Machine

open Sys2Proof

/-! ## The pure scan, part by part of a byte string -/

/-- The scan of `bytes` from `pos` takes the decisions `steps` and is then the scan of `rest` from `pos'`. -/
def ScansPast (ck : Checksum) (cat : Catalog) (pos : Word) (bytes : List Byte) (steps : List (Word × ScanOutcome))
    (pos' : Word) (rest : List Byte) : Prop :=
  scanAll ck cat pos bytes = (steps ++ (scanAll ck cat pos' rest).1, (scanAll ck cat pos' rest).2)

section Past

variable {ck : Checksum} {cat : Catalog}

theorem ScansPast.refl (pos : Word) (bytes : List Byte) : ScansPast ck cat pos bytes [] pos bytes := rfl

theorem ScansPast.trans {pos₁ pos₂ pos₃ : Word} {bytes₁ bytes₂ bytes₃ : List Byte}
    {l m : List (Word × ScanOutcome)} (h : ScansPast ck cat pos₁ bytes₁ l pos₂ bytes₂)
    (h' : ScansPast ck cat pos₂ bytes₂ m pos₃ bytes₃) : ScansPast ck cat pos₁ bytes₁ (l ++ m) pos₃ bytes₃ := by
  unfold ScansPast at h h' ⊢
  rw [h, h', List.append_assoc]

/-- One decision (R73). -/
theorem ScansPast.of_outcome (pos : Word) {bytes : List Byte} {o : ScanOutcome} (ho : scanOutcome ck cat bytes = o)
    (h : o.waiting = false) :
    ScansPast ck cat pos bytes [(pos, o)] (pos + BitVec.ofNat 32 o.consumes) (bytes.drop o.consumes) := by
  subst ho
  exact scanAll_of_decided ck cat pos h

/-- What a sender must send is a valid frame, whatever follows it (R131, R139). -/
theorem scanOutcome_senderFrame {f : FrameRec} (h : f.described cat) (behind : List Byte) :
    scanOutcome ck cat (senderFrame ck f.code f.payload ++ behind) = .frame f.code f.payload := by
  obtain ⟨hk, hl⟩ := h
  have hbytes : senderFrame ck f.code f.payload ++ behind =
      f.code :: (f.payload ++ ckFn ck (f.code :: f.payload) :: behind) := by simp [senderFrame]
  rw [hbytes, scanOutcome_complete ck cat _ _ _ behind hk hl, if_pos rfl]

theorem senderFrame_length (ck : Checksum) (c : Byte) (p : List Byte) :
    (senderFrame ck c p).length = p.length + 2 := by
  simp [senderFrame]

/-- A valid frame is one accept step, after which the bytes behind it are scanned (R117). -/
theorem ScansPast.senderFrame {f : FrameRec} (h : f.described cat) (pos : Word) (behind : List Byte) :
    ScansPast ck cat pos (senderFrame ck f.code f.payload ++ behind) [(pos, .frame f.code f.payload)]
      (pos + BitVec.ofNat 32 (f.payload.length + 2)) behind := by
  have hstep := ScansPast.of_outcome pos (scanOutcome_senderFrame (ck := ck) h behind) rfl
  rwa [ScanOutcome.consumes, List.drop_left' (senderFrame_length ck _ _)] at hstep

/-- An unknown code and a wrong checksum cost the head byte only (R115). -/
theorem ScansPast.rejected (pos : Word) {b : Byte} {bytes : List Byte} {o : ScanOutcome}
    (ho : scanOutcome ck cat (b :: bytes) = o) (h : ∃ c, o = .unknown c ∨ o = .badck c) :
    ScansPast ck cat pos (b :: bytes) [(pos, o)] (pos + 1) bytes := by
  obtain ⟨c, rfl | rfl⟩ := h <;> exact ScansPast.of_outcome pos ho rfl

end Past

/-- A rejecting decision is no frame and counts once (R35, R36). -/
theorem counts_rejected (pos : Word) {o : ScanOutcome} (h : ∃ c, o = .unknown c ∨ o = .badck c) :
    framesOf [(pos, o)] = [] ∧ unknownsOf [(pos, o)] + badcksOf [(pos, o)] = 1 := by
  obtain ⟨c, rfl | rfl⟩ := h <;> exact ⟨rfl, rfl⟩

theorem framesOf_frame (pos : Word) (f : FrameRec) : framesOf [(pos, .frame f.code f.payload)] = [f] := rfl

theorem unknownsOf_frame (pos : Word) (c : Byte) (p : List Byte) : unknownsOf [(pos, .frame c p)] = 0 := rfl

theorem badcksOf_frame (pos : Word) (c : Byte) (p : List Byte) : badcksOf [(pos, .frame c p)] = 0 := rfl

/-! ## Clean gaps (R123) -/

section Streams

variable {ck : Checksum} {cat : Catalog}

theorem scansPast_cleanGap (pos : Word) {gap behind : List Byte} (h : cleanGap ck cat gap behind) :
    ∃ steps pos', ScansPast ck cat pos (gap ++ behind) steps pos' behind ∧
      framesOf steps = [] ∧ unknownsOf steps + badcksOf steps = gap.length := by
  induction gap generalizing pos with
  | nil => exact ⟨[], pos, .refl pos behind, rfl, rfl⟩
  | cons b gap ih =>
    obtain ⟨hreject, hgap⟩ := h
    obtain ⟨hframes, hcount⟩ := counts_rejected pos hreject
    obtain ⟨steps, pos', hpast, hframes', hcount'⟩ := ih (pos + 1) hgap
    refine ⟨_, pos', (ScansPast.rejected pos rfl hreject).trans hpast, ?_, ?_⟩
    · rw [framesOf_append, hframes, hframes', List.nil_append]
    · rw [unknownsOf_append, badcksOf_append, List.length_cons]
      omega

theorem scansPast_cleanStream (pos : Word) {items : List (List Byte × FrameRec)} {tail : List Byte}
    (h : cleanStream ck cat items tail) :
    ∃ steps pos', ScansPast ck cat pos (gapStream ck items tail) steps pos' tail ∧
      framesOf steps = items.map Prod.snd ∧
      unknownsOf steps + badcksOf steps = (items.map fun it => it.1.length).sum := by
  induction items generalizing pos with
  | nil => exact ⟨[], pos, .refl pos tail, rfl, rfl⟩
  | cons item items ih =>
    obtain ⟨gap, f⟩ := item
    obtain ⟨hf, hgap, hrest⟩ := h
    obtain ⟨rejects, pos₁, hpast₁, hframes₁, hcount₁⟩ := scansPast_cleanGap pos hgap
    obtain ⟨steps, pos', hpast, hframes, hcount⟩ := ih (pos₁ + BitVec.ofNat 32 (f.payload.length + 2)) hrest
    refine ⟨_, pos', (hpast₁.trans (.senderFrame hf pos₁ _)).trans hpast, ?_, ?_⟩
    · simp only [framesOf_append, hframes₁, framesOf_frame, hframes, List.nil_append, List.singleton_append,
        List.map_cons]
    · simp only [unknownsOf_append, badcksOf_append, unknownsOf_frame, badcksOf_frame, List.map_cons, List.sum_cons]
      omega

/-! ## A stream in sync (R122) -/

/-- A sequence of valid frames is scanned frame by frame. -/
theorem scanAll_frames (pos : Word) {fs : List FrameRec} (h : ∀ f ∈ fs, f.described cat) :
    ∃ steps, scanAll ck cat pos (fs.flatMap fun f => senderFrame ck f.code f.payload) = (steps, []) ∧
      steps.map Prod.snd = fs.map fun f => ScanOutcome.frame f.code f.payload := by
  induction fs generalizing pos with
  | nil => exact ⟨[], rfl, rfl⟩
  | cons f fs ih =>
    obtain ⟨hf, hfs⟩ := List.forall_mem_cons.1 h
    obtain ⟨steps, hscan, hsteps⟩ := ih (pos + BitVec.ofNat 32 (f.payload.length + 2)) hfs
    have hpast := ScansPast.senderFrame (ck := ck) hf pos (fs.flatMap fun f => senderFrame ck f.code f.payload)
    unfold ScansPast at hpast
    rw [hscan] at hpast
    exact ⟨_, hpast, congrArg (_ :: ·) hsteps⟩

end Streams

/-- Decisions that are all frames: these frames, and no reject (R117). -/
theorem counts_frames {steps : List (Word × ScanOutcome)} {fs : List FrameRec}
    (h : steps.map Prod.snd = fs.map fun f => ScanOutcome.frame f.code f.payload) :
    framesOf steps = fs ∧ unknownsOf steps = 0 ∧ badcksOf steps = 0 := by
  induction fs generalizing steps with
  | nil =>
    obtain rfl := List.map_eq_nil_iff.1 h
    exact ⟨rfl, rfl, rfl⟩
  | cons f fs ih =>
    obtain ⟨⟨pos, o⟩, steps, rfl, rfl, htail⟩ := List.map_eq_cons_iff.1 h
    obtain ⟨hframes, hunknown, hbadck⟩ := ih htail
    rw [← List.singleton_append]
    refine ⟨?_, ?_, ?_⟩
    · rw [framesOf_append, framesOf_frame, hframes, List.singleton_append]
    · rw [unknownsOf_append, unknownsOf_frame, hunknown]
    · rw [badcksOf_append, badcksOf_frame, hbadck]

/-- Settles O21: a gap byte is one reject step, a frame one accept step. -/
theorem cleanGapsResynchronise : Obligations.CleanGapsResynchronise :=
  fun _ _ pos _ _ h => scansPast_cleanStream pos h

/-- Settles O20: the pure scan takes one frame after the other, and a run takes the decisions of the pure scan
(`scanIsIndependentOfInterleaving`). -/
theorem inSyncStreamYieldsItsFrames : Obligations.InSyncStreamYieldsItsFrames := by
  refine ⟨fun ck cat pos fs h => ?_, fun n s s' fs h hbytes hrun hh hs hw => ?_⟩
  · obtain ⟨steps, hscan, hsteps⟩ := scanAll_frames (ck := ck) pos h
    rw [hscan]
    exact ⟨hsteps, rfl⟩
  · obtain ⟨steps, hscan, hsteps⟩ := scanAll_frames (ck := s.par.ck) s.blk.pos h
    obtain ⟨hframes, hunknown, hbadck⟩ := counts_frames hsteps
    have hahead : s.scanAhead = (steps, []) := by rw [State.scanAhead, hbytes, hscan]
    obtain ⟨hbuf, -, hcorruptCnt, hunknownCnt, hframeCnt⟩ := scanIsIndependentOfInterleaving n s s' hrun hh hs hw
    rw [hahead] at hbuf hcorruptCnt hunknownCnt hframeCnt
    rw [hframes] at hframeCnt
    rw [hbadck, BitVec.add_zero] at hcorruptCnt
    rw [hunknown, BitVec.add_zero] at hunknownCnt
    exact ⟨hbuf, hframeCnt, hcorruptCnt, hunknownCnt⟩

end Sys2Proof.Machine
end

section
/-! What enters the block at its ports: turns that pass (spec/60_exceptions.md R234) and bytes taken in
(spec/40_frame_sync.md R110, R111). -/

namespace Sys2Proof.Machine

open Sys2Proof

/-- A turn takes the agent's offer or passes, by whether the transition offered is enabled (R8). -/
theorem turn_of_offer {a : Agent} {s s' : State} {t : Transition} (h : offer a s = some (t, s')) :
    turn a s = if enabled t s then fire t s' else .next s := by
  rw [turn, h]

/-- Settles O7: the offer is made before the turn is taken from the order, and neither matters to what is enabled. -/
theorem disabledTurnPasses : Obligations.DisabledTurnPasses := by
  intro s a rest t s' ht ho hd
  have ho' : offer a (s.setEnv { s.env with turns := rest }) =
      some (t, s'.setEnv { s'.env with turns := rest }) := by
    rw [offer_setEnv_turns, ho]
    rfl
  rw [step_of_turn s a rest ht, turn_of_offer ho', enabled_setEnv, hd]
  rfl

/-- Settles O37: `rx_ready` is these two conditions (R111), and the effect is that of R110. -/
theorem byteIntakeAppends : Obligations.ByteIntakeAppends := by
  refine fun s x => ⟨?_, rfl⟩
  show s.blk.rxReady s.par = true ↔ _
  rw [Block.rxReady, Bool.and_eq_true, decide_eq_true_eq]

end Sys2Proof.Machine
end

section
/-! The checksum functions (spec/41_checksum.md): folds over the bytes (R132 to R134), whose step decides which changes
of a frame the check notices (R136, R137), and the degenerate frames and worked vectors (R138 to R140). -/

namespace Sys2Proof.Machine

open Sys2Proof

@[simp] theorem ckFn_sum8 (s : List Byte) : ckFn .sum8 s = s.foldl (· + ·) 0 := rfl

@[simp] theorem ckFn_xor8 (s : List Byte) : ckFn .xor8 s = s.foldl (· ^^^ ·) 0 := rfl

@[simp] theorem ckFn_crc8 (poly init : Byte) (s : List Byte) :
    ckFn (.crc8 poly init) s = s.foldl (crcByte poly) init := rfl

/-! ## A changed byte -/

/-- With one byte fixed, each step of the checksum is injective in the accumulator and in the byte it takes. -/
def StepsInjectively (ck : Checksum) : Prop :=
  ∃ (op : Byte → Byte → Byte) (init : Byte), (∀ s, ckFn ck s = s.foldl op init) ∧
    (∀ b, Function.Injective (op · b)) ∧ ∀ a, Function.Injective (op a)

theorem stepsInjectively_sum8 : StepsInjectively .sum8 :=
  ⟨_, _, ckFn_sum8, add_left_injective, add_right_injective⟩

theorem stepsInjectively_xor8 : StepsInjectively .xor8 :=
  ⟨_, _, ckFn_xor8, fun b _ _ => (BitVec.xor_left_inj b).1, fun a _ _ => (BitVec.xor_right_inj a).1⟩

/-- Only the polynomial reaches bit 0, when bit 7 is shifted out. -/
theorem crcBit_getLsbD_zero {poly : Byte} (hp : poly.getLsbD 0 = true) (a : Byte) :
    (crcBit poly a).getLsbD 0 = a.getLsbD 7 := by
  unfold crcBit
  split
  case isTrue ha => rw [BitVec.getLsbD_xor, hp, ha, BitVec.getLsbD_shiftLeft]; rfl
  case isFalse ha => rw [Bool.eq_false_of_not_eq_true ha, BitVec.getLsbD_shiftLeft]; rfl

theorem eq_of_shiftLeft_one_eq {a b : Byte} (htop : a.getLsbD 7 = b.getLsbD 7) (h : a <<< 1 = b <<< 1) : a = b := by
  refine BitVec.eq_of_getLsbD_eq fun i hi => ?_
  obtain rfl | hi7 : i = 7 ∨ i < 7 := by omega
  · exact htop
  · have hbit := congrArg (BitVec.getLsbD · (i + 1)) h
    simpa [hi, show i + 1 < 8 by omega] using hbit

/-- A round of R134 loses nothing if the polynomial has a constant term (R136): bit 0 then tells what was shifted
out. -/
theorem crcBit_injective {poly : Byte} (hp : poly.getLsbD 0 = true) : Function.Injective (crcBit poly) := by
  intro a b h
  have htop : a.getLsbD 7 = b.getLsbD 7 := by rw [← crcBit_getLsbD_zero hp, h, crcBit_getLsbD_zero hp]
  refine eq_of_shiftLeft_one_eq htop ?_
  unfold crcBit at h
  rw [htop] at h
  split at h
  · exact (BitVec.xor_left_inj poly).1 h
  · exact h

theorem stepsInjectively_crc8 {poly : Byte} (hp : poly.getLsbD 0 = true) (init : Byte) :
    StepsInjectively (.crc8 poly init) :=
  have hrounds := (crcBit_injective hp).iterate 8
  ⟨_, _, ckFn_crc8 poly init, fun b _ _ h => (BitVec.xor_left_inj b).1 (hrounds h),
    fun a _ _ h => (BitVec.xor_right_inj a).1 (hrounds h)⟩

theorem foldl_injective_of_step {op : Byte → Byte → Byte} (h : ∀ b, Function.Injective (op · b)) (s : List Byte) :
    Function.Injective (s.foldl op) := by
  induction s with
  | nil => exact Function.injective_id
  | cons b s ih => exact ih.comp (h b)

/-- The bytes in front give both sides one accumulator, the changed byte makes it differ, and the bytes behind keep
it different. -/
theorem ckFn_injective_in_byte {ck : Checksum} (h : StepsInjectively ck) (before after : List Byte) :
    Function.Injective fun x => ckFn ck (before ++ x :: after) := by
  obtain ⟨op, init, hck, hacc, hbyte⟩ := h
  intro x y hxy
  simp only [hck, List.foldl_append, List.foldl_cons] at hxy
  exact hbyte _ (foldl_injective_of_step hacc after hxy)

theorem known_of_scanOutcome_frame {ck : Checksum} {cat : Catalog} {c d : Byte} {rest p : List Byte}
    (h : scanOutcome ck cat (c :: rest) = .frame d p) : (cat.entry c).known = true := by
  by_contra hk
  rw [scanOutcome_unknown ck cat c rest (by simpa using hk)] at h
  exact ScanOutcome.noConfusion h

/-- The last byte of a valid candidate is its checksum (R131). -/
theorem ckFn_eq_of_scanOutcome_frame {ck : Checksum} {cat : Catalog} {c d k : Byte} {p q behind : List Byte}
    (hl : p.length = (cat.entry c).len.toNat)
    (h : scanOutcome ck cat (c :: (p ++ k :: behind)) = .frame d q) : ckFn ck (c :: p) = k := by
  by_contra hne
  rw [scanOutcome_complete ck cat c p k behind (known_of_scanOutcome_frame h) hl, if_neg hne] at h
  exact ScanOutcome.noConfusion h

theorem scanOutcome_of_wrong_checksum {ck : Checksum} {cat : Catalog} {c k : Byte} {p : List Byte}
    (hk : (cat.entry c).known = true) (hl : p.length = (cat.entry c).len.toNat) (hne : ckFn ck (c :: p) ≠ k)
    (behind : List Byte) : scanOutcome ck cat (c :: (p ++ k :: behind)) = .badck c := by
  rw [scanOutcome_complete ck cat c p k behind hk hl, if_neg hne]

/-- For such a checksum a byte changed in a valid frame is noticed: in the checksum byte, because the computed value
is still the one before; in the payload, because it is not. -/
theorem scanOutcome_of_byte_changed {ck : Checksum} (hck : StepsInjectively ck) {cat : Catalog} {c x y : Byte}
    {before after behind p : List Byte} (hxy : x ≠ y)
    (hlen : (before ++ x :: after).length = (cat.entry c).len.toNat + 1)
    (h : scanOutcome ck cat (c :: (before ++ x :: after ++ behind)) = .frame c p) :
    scanOutcome ck cat (c :: (before ++ y :: after ++ behind)) = .badck c := by
  have hknown := known_of_scanOutcome_frame h
  rcases after.eq_nil_or_concat' with rfl | ⟨payload, k, rfl⟩
  · have hl : before.length = (cat.entry c).len.toNat := by simpa using hlen
    rw [List.append_assoc] at h ⊢
    have hx : ckFn ck (c :: before) = x := ckFn_eq_of_scanOutcome_frame hl h
    exact scanOutcome_of_wrong_checksum hknown hl (hx ▸ hxy) behind
  · have hl (z : Byte) : (before ++ z :: payload).length = (cat.entry c).len.toNat := by
      simpa [← Nat.add_assoc] using hlen
    have hassoc (z : Byte) :
        before ++ z :: (payload ++ [k]) ++ behind = (before ++ z :: payload) ++ k :: behind := by simp
    rw [hassoc] at h ⊢
    have hx : ckFn ck (c :: (before ++ x :: payload)) = k := ckFn_eq_of_scanOutcome_frame (hl x) h
    have hy : ckFn ck (c :: (before ++ y :: payload)) ≠ k := fun hy =>
      hxy (ckFn_injective_in_byte hck (c :: before) payload (hx.trans hy.symm))
    exact scanOutcome_of_wrong_checksum hknown (hl y) hy behind

/-- Settles O26: each of the three steps injectively, CRC8 because the default polynomial is odd. -/
theorem singleByteErrorIsDetected : Obligations.SingleByteErrorIsDetected := by
  intro ck hck cat c x y before after behind p hxy hlen h
  have hsteps : StepsInjectively ck := by
    rcases hck with rfl | rfl | ⟨init, rfl⟩
    · exact stepsInjectively_sum8
    · exact stepsInjectively_xor8
    · exact stepsInjectively_crc8 rfl init
  exact scanOutcome_of_byte_changed hsteps hxy hlen h

/-! ## Reordered bytes -/

/-- Settles O27: both are folds of an operation that is commutative and associative. -/
theorem sumAndXorIgnoreOrder : Obligations.SumAndXorIgnoreOrder := by
  intro s t h
  rw [ckFn_sum8, ckFn_sum8, ckFn_xor8, ckFn_xor8]
  exact ⟨h.foldl_eq 0, h.foldl_eq 0⟩

/-! ## Valid frames -/

/-- Settles O24. -/
theorem senderFrameIsValid : Obligations.SenderFrameIsValid :=
  fun _ _ c p behind hk hl => scanOutcome_senderFrame (f := ⟨c, p⟩) ⟨hk, hl⟩ behind

theorem foldl_replicate_of_fixed {op : Byte → Byte → Byte} {a b : Byte} (h : op a b = a) (n : Nat) :
    (List.replicate n b).foldl op a = a := by
  induction n with
  | zero => rfl
  | succ n ih => rw [List.replicate_succ, List.foldl_cons, h, ih]

/-- The checksum of zeros is zero, under SUM8, XOR8 and CRC8 with the defaults (R138). -/
theorem ckFn_replicate_zero {ck : Checksum}
    (h : ck = .sum8 ∨ ck = .xor8 ∨ ck = .crc8 Config.crcPoly Config.crcInit) (n : Nat) :
    ckFn ck (List.replicate n 0) = 0 := by
  rcases h with rfl | rfl | rfl <;> exact foldl_replicate_of_fixed rfl n

/-- One byte is its own sum and its own exclusive-or (R138). -/
theorem ckFn_singleton {ck : Checksum} (h : ck = .sum8 ∨ ck = .xor8) (c : Byte) : ckFn ck [c] = c := by
  rcases h with rfl | rfl <;> simp

theorem replicate_zero_eq_senderFrame {ck : Checksum}
    (h : ck = .sum8 ∨ ck = .xor8 ∨ ck = .crc8 Config.crcPoly Config.crcInit) (n : Nat) :
    List.replicate (n + 2) 0 = senderFrame ck 0 (List.replicate n 0) := by
  rw [senderFrame, ← List.replicate_succ, ckFn_replicate_zero h, ← List.replicate_succ', List.replicate_succ]

theorem pair_eq_senderFrame {ck : Checksum} (h : ck = .sum8 ∨ ck = .xor8) (c : Byte) :
    [c, c] = senderFrame ck c [] := by
  rw [senderFrame, ckFn_singleton h, List.nil_append]

/-- The bytes that are their own CRC8, found over all 256 as R138 says. -/
theorem ckFn_crc8_singleton_eq_iff :
    ∀ c : Byte, ckFn (.crc8 Config.crcPoly Config.crcInit) [c] = c ↔ c = 0x00 ∨ c = 0xFD := by
  decide +kernel

/-- Settles O28: the zeros and the pairs are what a sender must send, so they are valid (`senderFrameIsValid`). -/
theorem degenerateChecksums : Obligations.DegenerateChecksums := by
  refine ⟨fun ck cat behind hck hk => ?_, fun ck cat c behind hck hk hl => ?_, ckFn_crc8_singleton_eq_iff,
    (pair_eq_senderFrame (.inl rfl) 8).symm, (pair_eq_senderFrame (.inr rfl) 8).symm, by decide⟩
  · rw [replicate_zero_eq_senderFrame hck]
    exact senderFrameIsValid ck cat 0 _ behind hk List.length_replicate
  · have hframe := senderFrameIsValid ck cat c [] behind hk (by rw [hl]; rfl)
    rwa [← pair_eq_senderFrame hck] at hframe

/-- Settles O25: twelve closed computations. -/
theorem checksumVectorTable : Obligations.ChecksumVectorTable := by
  unfold Obligations.ChecksumVectorTable
  decide +kernel

end Sys2Proof.Machine
end

section
/-! What exec does with the frame at the head of BUF (spec/42_commands.md R145): the worked frames decode, a valid frame
is taken to the end of its route, and the configuration stays. -/

namespace Sys2Proof

/-- Settles O3: each worked frame is an instruction that REFCAT describes, encoded; REFCAT does not know code 0x05. -/
theorem workedFramesDecode : Obligations.WorkedFramesDecode :=
  ⟨decode_encode (i := .welcome [0x50, 0x4D, 0x44] 0xE1) (by decide) [],
    decode_encode (i := .readDeviceId [0xDE, 0xAD, 0xBE, 0xEF] 0x39) (by decide) [],
    decode_encode (i := .readSensors [0xE8, 0x03, 0xD0, 0x07] 0xC4) (by decide) [],
    decode_encode (i := .readValues [0x0A, 0x00, 0x14, 0x00] 0x21) (by decide) [],
    decode_encode (i := .readConfig [0x12, 0x34] 0x4A) (by decide) [],
    decode_encode (i := .readAdcBuffer [1, 0, 2, 0, 3, 0, 4, 0, 5, 0, 6, 0] 0x1B) (by decide) [],
    decode_encode (i := .writeConfigContinuousTx [0x01] 0x08) (by decide) [],
    decode_encode (i := .writeConfigUart [] 0x08) (by decide) [],
    decode_unknown Config.refcat 0x05 [0x08] (by decide)⟩

end Sys2Proof

namespace Sys2Proof.Machine

open Sys2Proof

/-! ## A valid frame whose destination has room (R116, R117) -/

section Accepted

variable {s : State} {i : Instr} {behind : List Byte}

theorem AtHead.drop_frame (h : AtHead s i behind) : s.blk.buf.drop (i.payload.length + 2) = behind := by
  rw [h.bytes, ← encode_length, List.drop_left]

theorem AtHead.exec_eq_accept (h : AtHead s i behind) (hk : ckFn s.par.ck (i.code :: i.payload) = i.cksum)
    (hr : s.blk.room s.par (s.blk.dest i.code) = true) :
    exec i s = .next (s.setBlk (s.blk.accept i.code i.payload)) := by
  rw [exec_eq, State.scanFrame, Block.scanFrame_of_valid h.isCandidate hk, if_pos hr]

theorem Block.dest_of_routesToFrmq {b : Block} {c : Byte} (h : b.routesToFrmq c) : b.dest c = .frmq := by
  rcases b.dest_cases c with ⟨-, -, hd⟩ | ⟨-, hno, -⟩
  · exact hd
  · exact absurd h hno

theorem Block.dest_of_routesToConv {b : Block} {c : Byte} (h : b.routesToConv c) : b.dest c = .conv := by
  rcases b.dest_cases c with ⟨-, hno, -⟩ | ⟨-, -, hd⟩
  · exact absurd h hno
  · exact hd

/-- The state in which a frame has been taken from BUF and is held in CF, no sample of it converted (R117). -/
def State.loaded (s : State) (i : Instr) (behind : List Byte) : State :=
  { s with blk := { s.blk with
    buf := behind
    pos := s.blk.pos + BitVec.ofNat 32 (i.payload.length + 2)
    frameCnt := s.blk.frameCnt + 1
    cf := some { code := i.code, payload := i.payload, k := 0 } } }

@[simp] theorem State.loaded_par (s : State) (i : Instr) (behind : List Byte) : (s.loaded i behind).par = s.par := rfl

theorem AtHead.exec_eq_loaded (h : AtHead s i behind) (hk : ckFn s.par.ck (i.code :: i.payload) = i.cksum)
    (hr : s.blk.routesToConv i.code) (hcf : s.blk.cf = none) : exec i s = .next (s.loaded i behind) := by
  have hroom := (s.blk.room_iff s.par i.code).2 (.inr ⟨hr, hcf⟩)
  rw [h.exec_eq_accept hk hroom, Block.accept_eq_of_conv _ (Block.dest_of_routesToConv hr), h.drop_frame]
  rfl

end Accepted

/-- Settles O9: the frame is accepted, and its route leads to FRMQ. -/
theorem validFrameEntersTheFrameQueue : Obligations.ValidFrameEntersTheFrameQueue := by
  intro s i behind h hk hr hq
  have hroom := (s.blk.room_iff s.par i.code).2 (.inl ⟨hr, hq⟩)
  rw [h.exec_eq_accept hk hroom, Block.accept_eq_of_frmq _ (Block.dest_of_routesToFrmq hr), h.drop_frame]
  rfl

/-- Settles O10: the frame is accepted, and its route leads to the converter. -/
theorem validFrameEntersTheConverter : Obligations.ValidFrameEntersTheConverter :=
  fun _ _ _ h hk hr hcf => h.exec_eq_loaded hk hr hcf

/-! ## What no frame changes (R145, R231) -/

/-- The configuration is the same in both blocks. -/
structure Block.SameConfig (b b' : Block) : Prop where
  run : b'.run = b.run
  route : b'.route = b.route
  policy : b'.policy = b.policy
  nch : b'.nch = b.nch
  lut : b'.lut = b.lut
  cat : b'.cat = b.cat

theorem Block.SameConfig.refl (b : Block) : b.SameConfig b := ⟨rfl, rfl, rfl, rfl, rfl, rfl⟩

theorem Block.sameConfig_reject (par : Params) (e : Event) (b : Block) : b.SameConfig (b.reject par e) :=
  ⟨b.raise_run par e, b.raise_route par e, b.raise_policy par e, b.raise_nch par e, b.raise_lut par e,
    b.raise_cat par e⟩

theorem Block.sameConfig_accept (c : Byte) (p : List Byte) (b : Block) : b.SameConfig (b.accept c p) :=
  ⟨b.accept_run c p, b.accept_route c p, b.accept_policy c p, b.accept_nch c p, b.accept_lut c p, b.accept_cat c p⟩

theorem Block.sameConfig_convert (par : Params) (f : ConvFrame) (b : Block) : b.SameConfig (b.convert par f) := by
  rcases b.convert_cases par f with ⟨_, -, -, h⟩ | ⟨-, h⟩ <;> rw [h] <;> constructor <;> simp

/-- Of the moves of the block only a configuration write and RESET touch the configuration (R186, R245). -/
theorem Block.Moves.sameConfig {par : Params} {b b' : Block} {t : Transition} (h : b.Moves par t b')
    (hw : ∀ i w, t ≠ .host (.cfgWrite i w)) (hr : t ≠ .host .reset) : b.SameConfig b' := by
  cases h with
  | rx x => exact ⟨rfl, rfl, rfl, rfl, rfl, rfl⟩
  | unknown c ho => exact b.sameConfig_reject par _
  | badck c ho => exact b.sameConfig_reject par _
  | frame c p ck ho hc hroom => exact b.sameConfig_accept c p
  | conv f hf => exact b.sameConfig_convert par f
  | cfgRead i => exact .refl b
  | cfgWrite i w => exact absurd rfl (hw i w)
  | frmPop => exact ⟨rfl, rfl, rfl, rfl, rfl, rfl⟩
  | reset => exact absurd rfl hr
  | smpPop => exact ⟨rfl, rfl, rfl, rfl, rfl, rfl⟩

/-- Settles O49: a transition fires by a move of the block, or leaves the block as it is. -/
theorem onlyTheHostConfigures : Obligations.OnlyTheHostConfigures := by
  intro t s s' hf hw hr
  have hsame : s.blk.SameConfig s'.blk := by
    rcases fire_cases hf with hm | ⟨-, hb⟩
    · exact hm.sameConfig hw hr
    · exact hb ▸ .refl s.blk
  exact ⟨hsame.run, hsame.route, hsame.policy, hsame.nch, hsame.lut, hsame.cat⟩

/-- What a frame leaves alone beside the configuration: SMPQ with its numbers, and the counters and flags of the events
that are none of a checksum failure's (R227, R231). -/
structure Block.SameOutsideFrames (b b' : Block) : Prop where
  smpq : b'.smpq = b.smpq
  seq : b'.seq = b.seq
  unknownCnt : b'.unknownCnt = b.unknownCnt
  decerrCnt : b'.decerrCnt = b.decerrCnt
  dropCnt : b'.dropCnt = b.dropCnt
  sticky : ∃ corrupt, b'.sticky = { b.sticky with corrupt := corrupt }

/-- A frame is accepted, loses its head byte, or stays. -/
theorem Block.scanFrame_frame (par : Params) (c : Byte) (p : List Byte) (ck : Byte) (b : Block) :
    b.SameConfig (b.scanFrame par c p ck) ∧ b.SameOutsideFrames (b.scanFrame par c p ck) := by
  rcases b.scanFrame_cases par c p ck with ⟨-, -, -, h⟩ | ⟨-, -, h⟩ | ⟨-, h⟩ <;> rw [h]
  · exact ⟨b.sameConfig_accept c p, by simp, by simp, by simp, by simp, by simp, _, b.accept_sticky c p⟩
  · exact ⟨b.sameConfig_reject par _, rfl, rfl, rfl, rfl, rfl, true, rfl⟩
  · exact ⟨.refl b, rfl, rfl, rfl, rfl, rfl, _, rfl⟩

/-- Settles O13: exec is the scan of the frame, wherever the frame stands. -/
theorem frameChangesNoConfiguration : Obligations.FrameChangesNoConfiguration := by
  intro i s t h
  rw [exec_eq] at h
  obtain rfl := Host.Outcome.next.inj h
  obtain ⟨hconfig, hsame⟩ := s.blk.scanFrame_frame s.par i.code i.payload i.cksum
  obtain ⟨corrupt, hsticky⟩ := hsame.sticky
  rw [State.scanFrame_blk, hsticky]
  exact ⟨rfl, rfl, hconfig.run, hconfig.route, hconfig.policy, hconfig.nch, hconfig.lut, hconfig.cat, hsame.smpq,
    hsame.seq, hsame.unknownCnt, hsame.decerrCnt, hsame.dropCnt, rfl, rfl, rfl, rfl⟩

end Sys2Proof.Machine
end

section
/-! The frames that the converter takes (spec/42_commands.md R147 to R154): the error record of a non-value frame, the
one sample of a per-channel frame and the samples of a batch, after the accept step that loads CF. -/

namespace Sys2Proof.Machine

open Sys2Proof

section Converter

variable {par : Params} {b : Block} {f : ConvFrame}

/-! ## What stands in the way of a conversion (R173 to R175) -/

theorem Block.convCause_of_nonvalue (hk : f.k = 0) (hkind : (b.cat.entry f.code).kind = .nonvalue) :
    b.convCause f = some .notValue := by
  simp [Block.convCause, hk, hkind]

theorem Block.convCause_of_index_ne_zero (hk : f.k ≠ 0) : b.convCause f = none := by
  simp [Block.convCause, hk]

theorem Block.lacksDescriptor_eq_false_iff (b : Block) : b.lacksDescriptor = false ↔ b.descriptorsValid := by
  simp [Block.lacksDescriptor, Block.descriptorsValid]

/-- A payload of one sample under PER_CHANNEL, and of one or several under BATCH, has a legal length (R174). -/
theorem badLength_eq_false {kind : Kind} {n g K : Nat} (hg : 0 < g) (hK : 1 ≤ K) (hn : n = K * g)
    (hkind : kind = .perChannel → K = 1) : badLength kind n g = false := by
  cases kind with
  | nonvalue => rfl
  | perChannel => simp [badLength, hn, hkind rfl]
  | batch =>
    have hpos : n ≠ 0 := hn ▸ (Nat.mul_pos hK hg).ne'
    have hmod : n % g = 0 := hn ▸ Nat.mul_mod_left K g
    simp [badLength, hpos, hmod]

theorem Block.convCause_eq_none (hkind : (b.cat.entry f.code).kind ≠ .nonvalue)
    (hlen : badLength (b.cat.entry f.code).kind f.payload.length (b.sampleBytes (b.cat.entry f.code)) = false)
    (hd : b.descriptorsValid) : b.convCause f = none := by
  simp [Block.convCause, hkind, hlen, b.lacksDescriptor_eq_false_iff.2 hd]

/-! ## One conversion with room in SMPQ (R172, R176) -/

theorem Block.sampleCount_eq (hn : 1 ≤ b.nch.toNat) {K : Nat}
    (hl : f.payload.length = K * b.sampleBytes (b.cat.entry f.code)) : b.sampleCount f = K := by
  rw [Block.sampleCount, hl, Nat.mul_div_cancel K (Block.sampleBytes_pos hn _)]

theorem Block.nextFrame_of_last (h : b.sampleCount f = f.k + 1) : b.nextFrame f = none := if_pos h.symm

theorem Block.nextFrame_of_more (h : f.k + 1 < b.sampleCount f) : b.nextFrame f = some { f with k := f.k + 1 } :=
  if_neg h.ne

theorem Block.convReady_of_room (hf : b.cf = some f) (hq : b.smpq.length < par.smpqDepth) :
    b.convReady par = true :=
  (b.convReady_iff par).2 ⟨Option.isSome_of_eq_some hf, .inl hq⟩

/-- A frame that cannot be converted leaves CF for one error record (R173, R228). -/
theorem Block.convert_of_cause {cause : Cause} (hc : b.convCause f = some cause)
    (hq : b.smpq.length < par.smpqDepth) :
    b.convert par f =
      { b with
        decerrCnt := b.decerrCnt + 1
        sticky := { b.sticky with decErr := true }
        smpq := b.smpq ++ [{ seq := b.seq, body := .err cause f.code f.payload.length }]
        seq := b.seq + 1
        cf := none } := by
  have hpush := Block.smpPush_of_room par (.err cause f.code f.payload.length)
    { b with decerrCnt := b.decerrCnt + 1, sticky := { b.sticky with decErr := true } } hq.ne
  rw [Block.convert, hc]
  dsimp only
  rw [Block.raise_decodeError, hpush]

theorem Block.convert_of_sample (hc : b.convCause f = none) (hq : b.smpq.length < par.smpqDepth) :
    b.convert par f =
      { b with
        smpq := b.smpq ++ [{ seq := b.seq, body := b.sampleBody par f }]
        seq := b.seq + 1
        cf := b.nextFrame f } := by
  rw [Block.convert, hc]
  dsimp only
  rw [Block.smpPush_of_room par _ _ hq.ne]

theorem fire_conv_of_cf {s : State} (hf : s.blk.cf = some f) :
    fire .conv s = .next (s.setBlk (s.blk.convert s.par f)) := by
  rw [fire, s.blk.conv_of_some s.par f hf]

/-! ## The samples of one frame, one CONV turn after the other (R177) -/

/-- The `n` records that the frame `f` yields from its index on, numbered from SEQ on. -/
def Block.samplesFrom (par : Params) (f : ConvFrame) (n : Nat) (b : Block) : List Record :=
  (List.range n).map fun j =>
    { seq := b.seq + BitVec.ofNat 64 j, body := b.sampleBody par { f with k := f.k + j } }

/-- The block that has pushed these records and holds no frame any more. -/
def Block.afterSamples (par : Params) (f : ConvFrame) (n : Nat) (b : Block) : Block :=
  { b with
    smpq := b.smpq ++ b.samplesFrom par f n
    seq := b.seq + BitVec.ofNat 64 n
    cf := none }

theorem seq_add_succ (q : SeqNo) (n : Nat) : q + BitVec.ofNat 64 (n + 1) = q + 1 + BitVec.ofNat 64 n := by
  rw [Nat.add_comm, BitVec.ofNat_add, BitVec.add_assoc]
  rfl

/-- The first of the records is that of the frame's index; the others are those of the next index, numbered from the
next SEQ on, whatever CF holds meanwhile. -/
theorem Block.afterSamples_succ (par : Params) (f : ConvFrame) (n : Nat) (b : Block) (cf : Option ConvFrame) :
    b.afterSamples par f (n + 1) =
      Block.afterSamples par { f with k := f.k + 1 } n
        { b with smpq := b.smpq ++ [{ seq := b.seq, body := b.sampleBody par f }], seq := b.seq + 1, cf := cf } := by
  have hrecords : b.samplesFrom par f (n + 1) = { seq := b.seq, body := b.sampleBody par f } ::
      Block.samplesFrom par { f with k := f.k + 1 } n { b with seq := b.seq + 1 } := by
    simp only [Block.samplesFrom, List.range_succ_eq_map, List.map_cons, List.map_map, Function.comp_def,
      seq_add_succ, Nat.add_assoc, Nat.add_comm 1]
    simp [Block.sampleBody]
  simp only [Block.afterSamples, hrecords, seq_add_succ, List.append_assoc, List.singleton_append]
  rfl

theorem Block.afterSamples_zero (par : Params) (f : ConvFrame) {b : Block} (h : b.cf = none) :
    b.afterSamples par f 0 = b := by
  simp only [Block.afterSamples, Block.samplesFrom, List.range_zero, List.map_nil, List.append_nil,
    BitVec.add_zero, ← h]

/-- A turn of CONV that pushes a sample record. -/
theorem step_conv_of_sample {s : State} {rest : List Agent} (ht : s.env.turns = .conv :: rest)
    (hf : s.blk.cf = some f) (hc : s.blk.convCause f = none) (hq : s.blk.smpq.length < s.par.smpqDepth) :
    step s = .next ((s.setEnv { s.env with turns := rest }).setBlk
      { s.blk with
        smpq := s.blk.smpq ++ [{ seq := s.blk.seq, body := s.blk.sampleBody s.par f }]
        seq := s.blk.seq + 1
        cf := s.blk.nextFrame f }) := by
  have hready : enabled .conv s = true := Block.convReady_of_room hf hq
  rw [step_of_turn s .conv rest ht, turn_of_offer rfl, enabled_setEnv, if_pos hready, fire,
    State.setEnv_blk, State.setEnv_par, s.blk.conv_of_some s.par f hf, Block.convert_of_sample hc hq]

/-- Without a cause against it, with room for all its records and with a CONV turn for each, the frame in CF is
converted to its end. -/
theorem runsTo_converts_frame (n : Nat) (rest : List Agent) {s : State} (hf : s.blk.cf = some f)
    (hc : s.blk.convCause f = none) (hcount : s.blk.sampleCount f = f.k + (n + 1))
    (hq : s.blk.smpq.length + (n + 1) ≤ s.par.smpqDepth)
    (ht : s.env.turns = List.replicate (n + 1) .conv ++ rest) :
    runsTo (n + 1) s ((s.setEnv { s.env with turns := rest }).setBlk (s.blk.afterSamples s.par f (n + 1))) := by
  induction n generalizing s f with
  | zero =>
    rw [runsTo_succ (step_conv_of_sample ht hf hc hq), Block.nextFrame_of_last hcount,
      Block.afterSamples_succ s.par f 0 s.blk none, Block.afterSamples_zero s.par _ rfl]
    exact runsTo_zero.2 rfl
  | succ n ih =>
    have hroom : s.blk.smpq.length < s.par.smpqDepth := by omega
    have hmore : f.k + 1 < s.blk.sampleCount f := by omega
    rw [runsTo_succ (step_conv_of_sample ht hf hc hroom), Block.nextFrame_of_more hmore,
      Block.afterSamples_succ s.par f (n + 1) s.blk (some { f with k := f.k + 1 })]
    refine ih rfl (Block.convCause_of_index_ne_zero (Nat.succ_ne_zero f.k)) ?_ ?_ rfl
    · show s.blk.sampleCount f = f.k + 1 + (n + 1)
      omega
    · simp only [State.setBlk_blk, State.setBlk_par, State.setEnv_par, List.length_append, List.length_singleton]
      omega

end Converter

/-! ## The frames of the eight codes in the converter -/

theorem Block.routesToConv_of_valueBearing {b : Block} {c : Byte} (hroute : b.route = .split ∨ b.route = .all)
    (hkind : (b.cat.entry c).kind ≠ .nonvalue) : b.routesToConv c :=
  hroute.symm.imp_right fun hsplit => ⟨hsplit, hkind⟩

section Loaded

variable {s : State} {i : Instr} {behind : List Byte} {K : Nat}

/-- A value-bearing frame of `K` samples with its descriptors loaded has nothing against its conversion (R173 to
R175). -/
theorem State.convCause_loaded (hkind : (s.blk.cat.entry i.code).kind ≠ .nonvalue)
    (hone : (s.blk.cat.entry i.code).kind = .perChannel → K = 1) (hn : 1 ≤ s.blk.nch.toNat) (hK : 1 ≤ K)
    (hl : i.payload.length = K * s.blk.sampleBytes (s.blk.cat.entry i.code)) (hd : s.blk.descriptorsValid) :
    (s.loaded i behind).blk.convCause { code := i.code, payload := i.payload, k := 0 } = none :=
  Block.convCause_eq_none hkind (badLength_eq_false (Block.sampleBytes_pos hn _) hK hl hone) hd

theorem State.sampleCount_loaded (hn : 1 ≤ s.blk.nch.toNat)
    (hl : i.payload.length = K * s.blk.sampleBytes (s.blk.cat.entry i.code)) :
    (s.loaded i behind).blk.sampleCount { code := i.code, payload := i.payload, k := 0 } = K :=
  Block.sampleCount_eq hn hl

/-- The records of the frame hold its values (R176). -/
theorem State.samplesFrom_loaded (n : Nat) :
    (s.loaded i behind).blk.samplesFrom s.par { code := i.code, payload := i.payload, k := 0 } n =
      (List.range n).map fun k =>
        { seq := s.blk.seq + BitVec.ofNat 64 k
          body := .smp i.code k s.blk.nch.toNat (s.values i.code i.payload k) } := by
  simp only [Block.samplesFrom, Nat.zero_add]
  rfl

end Loaded

/-- Settles O14: the frame is loaded, and its kind is the cause of the error record. -/
theorem nonValueFrameUnderAllYieldsAnErrorRecord : Obligations.NonValueFrameUnderAllYieldsAnErrorRecord := by
  intro s i p ck behind hi h hk hkind hroute hcf hq
  obtain ⟨rfl, rfl⟩ : i.payload = p ∧ i.cksum = ck := by
    rcases hi with rfl | rfl | rfl | rfl | rfl <;> exact ⟨rfl, rfl⟩
  have hcause := Block.convCause_of_nonvalue (b := (s.loaded i behind).blk)
    (f := { code := i.code, payload := i.payload, k := 0 }) rfl hkind
  refine ⟨s.loaded i behind, h.exec_eq_loaded hk (.inl hroute) hcf, Block.convReady_of_room rfl hq, ?_⟩
  rw [fire_conv_of_cf rfl, State.loaded_par, Block.convert_of_cause hcause hq]
  simp only [hcf]
  rfl

/-- Settles O15: the frame is loaded, nothing is against its conversion, and its first sample is its last. -/
theorem perChannelFrameYieldsOneSample : Obligations.PerChannelFrameYieldsOneSample := by
  intro s i p ck behind hi h hk hkind hroute hcf hq hn hl hd
  obtain ⟨rfl, rfl⟩ : i.payload = p ∧ i.cksum = ck := by
    rcases hi with rfl | rfl <;> exact ⟨rfl, rfl⟩
  have hvalue : (s.blk.cat.entry i.code).kind ≠ .nonvalue := fun hno => nomatch hkind.symm.trans hno
  have hone : i.payload.length = 1 * s.blk.sampleBytes (s.blk.cat.entry i.code) := hl.trans (Nat.one_mul _).symm
  have hcause := State.convCause_loaded (behind := behind) hvalue (fun _ => rfl) hn (Nat.le_refl 1) hone hd
  have hlast := Block.nextFrame_of_last (State.sampleCount_loaded (behind := behind) hn hone)
  refine ⟨s.loaded i behind, h.exec_eq_loaded hk (Block.routesToConv_of_valueBearing hroute hvalue) hcf,
    Block.convReady_of_room rfl hq, ?_⟩
  rw [fire_conv_of_cf rfl, State.loaded_par, Block.convert_of_sample hcause hq, hlast]
  simp only [hcf]
  rfl

/-- Settles O16: the frame is loaded, and a CONV turn for each of its samples converts it to its end. -/
theorem batchFrameYieldsItsSamplesInOrder : Obligations.BatchFrameYieldsItsSamplesInOrder := by
  intro s p ck behind K rest h hk hkind hroute hcf hn hK hl hd hq ht
  have hvalue : (s.blk.cat.entry 0x06).kind ≠ .nonvalue := fun hno => nomatch hkind.symm.trans hno
  have hcause := State.convCause_loaded (i := .readAdcBuffer p ck) (behind := behind) hvalue
    (fun hper => nomatch hkind.symm.trans hper) hn hK hl hd
  have hcount := State.sampleCount_loaded (i := .readAdcBuffer p ck) (behind := behind) hn hl
  obtain ⟨n, rfl⟩ := Nat.exists_eq_add_of_le' hK
  have hrun := runsTo_converts_frame n rest rfl hcause (hcount.trans (Nat.zero_add _).symm) hq ht
  refine ⟨s.loaded (.readAdcBuffer p ck) behind,
    h.exec_eq_loaded hk (Block.routesToConv_of_valueBearing hroute hvalue) hcf, ?_⟩
  rw [Block.afterSamples, State.loaded_par, State.samplesFrom_loaded] at hrun
  simp only [hcf]
  exact hrun

end Sys2Proof.Machine
end

section
/-! What CONV does (spec/43_converter.md): when it waits (R172), the three causes of DecodeError (R173 to R175), the
sample case (R176), the push (R178), and the results at the extremes of their range (R168, R180). -/

namespace Sys2Proof.Machine

open Sys2Proof

/-! ## The enabling of CONV and the push -/

theorem enabled_conv_iff (s : State) : enabled .conv s = true ↔
    s.blk.cf ≠ none ∧ (s.blk.smpq.length < s.par.smpqDepth ∨ s.blk.policy = .dropOldest) :=
  (s.blk.convReady_iff s.par).trans (and_congr_left' Option.isSome_iff_ne_none)

/-- Settles O34. -/
theorem convertWaitsOnlyForRoom : Obligations.ConvertWaitsOnlyForRoom := enabled_conv_iff

/-- Settles O36: the two cases of a push; a full queue has no room, so only the policy can have enabled CONV. -/
theorem pushNumbersAndDropsOldest : Obligations.PushNumbersAndDropsOldest := by
  refine ⟨fun par r b => ?_, fun s hen hfull => ?_⟩
  · split
    case isTrue hfull => exact Block.smpPush_of_full par r b hfull
    case isFalse hroom => exact Block.smpPush_of_room par r b hroom
  · obtain ⟨-, hroom | hdrop⟩ := (enabled_conv_iff s).1 hen
    · exact absurd hfull hroom.ne
    · exact hdrop

/-! ## The causes of DecodeError, in the order of their tests -/

section Causes

variable {b : Block} {f : ConvFrame}

/-- R174, by the kind of the entry; a NONVALUE code has no length to match. -/
theorem badLength_iff (kind : Kind) (n g : Nat) : badLength kind n g = true ↔
    (kind = .perChannel ∧ n ≠ g) ∨ (kind = .batch ∧ (n = 0 ∨ n % g ≠ 0)) := by
  cases kind <;> simp [badLength]

/-- A value-bearing code and a length that matches it (R174). -/
theorem matches_length_iff (kind : Kind) (n g : Nat) : (kind ≠ .nonvalue ∧ badLength kind n g = false) ↔
    (kind = .perChannel ∧ n = g) ∨ (kind = .batch ∧ n ≠ 0 ∧ n % g = 0) := by
  cases kind <;> simp [badLength]

theorem Block.lacksDescriptor_iff (b : Block) :
    b.lacksDescriptor = true ↔ ∃ j < b.nch.toNat, (lutAt b.lut j).valid = false := by
  simp [Block.lacksDescriptor]

theorem Block.convCause_of_badLength (hk : f.k = 0)
    (hlen : badLength (b.cat.entry f.code).kind f.payload.length (b.sampleBytes (b.cat.entry f.code)) = true) :
    b.convCause f = some .length := by
  have hvalue : (b.cat.entry f.code).kind ≠ .nonvalue := fun hno => by simp [hno, badLength] at hlen
  simp [Block.convCause, hk, hvalue, hlen]

theorem Block.convCause_of_lacksDescriptor (hk : f.k = 0) (hvalue : (b.cat.entry f.code).kind ≠ .nonvalue)
    (hlen : badLength (b.cat.entry f.code).kind f.payload.length (b.sampleBytes (b.cat.entry f.code)) = false)
    (hd : b.lacksDescriptor = true) : b.convCause f = some .noDescriptor := by
  simp [Block.convCause, hk, hvalue, hlen, hd]

end Causes

/-! ## The two cases of CONV, with or without room in SMPQ -/

section Fired

variable {s : State} {f : ConvFrame}

theorem fire_conv_of_cause {cause : Cause} (hf : s.blk.cf = some f) (hc : s.blk.convCause f = some cause) :
    fire .conv s = .next (s.setBlk (s.blk.raise s.par (.decodeError cause f.code f.payload.length))) := by
  rw [fire_conv_of_cf hf, Block.convert, hc]

theorem fire_conv_of_sample (hf : s.blk.cf = some f) (hc : s.blk.convCause f = none) :
    fire .conv s = .next (s.setBlk
      { s.blk.smpPush s.par (s.blk.sampleBody s.par f) with cf := s.blk.nextFrame f }) := by
  rw [fire_conv_of_cf hf, Block.convert, hc]

end Fired

/-- Settles O33: the number tells the cause, and each alternative is the first test that fails. -/
theorem convertErrorCauses : Obligations.ConvertErrorCauses := by
  refine ⟨Cause.code_range, fun s f cause hf hk _ hcase => fire_conv_of_cause hf ?_⟩
  rcases hcase with ⟨hcode, hkind⟩ | ⟨hcode, hlen⟩ | ⟨hcode, hlen, hd⟩
  · obtain rfl : cause = .notValue := Cause.code_injective hcode
    exact Block.convCause_of_nonvalue hk hkind
  · obtain rfl : cause = .length := Cause.code_injective hcode
    exact Block.convCause_of_badLength hk ((badLength_iff _ _ _).2 hlen)
  · obtain rfl : cause = .noDescriptor := Cause.code_injective hcode
    obtain ⟨hvalue, hlen⟩ := (matches_length_iff _ _ _).2 hlen
    exact Block.convCause_of_lacksDescriptor hk hvalue hlen (s.blk.lacksDescriptor_iff.2 hd)

/-- Settles O35: at index 0 every test passes, at a later one there is none (R172). -/
theorem convertPushesOneSample : Obligations.ConvertPushesOneSample := by
  intro s f hf _ htests
  refine fire_conv_of_sample hf ?_
  by_cases hk : f.k = 0
  · obtain ⟨hlen, hd⟩ := htests hk
    obtain ⟨hvalue, hlen⟩ := (matches_length_iff _ _ _).2 hlen
    exact Block.convCause_eq_none hvalue hlen hd
  · exact Block.convCause_of_index_ne_zero hk

/-! ## The range of the results and its extremes -/

/-- Settles O31: the range of R168 is inside that of a signed 64-bit word. -/
theorem conversionFitsSixtyFourBits : Obligations.ConversionFitsSixtyFourBits := by
  intro order nch lut e p k v hv
  obtain ⟨hlow, hhigh⟩ := sampleValues_range hv
  exact ⟨hlow, hhigh, BitVec.toInt_ofInt_eq_self (by decide) hlow (by omega)⟩

theorem payloadBytes_whole (p : List Byte) : payloadBytes p 0 p.length = p := by
  refine List.ext_getElem (payloadBytes_length p 0 p.length) fun i _ hi => ?_
  simp [payloadBytes, payloadByte_of_lt p i hi]

/-- A payload that is one field, read in LITTLE order (R63, R162). -/
theorem raw_little_whole {e : CatEntry} {p : List Byte} (hp : p.length = e.fw) (nch : Nat) :
    raw .little nch e p 0 0 = fieldInt e (littleNat p) := by
  rw [raw, memRead, ← hp, Nat.zero_mul, Nat.zero_add, Nat.zero_mul, payloadBytes_whole]

theorem sampleValues_one_channel (order : FieldOrder) (d : LutEntry) (e : CatEntry) (p : List Byte) (k : Nat) :
    sampleValues order 1 (Vector.replicate 16 d) e p k = [scaled (raw order 1 e p k 0) d] := rfl

/-- A row of R180: a payload that is one field, its raw value, the result and its 64-bit word. -/
theorem one_field_conversion {e : CatEntry} {p : List Byte} {r v : Int} {d : LutEntry} {w : BitVec 64}
    (hp : p.length = e.fw) (hr : fieldInt e (littleNat p) = r) (hv : scaled r d = v) (hw : BitVec.ofInt 64 v = w) :
    raw .little 1 e p 0 0 = r ∧ sampleValues .little 1 (Vector.replicate 16 d) e p 0 = [v] ∧
      BitVec.ofInt 64 v = w := by
  have hraw : raw .little 1 e p 0 0 = r := (raw_little_whole hp 1).trans hr
  exact ⟨hraw, by rw [sampleValues_one_channel, hraw, hv], hw⟩

theorem fieldInt_four_bytes {e : CatEntry} (hfw : e.fw = 4) (u : Nat) :
    fieldInt e u = if e.sg then sext 32 u else u := by
  rw [fieldInt, hfw]

/-- Settles O32: each row is a payload of one field of four bytes. -/
theorem extremeOperandTable : Obligations.ExtremeOperandTable := by
  intro row hrow e _ hfwm1 hsg
  have hfw : e.fw = 4 := by rw [CatEntry.fw, hfwm1]; rfl
  have hfield := fieldInt_four_bytes hfw
  rw [hsg] at hfield
  simp only [List.mem_cons, List.not_mem_nil, or_false] at hrow
  rcases hrow with rfl | rfl | rfl | rfl | rfl
  all_goals exact one_field_conversion hfw.symm ((hfield _).trans (by decide)) (by decide) (by decide)

end Sys2Proof.Machine
end

section
/-! The words of the configuration port (spec/44_host_ops.md R185): where they stand in the index map (spec/10_state.md
R41), and each as a number. -/

namespace Sys2Proof.Machine

open Sys2Proof

/-! ## The words of a descriptor -/

/-- One of the three words of a LUT entry, by its offset in the index map (R41): SCALE, OFFSET, META. -/
def LutEntry.word (d : LutEntry) : Fin 3 → Word
  | 0 => d.scale
  | 1 => d.offset
  | 2 => metaWord d

/-- The entry with one of its three words written (R195). -/
def LutEntry.setWord (d : LutEntry) (w : Word) : Fin 3 → LutEntry
  | 0 => { d with scale := w }
  | 1 => { d with offset := w }
  | 2 => { d with valid := w.getLsbD 0, qty := w.extractLsb' 1 2 }

/-- META keeps bits 2:0 of the word written to it (R47, R195), bit by bit. -/
theorem metaWord_of_word (w : Word) (d : LutEntry) :
    metaWord { d with valid := w.getLsbD 0, qty := w.extractLsb' 1 2 } = w &&& 7 := by
  refine BitVec.eq_of_getLsbD_eq fun i hi => ?_
  simp only [metaWord, BitVec.getLsbD_append, BitVec.getLsbD_and]
  interval_cases i <;> simp

theorem LutEntry.word_setWord (d : LutEntry) (w : Word) (f : Fin 3) :
    (d.setWord w f).word f = if f.val = 2 then w &&& 7 else w :=
  match f with
  | 0 => rfl
  | 1 => rfl
  | 2 => metaWord_of_word w d

/-! ## The index map, read from the words (R41) -/

theorem cfgReg_lutWord {nchMax : Nat} {c : Fin 16} (hc : c.val < nchMax) (f : Fin 3) :
    cfgReg nchMax (BitVec.ofNat 16 (0x040 + 4 * c.val + f.val)) = lutReg c f.val := by
  have hi : (BitVec.ofNat 16 (0x040 + 4 * c.val + f.val)).toNat = 0x040 + 4 * c.val + f.val := by
    rw [BitVec.toNat_ofNat, Nat.mod_eq_of_lt (by omega)]
  have hentry : (0x040 + 4 * c.val + f.val - 0x040) / 4 = c.val := by omega
  have hword : (0x040 + 4 * c.val + f.val - 0x040) % 4 = f.val := by omega
  rw [cfgReg_of_ge (by omega), hi, if_pos (by omega), hentry, hword, if_pos hc, Fin.ofNat_val_eq_self]

theorem cfgReg_catWord (nchMax : Nat) (code : Byte) :
    cfgReg nchMax (BitVec.ofNat 16 (0x100 + code.toNat)) = .cat code := by
  have hi : (BitVec.ofNat 16 (0x100 + code.toNat)).toNat = 0x100 + code.toNat := by
    rw [BitVec.toNat_ofNat, Nat.mod_eq_of_lt (by omega)]
  rw [cfgReg_of_ge (by omega), hi, if_neg (by omega), if_pos (by omega), Nat.add_sub_cancel_left,
    BitVec.ofNat_toNat, BitVec.setWidth_eq]

theorem Block.cfgRead_lutWord {par : Params} {c : Fin 16} (hc : c.val < par.nchMax) (f : Fin 3) (b : Block) :
    b.cfgRead par (BitVec.ofNat 16 (0x040 + 4 * c.val + f.val)) = b.lut[c].word f := by
  rw [Block.cfgRead, cfgReg_lutWord hc f]
  match f with
  | 0 => rfl
  | 1 => rfl
  | 2 => rfl

theorem Block.cfgRead_catWord (par : Params) (code : Byte) (b : Block) :
    b.cfgRead par (BitVec.ofNat 16 (0x100 + code.toNat)) = catWord (b.cat.entry code) := by
  rw [Block.cfgRead, cfgReg_catWord]

theorem Block.cfgRead_unmapped {par : Params} {i : CfgIndex} (h : unmappedIndex par i.toNat) (b : Block) :
    b.cfgRead par i = 0 := by
  rw [Block.cfgRead, cfgReg_unmapped h]

/-! ## The words as numbers -/

/-- The upper of two fields counts by the width of the lower one. -/
theorem toNat_append_eq_add {m n : Nat} (x : BitVec m) (y : BitVec n) :
    (x ++ y).toNat = x.toNat * 2 ^ n + y.toNat := by
  rw [BitVec.toNat_append, ← Nat.shiftLeft_add_eq_or_of_lt y.isLt, Nat.shiftLeft_eq]

theorem Block.ctrlWord_toNat (b : Block) :
    b.ctrlWord.toNat = b.run.toNat + 2 * b.route.bits.toNat + 8 * b.policy.bit.toNat := by
  simp only [Block.ctrlWord, toNat_append_eq_add, BitVec.toNat_ofBool, BitVec.toNat_zero]
  omega

theorem Sticky.bits_toNat (f : Sticky) :
    f.bits.toNat = f.corrupt.toNat + 2 * f.unknown.toNat + 4 * f.decErr.toNat + 8 * f.smpDrop.toNat +
      16 * f.cfgErr.toNat := by
  simp only [Sticky.bits, toNat_append_eq_add, BitVec.toNat_ofBool]
  omega

theorem not_isEmpty_eq_decide {α : Type} (l : List α) : (!l.isEmpty) = decide (0 < l.length) := by
  cases l <;> rfl

theorem isSome_eq_decide {α : Type} [DecidableEq α] (o : Option α) : o.isSome = decide (o ≠ none) := by
  cases o <;> rfl

theorem Block.statusLow_toNat (par : Params) (b : Block) :
    (b.statusLow par).toNat =
      (b.idle par).toNat + 2 * (decide (0 < b.frmq.length)).toNat + 4 * (decide (0 < b.smpq.length)).toNat +
        8 * (decide (b.cf ≠ none)).toNat + 16 * (b.rxReady par).toNat := by
  simp only [Block.statusLow, toNat_append_eq_add, BitVec.toNat_ofBool, not_isEmpty_eq_decide, isSome_eq_decide]
  omega

theorem Block.statusWord_toNat (par : Params) (b : Block) :
    (b.statusWord par).toNat = (b.statusLow par).toNat + 256 * b.sticky.bits.toNat := by
  simp only [Block.statusWord, toNat_append_eq_add, BitVec.toNat_zero]
  omega

theorem Block.levelWord_toNat {b : Block} (hbuf : b.buf.length < 512) (hfrmq : b.frmq.length < 256)
    (hsmpq : b.smpq.length < 256) :
    b.levelWord.toNat = b.buf.length + 2 ^ 16 * b.frmq.length + 2 ^ 24 * b.smpq.length := by
  simp only [Block.levelWord, toNat_append_eq_add, BitVec.toNat_ofNat]
  omega

theorem metaWord_toNat (d : LutEntry) : (metaWord d).toNat = d.valid.toNat + 2 * d.qty.toNat := by
  simp only [metaWord, toNat_append_eq_add, BitVec.toNat_ofBool, BitVec.toNat_zero]
  omega

theorem catWord_toNat (e : CatEntry) :
    (catWord e).toNat = 2 ^ 31 * e.known.toNat + 2 ^ 16 * (kindBits e.kind).toNat + 2 ^ 12 * e.sg.toNat +
      2 ^ 8 * e.fwm1.toNat + e.len.toNat := by
  simp only [catWord, toNat_append_eq_add, BitVec.toNat_ofBool, BitVec.toNat_zero]
  omega

/-- Settles O39: the index map selects the word, and the word is the sum of its fields. -/
theorem configReadWords : Obligations.ConfigReadWords := by
  intro s hbuf hfrmq hsmpq _
  refine ⟨fun i => ⟨rfl, rfl⟩, ?ctrl, ?status, ?nch, s.blk.levelWord_toNat hbuf hfrmq hsmpq, rfl, rfl, rfl, rfl, rfl,
    rfl, fun c hc => ⟨s.blk.cfgRead_lutWord hc 0, s.blk.cfgRead_lutWord hc 1, ?_⟩, fun code => ?_,
    fun i hi => s.blk.cfgRead_unmapped hi⟩
  case ctrl =>
    refine s.blk.ctrlWord_toNat.trans ?_
    cases s.blk.route <;> cases s.blk.policy <;> rfl
  case status =>
    refine (s.blk.statusWord_toNat s.par).trans ?_
    rw [Block.statusLow_toNat, Sticky.bits_toNat]
    ring
  case nch => exact BitVec.toNat_setWidth_of_le (by decide)
  · exact (congrArg BitVec.toNat (s.blk.cfgRead_lutWord hc 2)).trans (metaWord_toNat _)
  · rw [Block.cfgRead_catWord, catWord_toNat]
    cases (s.blk.cat.entry code).kind <;> rfl

end Sys2Proof.Machine
end

section
/-! The writes of the configuration port, one rule at a time (spec/44_host_ops.md R188 to R203): what an accepted write
stores, what a refused one leaves, and what reads back. -/

namespace Sys2Proof.Machine

open Sys2Proof

theorem fire_cfgWrite (i : CfgIndex) (w : Word) (s : State) :
    fire (.host (.cfgWrite i w)) s = .next (s.setBlk (s.blk.cfgWrite s.par i w)) := rfl

section Writes

variable {par : Params} {b : Block} {i : CfgIndex} {w : Word}

/-! ## Read-only and unmapped words (R203) -/

theorem Block.cfgWrite_unmapped (hi : unmappedIndex par i.toNat) : b.cfgWrite par i w = b.refuse par := by
  rw [Block.cfgWrite, cfgReg_unmapped hi]

/-! ## CTRL (R188 to R191) -/

theorem Block.cfgWrite_ctrl : b.cfgWrite par 0x000 w = b.writeCtrl par w := rfl

/-- Two bits that do not hold the reserved value 3 (R28, R48). -/
theorem twoBits_cases : ∀ r : BitVec 2, r ≠ 3 → r = 0 ∨ r = 1 ∨ r = 2 := by decide

theorem Route.exists_bits {r : BitVec 2} (h : r ≠ 3) : ∃ route : Route, r = route.bits := by
  rcases twoBits_cases r h with rfl | rfl | rfl
  · exact ⟨.bypass, rfl⟩
  · exact ⟨.split, rfl⟩
  · exact ⟨.all, rfl⟩

theorem Block.writeRoute_of_same (h : w.extractLsb' 1 2 = b.route.bits ∧ w.getLsbD 3 = b.policy.bit) :
    b.writeRoute par w = b := if_neg fun hd => hd.elim (· h.1) (· h.2)

theorem Block.writeRoute_of_change {r : Route}
    (hd : w.extractLsb' 1 2 ≠ b.route.bits ∨ w.getLsbD 3 ≠ b.policy.bit) (hr : w.extractLsb' 1 2 = r.bits)
    (hu : b.unlocked par = true) :
    b.writeRoute par w = { b with route := r, policy := Policy.ofBit (w.getLsbD 3) } := by
  unfold Block.writeRoute
  dsimp only
  rw [if_pos hd, hr, Route.ofBits_bits]
  exact if_pos hu

/-- Only bits 3:1 of the word count for ROUTE and POLICY. -/
theorem Block.writeRoute_congr {w' : Word} (hr : w'.extractLsb' 1 2 = w.extractLsb' 1 2)
    (hp : w'.getLsbD 3 = w.getLsbD 3) : b.writeRoute par w' = b.writeRoute par w := by
  simp only [Block.writeRoute, hr, hp]

theorem Block.writeCtrl_of_not_flush (h : w.getLsbD 4 = false) :
    b.writeCtrl par w = { b.writeRoute par w with run := w.getLsbD 0 } := by
  rw [Block.writeCtrl, h]
  rfl

theorem Block.writeCtrl_of_flush (h : w.getLsbD 4 = true) :
    b.writeCtrl par w = Block.flush { b.writeRoute par w with run := w.getLsbD 0 } := by
  rw [Block.writeCtrl, h]
  rfl

/-- A CTRL write with FLUSH is the write without it, and then the flush (R188). -/
theorem Block.writeCtrl_flush_eq (h : w.getLsbD 4 = true) :
    b.writeCtrl par w = (b.writeCtrl par (w &&& 0xFFFFFFEF)).flush := by
  have hroute : b.writeRoute par (w &&& 0xFFFFFFEF) = b.writeRoute par w :=
    Block.writeRoute_congr (by rw [BitVec.extractLsb'_and]; exact BitVec.and_allOnes) (by simp)
  rw [Block.writeCtrl_of_flush h, Block.writeCtrl_of_not_flush (w := w &&& 0xFFFFFFEF) (by simp), hroute]
  simp

/-- A CTRL write without FLUSH changes RUN, ROUTE, POLICY and the flags at most. -/
theorem Block.writeCtrl_frame (h : w.getLsbD 4 = false) :
    ∃ run route policy sticky,
      b.writeCtrl par w = { b with run := run, route := route, policy := policy, sticky := sticky } := by
  rw [Block.writeCtrl_of_not_flush h]
  rcases b.writeRoute_cases par w with ⟨r, -, -, he⟩ | he | he <;> rw [he] <;> exact ⟨_, _, _, _, rfl⟩

theorem Block.flush_idle (par : Params) (b : Block) : b.flush.idle par = true := rfl

/-! ## STATUS (R192) -/

/-- The STATUS word loses the flags that the word names, bit by bit; `low` is what is computed at the read (R32). -/
theorem status_clearBy (low : BitVec 5) (f : Sticky) (w : Word) :
    (0#19 ++ ((f.clearBy w).bits ++ (0#3 ++ low)) : BitVec 32) =
      (0#19 ++ (f.bits ++ (0#3 ++ low)) : BitVec 32) &&& ~~~(w &&& 0x00001F00) := by
  refine BitVec.eq_of_getLsbD_eq fun i hi => ?_
  simp only [Sticky.bits, Sticky.clearBy, BitVec.getLsbD_append, BitVec.getLsbD_and]
  interval_cases i <;> simp

/-! ## NCH (R193) -/

theorem Block.cfgWrite_nch : b.cfgWrite par 0x002 w = b.writeNch par w := rfl

theorem Block.writeNch_of_legal (hu : b.unlocked par = true)
    (hn : 1 ≤ (w.extractLsb' 0 5).toNat ∧ (w.extractLsb' 0 5).toNat ≤ par.nchMax) :
    b.writeNch par w = { b with nch := w.extractLsb' 0 5 } := if_pos ⟨hu, hn⟩

/-! ## LUT (R195) -/

theorem Block.writeLut_of_unlocked (hu : b.unlocked par = true) (c : Fin 16) (f : LutEntry → LutEntry) :
    b.writeLut par c f = { b with lut := b.lut.set c.val (f b.lut[c]) c.isLt } := if_pos hu

theorem Block.cfgWrite_lutWord {c : Fin 16} (hc : c.val < par.nchMax) (f : Fin 3) :
    b.cfgWrite par (BitVec.ofNat 16 (0x040 + 4 * c.val + f.val)) w = b.writeLut par c (·.setWord w f) := by
  rw [Block.cfgWrite, cfgReg_lutWord hc f]
  match f with
  | 0 => rfl
  | 1 => rfl
  | 2 => rfl

/-! ## CAT (R196) -/

theorem exists_kindBits {k : BitVec 2} (h : k ≠ 3) : ∃ kind : Kind, kindBits kind = k := by
  rcases twoBits_cases k h with rfl | rfl | rfl
  · exact ⟨.nonvalue, rfl⟩
  · exact ⟨.perChannel, rfl⟩
  · exact ⟨.batch, rfl⟩

/-- The fields that a catalog word asks for, with the KIND that its bits 17:16 stand for (R49). -/
def wordFields (w : Word) (kind : Kind) : CatEntry :=
  { known := w.getLsbD 31, kind := kind, sg := w.getLsbD 12, fwm1 := w.extractLsb' 8 2, len := w.extractLsb' 0 8 }

theorem catOfWord_of_legal {lenMax : Nat} (hk : w.extractLsb' 16 2 ≠ 3) (hl : (w.extractLsb' 0 8).toNat ≤ lenMax) :
    ∃ kind, kindBits kind = w.extractLsb' 16 2 ∧ catOfWord lenMax w = some (wordFields w kind) := by
  obtain ⟨kind, hkind⟩ := exists_kindBits hk
  refine ⟨kind, hkind, ?_⟩
  rw [catOfWord, ← hkind, kindOfBits_kindBits]
  exact if_pos hl

theorem Block.writeCat_of_legal {code : Byte} {e : CatEntry} (hu : b.unlocked par = true)
    (he : catOfWord par.lenMax w = some e) : b.writeCat par code w = { b with cat := b.cat.put code e } := by
  rw [Block.writeCat, he]
  exact if_pos hu

theorem Block.cfgWrite_catWord (code : Byte) :
    b.cfgWrite par (BitVec.ofNat 16 (0x100 + code.toNat)) w = b.writeCat par code w := by
  rw [Block.cfgWrite, cfgReg_catWord]

/-- A catalog entry keeps the fields of the word written to it and no reserved bit (R49, R196), bit by bit. -/
theorem catWord_wordFields {kind : Kind} (h : kindBits kind = w.extractLsb' 16 2) :
    catWord (wordFields w kind) = w &&& 0x800313FF := by
  refine BitVec.eq_of_getLsbD_eq fun i hi => ?_
  simp only [catWord, wordFields, h, BitVec.getLsbD_append, BitVec.getLsbD_and, BitVec.getLsbD_extractLsb']
  interval_cases i <;> simp

end Writes

/-! ## The statements -/

/-- Settles O40: the two rules of R203. -/
theorem readOnlyAndUnmappedWritesAreRefused : Obligations.ReadOnlyAndUnmappedWritesAreRefused := by
  intro s i w hi
  have hrefused : s.blk.cfgWrite s.par i w = s.blk.refuse s.par :=
    hi.elim Block.cfgWrite_readOnly Block.cfgWrite_unmapped
  rw [fire_cfgWrite, hrefused]
  rfl

/-- Settles O41: without FLUSH the write is its ROUTE and POLICY part, in one of three cases, and RUN. -/
theorem controlWriteInThreeParts : Obligations.ControlWriteInThreeParts := by
  intro s w hflush
  rw [fire_cfgWrite, Block.cfgWrite_ctrl, Block.writeCtrl_of_not_flush hflush]
  refine ⟨fun hsame => ?_, fun r hd hr hu => ?_, fun hd hl => ?_⟩
  · rw [Block.writeRoute_of_same hsame]
    rfl
  · rw [Block.writeRoute_of_change hd hr hu]
    rfl
  · rw [Block.writeRoute_of_refused hd hl]
    rfl

/-- Settles O42: the write without FLUSH leaves BUF, POS and SEQ, and then all is flushed. -/
theorem flushDiscardsWhatIsInside : Obligations.FlushDiscardsWhatIsInside := by
  intro s t w hflush ht
  obtain ⟨run, route, policy, sticky, hwrite⟩ :=
    Block.writeCtrl_frame (par := s.par) (b := s.blk) (w := w &&& 0xFFFFFFEF) (by simp)
  have hboth := Block.writeCtrl_flush_eq (par := s.par) (b := s.blk) hflush
  rw [hwrite] at hboth
  rw [fire_cfgWrite, Block.cfgWrite_ctrl, hwrite] at ht
  obtain rfl := Host.Outcome.next.inj ht
  rw [fire_cfgWrite, Block.cfgWrite_ctrl, hboth]
  exact ⟨_, rfl, rfl, rfl, Block.flush_idle _ _⟩

/-- Settles O43: the low bits of STATUS do not depend on the flags (R32). -/
theorem statusWriteClearsNamedFlags : Obligations.StatusWriteClearsNamedFlags :=
  fun s w => ⟨_, rfl, rfl, status_clearBy (s.blk.statusLow s.par) s.blk.sticky w⟩

/-- Settles O44. -/
theorem channelCountWrite : Obligations.ChannelCountWrite := by
  intro s w
  rw [fire_cfgWrite, Block.cfgWrite_nch]
  split
  case isTrue h =>
    obtain ⟨hu, hn⟩ := h
    rw [Block.writeNch_of_legal hu hn]
    rfl
  case isFalse h =>
    rw [(s.blk.writeNch_cases s.par w).resolve_left fun ⟨hu, hlo, hhi, _⟩ => h ⟨hu, hlo, hhi⟩]
    rfl

/-- Settles O45: the write sets one word of one entry, and that word reads back (`LutEntry.word_setWord`). -/
theorem descriptorWriteReadsBack : Obligations.DescriptorWriteReadsBack := by
  intro s c w hc f
  refine ⟨_, fire_cfgWrite _ w s, fun hu => ?_, fun hl => ?_⟩ <;> rw [Block.cfgWrite_lutWord hc f]
  · rw [Block.writeLut_of_unlocked hu]
    have hentry : (s.blk.lut.set c.val (s.blk.lut[c].setWord w f) c.isLt)[c] = s.blk.lut[c].setWord w f :=
      Vector.getElem_set_self c.isLt
    refine ⟨rfl, fun d hd => Vector.getElem_set_ne c.isLt d.isLt fun h => hd (Fin.ext h.symm), hentry.trans ?_, ?_⟩
    · match f with
      | 0 => rfl
      | 1 => rfl
      | 2 => rfl
    · rw [Block.cfgRead_lutWord hc f, ← s.blk.lut[c].word_setWord w f]
      exact congrArg (·.word f) hentry
  · rw [Block.writeLut_of_locked hl]
    rfl

/-- Settles O46: a legal word's fields are stored and read back, and any other word is refused. -/
theorem catalogWriteReadsBack : Obligations.CatalogWriteReadsBack := by
  intro s code w
  refine ⟨_, fire_cfgWrite _ w s, fun ⟨hu, hk, hl⟩ => ?_, fun hbad => ?_⟩ <;> rw [Block.cfgWrite_catWord]
  · obtain ⟨kind, hkind, he⟩ := catOfWord_of_legal hk hl
    have hentry := s.blk.cat.entry_put_self code (wordFields w kind)
    rw [Block.writeCat_of_legal hu he, Block.cfgRead_catWord]
    simp only [State.setBlk_blk]
    rw [hentry]
    exact ⟨rfl, fun d hd => s.blk.cat.entry_put_of_ne _ hd.symm, rfl, rfl, rfl, rfl, catWord_wordFields hkind⟩
  · rw [not_and_or, not_and_or, not_not, Nat.not_le, Bool.not_eq_true] at hbad
    rw [Block.writeCat_of_refused code hbad]
    rfl

end Sys2Proof.Machine
end

section
/-! CFG_ERR (spec/44_host_ops.md R204), the lock and the quiet of an unlocked block (R187), and the two pops (R205,
R206). -/

namespace Sys2Proof.Machine

open Sys2Proof

/-! ## Refused writes alone set CFG_ERR (R204) -/

section NotRefused

variable {par : Params} {b : Block} {i : CfgIndex} {w : Word}

/-- A CTRL write that no clause of R204 refuses leaves the flags alone. -/
theorem Block.writeRoute_sticky_of_not_refused
    (h : ¬((w.extractLsb' 1 2 ≠ b.route.bits ∨ w.getLsbD 3 ≠ b.policy.bit) ∧
      (b.unlocked par = false ∨ w.extractLsb' 1 2 = 3))) : (b.writeRoute par w).sticky = b.sticky := by
  by_cases hd : w.extractLsb' 1 2 ≠ b.route.bits ∨ w.getLsbD 3 ≠ b.policy.bit
  · obtain ⟨hu, h3⟩ := not_or.1 fun hl => h ⟨hd, hl⟩
    obtain ⟨r, hr⟩ := Route.exists_bits h3
    rw [Block.writeRoute_of_change hd hr (Bool.eq_true_of_not_eq_false hu)]
  · rw [not_or, not_not, not_not] at hd
    rw [Block.writeRoute_of_same hd]

theorem Block.writeNch_sticky_of_not_refused
    (h : ¬(b.unlocked par = false ∨ (w.extractLsb' 0 5).toNat = 0 ∨ par.nchMax < (w.extractLsb' 0 5).toNat)) :
    (b.writeNch par w).sticky = b.sticky := by
  rw [not_or, not_or, Bool.not_eq_false, Nat.not_lt] at h
  obtain ⟨hu, hpos, hmax⟩ := h
  rw [Block.writeNch_of_legal hu ⟨Nat.one_le_iff_ne_zero.2 hpos, hmax⟩]

theorem Block.writeCat_sticky_of_not_refused (code : Byte)
    (h : ¬(b.unlocked par = false ∨ w.extractLsb' 16 2 = 3 ∨ par.lenMax < (w.extractLsb' 0 8).toNat)) :
    (b.writeCat par code w).sticky = b.sticky := by
  rw [not_or, not_or, Bool.not_eq_false, Nat.not_lt] at h
  obtain ⟨hu, hkind, hlen⟩ := h
  obtain ⟨kind, -, he⟩ := catOfWord_of_legal hkind hlen
  rw [Block.writeCat_of_legal hu he]

theorem Block.cfgWrite_lut_sticky_of_unlocked (hi : lutIndex par i.toNat) (hu : b.unlocked par = true) :
    (b.cfgWrite par i w).sticky = b.sticky := by
  obtain ⟨c, hr | hr | hr⟩ := cfgReg_lut hi <;> simp only [Block.cfgWrite, hr, Block.writeLut_of_unlocked hu]

/-- What stands at an index (R41). -/
theorem index_cases (par : Params) (i : CfgIndex) :
    i = 0x000 ∨ i = 0x001 ∨ i = 0x002 ∨ lutIndex par i.toNat ∨ catIndex i.toNat ∨ readOnlyIndex i.toNat ∨
      unmappedIndex par i.toNat := by
  by_cases hlut : lutIndex par i.toNat
  · exact .inr (.inr (.inr (.inl hlut)))
  by_cases hcat : catIndex i.toNat
  · exact .inr (.inr (.inr (.inr (.inl hcat))))
  by_cases hlow : i.toNat ≤ 9
  · by_cases hro : readOnlyIndex i.toNat
    · exact .inr (.inr (.inr (.inr (.inr (.inl hro)))))
    · bv_omega
  · exact .inr (.inr (.inr (.inr (.inr (.inr ⟨Nat.not_le.1 hlow, hlut, hcat⟩)))))

/-- A write that R204 does not list keeps the flags or is one to STATUS. -/
theorem Block.cfgWrite_sticky_of_not_refused (h : ¬refusedWrite par b i w) :
    (b.cfgWrite par i w).sticky = b.sticky ∨ (b.cfgWrite par i w).sticky = b.sticky.clearBy w := by
  simp only [refusedWrite, not_or] at h
  obtain ⟨hctrl, hnch, hlut, hcat, hro, hun⟩ := h
  rcases index_cases par i with rfl | rfl | rfl | hi | hi | hi | hi
  · rw [Block.cfgWrite_ctrl, Block.writeCtrl_sticky]
    exact .inl (Block.writeRoute_sticky_of_not_refused fun hr => hctrl ⟨rfl, hr⟩)
  · exact .inr rfl
  · exact .inl (Block.writeNch_sticky_of_not_refused fun hr => hnch ⟨rfl, hr⟩)
  · exact .inl (Block.cfgWrite_lut_sticky_of_unlocked hi (Bool.eq_true_of_not_eq_false fun hu => hlut ⟨hi, hu⟩))
  · obtain ⟨code, hr⟩ := cfgReg_cat (nchMax := par.nchMax) hi
    rw [Block.cfgWrite, hr]
    exact .inl (Block.writeCat_sticky_of_not_refused code fun hw => hcat ⟨hi, hw⟩)
  · exact absurd hi hro
  · exact absurd hi hun

end NotRefused

theorem Block.refusedWrite_of_cfgErr {par : Params} {b : Block} {i : CfgIndex} {w : Word}
    (hclear : b.sticky.cfgErr = false) (hset : (b.cfgWrite par i w).sticky.cfgErr = true) :
    refusedWrite par b i w := by
  by_contra hno
  rcases Block.cfgWrite_sticky_of_not_refused hno with he | he
  · rw [he, hclear] at hset
    contradiction
  · rw [he, Sticky.clearBy, hclear] at hset
    contradiction

/-- A move that sets CFG_ERR is a refused write. -/
theorem Block.Moves.refusedWrite_of_cfgErr {par : Params} {b b' : Block} {t : Transition} (h : b.Moves par t b')
    (hclear : b.sticky.cfgErr = false) (hset : b'.sticky.cfgErr = true) :
    ∃ i w, t = .host (.cfgWrite i w) ∧ refusedWrite par b i w := by
  have hkept : b'.sticky.cfgErr = b.sticky.cfgErr → ∃ i w, t = .host (.cfgWrite i w) ∧ refusedWrite par b i w :=
    fun he => by
      rw [he, hclear] at hset
      contradiction
  cases h with
  | rx x => exact hkept rfl
  | unknown c ho => exact hkept rfl
  | badck c ho => exact hkept rfl
  | frame c p ck ho hc hr => exact hkept (congrArg Sticky.cfgErr (b.accept_sticky c p))
  | conv f hf => exact hkept (by rw [Block.convert_sticky])
  | cfgRead i => exact hkept rfl
  | cfgWrite i w => exact ⟨i, w, rfl, Block.refusedWrite_of_cfgErr hclear hset⟩
  | frmPop => exact hkept rfl
  | reset => contradiction
  | smpPop => exact hkept rfl

/-- Settles O47: of the moves only a configuration write can set CFG_ERR, and it does if R204 lists it. -/
theorem onlyRefusedWritesSetConfigError : Obligations.OnlyRefusedWritesSetConfigError := by
  refine fun t s s' hf hclear => ⟨fun hset => ?_, ?_⟩
  · rcases fire_cases hf with hm | ⟨-, hb⟩
    · exact hm.refusedWrite_of_cfgErr hclear hset
    · rw [hb, hclear] at hset
      contradiction
  · rintro ⟨i, w, rfl, hw⟩
    exact Host.Outcome.next.inj hf ▸ Block.cfgErr_of_refusedWrite hw

/-! ## The lock (R187) -/

/-- What the lock guards: the configuration without RUN. -/
structure Block.SameLocked (b b' : Block) : Prop where
  route : b'.route = b.route
  policy : b'.policy = b.policy
  nch : b'.nch = b.nch
  lut : b'.lut = b.lut
  cat : b'.cat = b.cat

theorem Block.SameLocked.refl (b : Block) : b.SameLocked b := ⟨rfl, rfl, rfl, rfl, rfl⟩

theorem Block.SameConfig.sameLocked {b b' : Block} (h : b.SameConfig b') : b.SameLocked b' :=
  ⟨h.route, h.policy, h.nch, h.lut, h.cat⟩

section Locked

variable {par : Params} {b : Block}

theorem Block.sameLocked_flush {b' : Block} (h : b.SameLocked b') : b.SameLocked b'.flush :=
  ⟨h.route, h.policy, h.nch, h.lut, h.cat⟩

theorem Block.sameLocked_refuse (par : Params) (b : Block) : b.SameLocked (b.refuse par) := ⟨rfl, rfl, rfl, rfl, rfl⟩

theorem Block.sameLocked_writeCtrl (hl : b.unlocked par = false) (w : Word) : b.SameLocked (b.writeCtrl par w) := by
  have hroute : b.SameLocked (b.writeRoute par w) := by
    rcases b.writeRoute_cases par w with ⟨r, -, hu, -⟩ | he | he
    · rw [hl] at hu
      contradiction
    · exact he ▸ b.sameLocked_refuse par
    · exact he.symm ▸ .refl b
  have hrun : b.SameLocked { b.writeRoute par w with run := w.getLsbD 0 } :=
    ⟨hroute.route, hroute.policy, hroute.nch, hroute.lut, hroute.cat⟩
  cases hf : w.getLsbD 4 with
  | false => exact Block.writeCtrl_of_not_flush hf ▸ hrun
  | true => exact Block.writeCtrl_of_flush hf ▸ Block.sameLocked_flush hrun

theorem Block.sameLocked_cfgWrite (hl : b.unlocked par = false) (i : CfgIndex) (w : Word) :
    b.SameLocked (b.cfgWrite par i w) := by
  rcases b.cfgWrite_cases par i w with ⟨-, he⟩ | ⟨-, he⟩ | ⟨hu, -⟩ | he
  · exact he ▸ Block.sameLocked_writeCtrl hl w
  · exact he ▸ ⟨rfl, rfl, rfl, rfl, rfl⟩
  · rw [hl] at hu
    contradiction
  · exact he ▸ b.sameLocked_refuse par

end Locked

/-- Settles O48: a locked block takes no configuration write but RUN, FLUSH and STATUS, and no other move touches the
configuration (`Block.Moves.sameConfig`). -/
theorem lockedConfigurationStays : Obligations.LockedConfigurationStays := by
  intro t s s' hf hl hr
  have hsame : s.blk.SameLocked s'.blk := by
    rcases fire_cases hf with hm | ⟨-, hb⟩
    · by_cases hw : ∃ i w, t = .host (.cfgWrite i w)
      · obtain ⟨i, w, rfl⟩ := hw
        exact Host.Outcome.next.inj hf ▸ Block.sameLocked_cfgWrite hl i w
      · exact (hm.sameConfig (fun i w ht => hw ⟨i, w, ht⟩) hr).sameLocked
    · exact hb ▸ .refl s.blk
  exact ⟨hsame.route, hsame.policy, hsame.nch, hsame.lut, hsame.cat⟩

/-! ## The quiet of an unlocked block (R187, R75) -/

theorem Block.unlocked_iff (par : Params) (b : Block) :
    b.unlocked par = true ↔ b.run = false ∧ b.cf = none ∧ (b.outcome par).waiting = true := by
  simp [Block.unlocked, Block.idle]

/-- A turn passes if no transition that the agent offers is enabled (log 4). -/
theorem turn_eq_next_of_disabled {a : Agent} {s : State}
    (h : ∀ t s', offer a s = some (t, s') → enabled t s = false) : turn a s = .next s := by
  cases ho : offer a s with
  | none => rw [turn, ho]
  | some o =>
    rw [turn_of_offer ho, h o.1 o.2 ho]
    rfl

/-- Settles O50: SRC needs RUN, SCAN a decided outcome and CONV a frame in CF; the turn of each then passes. -/
theorem unlockedBlockIsQuiet : Obligations.UnlockedBlockIsQuiet := by
  intro s hu
  obtain ⟨hrun, hcf, hwait⟩ := (s.blk.unlocked_iff s.par).1 hu
  have hrx : ∀ x, enabled (.rx x) s = false := fun x => by simp [enabled, Block.rxReady, hrun]
  have hscan : enabled .scan s = false := Bool.eq_false_of_not_eq_true fun hr => by
    rw [Block.not_waiting_of_scanReady hr] at hwait
    contradiction
  have hconv : enabled .conv s = false := by simp [enabled, Block.convReady, hcf]
  refine ⟨hrx, hscan, hconv, fun a rest s' ha ht hs => ?_⟩
  have hpass : turn a (s.setEnv { s.env with turns := rest }) = .next (s.setEnv { s.env with turns := rest }) := by
    refine turn_eq_next_of_disabled fun t u ho => ?_
    rw [enabled_setEnv]
    obtain ⟨-, -, ⟨-, x, -, -, rfl, -⟩ | ⟨-, rfl, -⟩ | ⟨-, rfl, -⟩ | ⟨rfl, -⟩ | ⟨rfl, -⟩⟩ := offer_cases ho
    · exact hrx x
    · exact hscan
    · exact hconv
    · exact absurd ha (by decide)
    · exact absurd ha (by decide)
  rw [step_of_turn s a rest ht, hpass] at hs
  exact Host.Outcome.next.inj hs ▸ rfl

/-! ## The pops (R205, R206) -/

theorem fireFrmPop_of_cons {s : State} {r : FrameRec} {rest : List FrameRec} (hq : s.blk.frmq = r :: rest) :
    fireFrmPop s =
      { s with blk := { s.blk with frmq := rest }, env := { s.env with frames := s.env.frames ++ [r] } } := by
  rw [fireFrmPop, hq]

theorem fireSmpPop_of_cons {s : State} {r : Record} {rest : List Record} (hq : s.blk.smpq = r :: rest) :
    fireSmpPop s =
      { s with blk := { s.blk with smpq := rest }, env := { s.env with records := s.env.records ++ [r] } } := by
  rw [fireSmpPop, hq]

/-- Settles O38: what a pop does where its queue has a head. -/
theorem popsReturnTheHead : Obligations.PopsReturnTheHead :=
  ⟨fun s => ⟨by simp [enabled], by simp [enabled]⟩, fun _ _ _ hq => congrArg _ (fireFrmPop_of_cons hq),
    fun _ _ _ hq => congrArg _ (fireSmpPop_of_cons hq)⟩

end Sys2Proof.Machine
end

section
/-! The machine never stops (spec/60_exceptions.md R215): a step has a next state, and it is of the same instance (R54). -/

namespace Sys2Proof.Machine

open Sys2Proof

/-- Settles O8: a step leaves the block still or fires one transition (`step_cases`); either way it answers a next
state, and neither changes a parameter. -/
theorem machineNeverStops : Obligations.MachineNeverStops := by
  intro s
  obtain ⟨s', hs⟩ := step_next s
  exact ⟨s', hs, step_par hs⟩

end Sys2Proof.Machine
end

section
/-! RESET (spec/70_reset_and_hazards.md R245): what the block holds right after it (spec/10_state.md R55), the words
that are read then, and the transitions that are enabled then (R248). -/

namespace Sys2Proof.Machine

open Sys2Proof

/-! ## The block right after RESET (R55) -/

@[simp] theorem Block.outcome_reset (par : Params) : (Block.reset par).outcome par = .waitEmpty :=
  scanOutcome_nil par.ck par.catReset

/-- RUN and CF are at their reset values and the scan waits for its first byte (R187). -/
theorem Block.unlocked_reset (par : Params) : (Block.reset par).unlocked par = true :=
  (Block.unlocked_iff par _).2 ⟨rfl, rfl, by rw [Block.outcome_reset, ScanOutcome.waiting]⟩

@[simp] theorem Block.idle_reset (par : Params) : (Block.reset par).idle par = true := by
  rw [Block.idle, Block.outcome_reset]
  rfl

@[simp] theorem Block.rxReady_reset (par : Params) : (Block.reset par).rxReady par = false := rfl

/-- Of the STATUS bits only IDLE is 1. -/
theorem Block.statusWord_reset (par : Params) : (Block.reset par).statusWord par = 0x00000001 := by
  refine BitVec.eq_of_toNat_eq ?_
  rw [Block.statusWord_toNat, Block.statusLow_toNat, Sticky.bits_toNat, Block.idle_reset, Block.rxReady_reset]
  rfl

/-- Every queue that LEVEL counts is empty. -/
theorem Block.levelWord_reset (par : Params) : (Block.reset par).levelWord = 0 :=
  BitVec.eq_of_toNat_eq
    (Block.levelWord_toNat (Nat.zero_lt_succ _) (Nat.zero_lt_succ _) (Nat.zero_lt_succ _))

/-- Settles O54: RESET puts `Block.reset` in the place of the block, whose STATUS and LEVEL are known. -/
theorem resetSetsEveryElement : Obligations.ResetSetsEveryElement := fun s =>
  ⟨rfl, s.setBlk (Block.reset s.par), rfl, rfl, Block.statusWord_reset s.par, Block.levelWord_reset s.par⟩

/-! ## The transitions enabled right after RESET (R248) -/

/-- Settles O55: the block is unlocked, so SRC, SCAN and CONV rest (`unlockedBlockIsQuiet`); the two pops find their
queues empty; the configuration port and RESET never wait. -/
theorem afterResetOnlyTheHostCanAct : Obligations.AfterResetOnlyTheHostCanAct := by
  intro par t
  obtain ⟨hrx, hscan, hconv, -⟩ := unlockedBlockIsQuiet (State.boot par) (Block.unlocked_reset par)
  constructor
  · intro h
    cases t with
    | rx x => exact nomatch (hrx x).symm.trans h
    | scan => exact nomatch hscan.symm.trans h
    | conv => exact nomatch hconv.symm.trans h
    | smpPop => exact nomatch h
    | host op =>
      cases op with
      | cfgRead i => exact .inl ⟨i, rfl⟩
      | cfgWrite i w => exact .inr (.inl ⟨i, w, rfl⟩)
      | frmPop => exact nomatch h
      | reset => exact .inr (.inr rfl)
  · rintro (⟨i, rfl⟩ | ⟨i, w, rfl⟩ | rfl) <;> rfl

end Sys2Proof.Machine
end
